-- ==== Sys2Proof/Word.lean ====
section
/-! DEFINITION. The word types of TSQ-LZ: a byte of IN or OUT, a 32-bit register, a symbol selector. -/

namespace Sys2Proof

/-- One byte of IN, OUT or the payload (20_memory.md R30: "a byte is 8 bits"). -/
abbrev Byte := BitVec 8

/-- A 32-bit host register, a 32-bit datapath register or pool word, and `sym4`, the 4-byte symbol of the match index
(R10, R12 to R19). -/
abbrev Word := BitVec 32

/-- The selector `SEL = EXT || c || nib` of a symbol (R50). -/
abbrev Sel := BitVec 6

/-- A 4-bit size field (R49). -/
abbrev Nibble := BitVec 4

/-- A number written to a 32-bit register. Every expression of the spec is over the mathematical integers, and a value
is narrowed where it is stored (R6; log 11). -/
abbrev word (n : Nat) : Word := BitVec.ofNat 32 n

end Sys2Proof
end

