-- ==== Sys2Proof/Machine/Bytes.lean ====
section
/-! DEFINITION. Byte order: the little-endian views and stores of 00_scope.md section 6 (R32, R33). -/

namespace Sys2Proof.Machine

/-- LE16 of two bytes, lower index first (R32). -/
def le16 (b0 b1 : Byte) : Nat := b0.toNat + 256 * b1.toNat

/-- LE24 of three bytes, lower index first, as the 24-bit field of the block header (R46). -/
def le24 (b0 b1 b2 : Byte) : BitVec 24 := BitVec.ofNat 24 (b0.toNat + 256 * b1.toNat + 65536 * b2.toNat)

/-- LE32 of four bytes, lower index first: `sym4` of the match index (R32, R87). -/
def le32 (b0 b1 b2 b3 : Byte) : Word :=
  BitVec.ofNat 32 (b0.toNat + 256 * b1.toNat + 65536 * b2.toNat + 16777216 * b3.toNat)

/-- Byte `k` of a number: `v[8k+7 : 8k]`. -/
def byteOf (v k : Nat) : Byte := BitVec.ofNat 8 (v >>> (8 * k))

/-- The bytes PutLE16 stores, lowest index first. -/
def putLE16 (v : Nat) : List Byte := [byteOf v 0, byteOf v 1]

/-- The bytes PutLE24 stores, lowest index first. -/
def putLE24 (v : Nat) : List Byte := [byteOf v 0, byteOf v 1, byteOf v 2]

end Sys2Proof.Machine
end

