-- ==== Sys2Proof/Config.lean ====
section
/-! DEFINITION. The configuration of a unit (fixed when it is built: R5, R23) and the values the spec leaves free,
which are opaque constants: nothing in Lean can evaluate one or prove anything of its value. -/

namespace Sys2Proof

/-- BLOCK_BITS, 18 or 22 and nothing else (R5, D1; 93_implementation_defined.md I1). -/
inductive Geometry where
  | bits18
  | bits22
  deriving DecidableEq, Repr

/-- Which hash function a unit was built with: the spec's own fold (R81, R82), or any other function, number `n`
of `Config.otherHash` (R5, D5, D6: HashF and HashM are OPEN parameters). -/
inductive HashChoice where
  | fold
  | other (n : Nat)
  deriving DecidableEq, Repr

/-- The open parameters of a unit (R5; "Open parameters in one place" of 92_eei_decisions.md). -/
structure Build where
  /-- BLOCK_BITS (D1). -/
  geometry : Geometry
  /-- POOL_ENTRIES, the capacity of the positions pool in words (D13); below 2^32, as POOL_CUR is a 32-bit register
  that runs up to it (R6, R19). -/
  poolEntries : Word
  /-- HashF (D5). -/
  hashF : HashChoice
  /-- HashM (D6). -/
  hashM : HashChoice
  deriving DecidableEq, Repr

/-- Free value: the power-on content of IN at an index (R24: "unspecified"). See log 7. -/
opaque Config.powerOnIn : Nat → Byte

/-- Free value: the content of OUT at an index that holds no specified byte, at the given draw (R24, R42: "a model
draws it freely"). See logs 7 and 8. -/
opaque Config.unspecifiedOut : Nat → Nat → Byte

/-- Free value: what a host read of CMD returns, at the given draw (R10: "returns an unspecified value"). See log 16. -/
opaque Config.cmdReadback : Nat → Byte

/-- Free value: the word of the positions pool at an index at or beyond POOL_ENTRIES, where there is none (R19). See
log 25. -/
opaque Config.noPoolWord : Nat → Word

/-- Free value: what `M_OCC` holds after it was to count to a number that its 32 bits do not hold (R6, R18). See
log 11. -/
opaque Config.occurrencesPast : Nat → Word

/-- The hash functions a unit may be built with instead of the default ones, numbered; brought into range where they
are used (R81: "a model may take HashF as a parameter"). See log 6. -/
opaque Config.otherHash : Nat → Word → Nat

end Sys2Proof
end

