-- ==== Sys2Proof/Machine/Sizes.lean ====
section
/-! DEFINITION. The sizes that follow from the configuration and the constants of R5. -/

namespace Sys2Proof.Machine

/-- BLOCK_BITS (R5). -/
def blockBits (g : Geometry) : Nat :=
  match g with
  | .bits18 => 18
  | .bits22 => 22

/-- BLOCK_SIZE = 2^BLOCK_BITS (R5). -/
def blockSize (g : Geometry) : Nat := 2 ^ blockBits g

/-- OUTPUT_SIZE = BLOCK_SIZE + BLOCK_SIZE/4 (R5), the number of bytes of IN and of OUT (R30). -/
def outputSize (g : Geometry) : Nat := blockSize g + blockSize g / 4

/-- HASH_SZ = 2^(BLOCK_BITS-1), buckets of FastRef (R5, R17). -/
def hashSz (g : Geometry) : Nat := 2 ^ (blockBits g - 1)

/-- HASH_PLUS_SZ = 2^BLOCK_BITS, buckets of MultiRef (R5, R18). -/
def hashPlusSz (g : Geometry) : Nat := 2 ^ blockBits g

/-- BUCKET_WIDTH, entries per bucket (R5). -/
def bucketWidth : Nat := 4

/-- MAX_LIT, the greatest literal run (R5). -/
def maxLit : Nat := 16

/-- MIN_MATCH (R5). -/
def minMatch : Nat := 4

/-- MAX_MATCH without extensions (R5). -/
def maxMatch : Nat := 16

/-- The greatest match with extensions (R5, R85). -/
def maxMatchExt : Nat := 64

/-- MAX_OFFSET, the greatest emitted offset (R5, R109). -/
def maxOffset : Nat := 65531

/-- MULTI_MAX_DIST: a MultiRef candidate needs `anchor - pos < 65504` (R5, R93). -/
def multiMaxDist : Nat := 65504

/-- GROUP_SYMS, symbols per group (R5). -/
def groupSyms : Nat := 8

/-- GBUF_DEPTH, places of the encoder's group buffer (R5, R15). -/
abbrev gbufDepth : Nat := 9

/-- FAST_MARGIN (R5, R139). -/
def fastMargin : Nat := 256

/-- FAST_MIN (R5, R139). -/
def fastMin : Nat := 512

/-- L(level) = min(2^level, 2^10), positions per MultiRef symbol (R5, R80). -/
def slotWidth (level : BitVec 4) : Nat := min (2 ^ level.toNat) (2 ^ 10)

/-- The least POOL_ENTRIES with which ENCODE never exhausts the pool at a level (R5, D13, R117 (d)). -/
def leastPool (g : Geometry) (level : BitVec 4) : Nat := blockSize g / 2 * slotWidth level

end Sys2Proof.Machine
end

