-- ==== Sys2Proof/Syntax.lean ====
section
/-! DEFINITION. The instructions: one constructor for each of the 23 rows of spec/opcode_table.json, the formats they
are written in, the shape of an opcode-table row, and the payload listings of R61. -/

namespace Sys2Proof

/-- The `format` column of the opcode table: where a word of that form is fetched from. -/
inductive Format where
  /-- The 3-byte block header at payload index 0 (R46). -/
  | blkhdr
  /-- The 5-byte group header (R47). -/
  | group
  /-- The 6-bit symbol selector (R50). -/
  | sym
  /-- The 8-bit command code (R59). -/
  | cmd8
  deriving DecidableEq, Repr

/-- The instructions of TSQ-LZ, in the order of the opcode table. -/
inductive Instr where
  /-- Block header: announced uncompressed length (R46, R126). -/
  | blkhdr (size : BitVec 24)
  /-- Group header: control byte and four size bytes (R47, R127). -/
  | group (ctrl sz0 sz1 sz2 sz3 : Byte)
  /-- Literal of nib+1 bytes (R51, R130). -/
  | lit (nib : Nibble)
  /-- Back-reference of nib+1 bytes, EXT = 0 (R52, R131). -/
  | ref (nib : Nibble)
  /-- Back-reference of 32 bytes, EXT = 1, nibble 0 (R53, R132). -/
  | refx32
  /-- Back-reference of 48 bytes, EXT = 1, nibble 1 (R53, R133). -/
  | refx48
  /-- Back-reference of 64 bytes, EXT = 1, nibble 2 (R53, R134). -/
  | refx64
  /-- Back-reference of 4 bytes, EXT = 1, nibble 3 (R50, R131). -/
  | refExt4
  /-- Back-reference of 5..8 bytes, EXT = 1, nibble 4 + n (R50, R131). -/
  | refExt5to8 (n : BitVec 2)
  /-- Back-reference of 9..16 bytes, EXT = 1, nibble 8 + n (R50, R131). -/
  | refExt9to16 (n : BitVec 3)
  /-- R147. -/
  | nop
  /-- R148. -/
  | ctxReset
  /-- R105. -/
  | encode
  /-- R125. -/
  | decode
  /-- R65. -/
  | copy16
  /-- R66. -/
  | copy32
  /-- R67. -/
  | copy48
  /-- R68. -/
  | copy64
  /-- R69. -/
  | rd16le
  /-- R70. -/
  | wr16le
  /-- R83. -/
  | hash4
  /-- R86. -/
  | matchlen
  /-- R95. -/
  | probe
  deriving DecidableEq, Repr

/-- One row of the opcode table: its mnemonic, its format, and the fixed bits of its words. A word fits the row when
its bits under `mask` are those of `pattern`. -/
structure OpcodeRow where
  mnemonic : String
  format : Format
  pattern : Nat
  mask : Nat
  deriving DecidableEq, Repr

/-- Why a decoder answers no instruction. -/
inductive DecodeError where
  /-- The command code is reserved (R60). -/
  | reservedCommand (code : Byte)
  /-- A byte above 63 is no 6-bit selector (R50). -/
  | notASelector (b : Byte)
  /-- Fewer bytes than the format has. -/
  | cutShort (f : Format)
  deriving DecidableEq, Repr

/-- One line of a payload listing (R61). -/
inductive Sym where
  /-- `LIT`: its bytes. -/
  | lit (bytes : List Byte)
  /-- `REF off=.. len=..`. -/
  | ref (off len : Nat)
  /-- `REFX off=.. len=..`. -/
  | refx (off len : Nat)
  deriving DecidableEq, Repr

/-- A payload listing: `BLOCK size=.. ext=..`, its symbols, `END` (R61). -/
structure Listing where
  size : Nat
  ext : Bool
  syms : List Sym
  deriving DecidableEq, Repr

end Sys2Proof
end

