-- ==== Sys2Proof/WellFormed.lean ====
section
/-! DEFINITION. Which instructions, builds and listings are well-formed. -/

namespace Sys2Proof

/-- The one instruction with a bit pattern the spec calls illegal is the block header: "Legal values are
0 .. BLOCK_SIZE; ... all other bit patterns of the 24 bits are illegal" (R46). Every other field value is legal
(R47 "Every bit pattern is legal" of the table, R50 "there is no illegal symbol selector"). -/
def Instr.wf (g : Geometry) (i : Instr) : Bool :=
  match i with
  | .blkhdr size => decide (size.toNat ≤ Machine.blockSize g)
  | .group _ _ _ _ _ => true
  | .lit _ => true
  | .ref _ => true
  | .refx32 => true
  | .refx48 => true
  | .refx64 => true
  | .refExt4 => true
  | .refExt5to8 _ => true
  | .refExt9to16 _ => true
  | .nop => true
  | .ctxReset => true
  | .encode => true
  | .decode => true
  | .copy16 => true
  | .copy32 => true
  | .copy48 => true
  | .copy64 => true
  | .rd16le => true
  | .wr16le => true
  | .hash4 => true
  | .matchlen => true
  | .probe => true

/-- The number of output bytes of a listing's symbol (R61: "a LIT's `len` is its byte count"). -/
def Sym.len (s : Sym) : Nat :=
  match s with
  | .lit bs => bs.length
  | .ref _ n => n
  | .refx _ n => n

/-- A symbol the assembler of R61 accepts: a literal of 1..16 bytes; `off=<1..65535> len=<1..16>`, with `ext=1`
only `len >= 4`; `REFX` only with `ext=1` and a length of 32, 48 or 64. -/
def Sym.wf (ext : Bool) (s : Sym) : Bool :=
  match s with
  | .lit bs => decide (1 ≤ bs.length ∧ bs.length ≤ 16)
  | .ref off n => decide (1 ≤ off ∧ off ≤ 65535 ∧ 1 ≤ n ∧ n ≤ 16) && (!ext || decide (4 ≤ n))
  | .refx off n => ext && decide (1 ≤ off ∧ off ≤ 65535) && decide (n = 32 ∨ n = 48 ∨ n = 64)

/-- A listing the assembler accepts: every symbol is well-formed, the lengths sum to `size`, and the header can
announce it (R46, R61). -/
def Listing.wf (g : Geometry) (l : Listing) : Bool :=
  l.syms.all (Sym.wf l.ext) && decide ((l.syms.map Sym.len).sum = l.size) &&
    decide (l.size ≤ Machine.blockSize g)

end Sys2Proof
end

