-- ==== Sys2Proof/Decode.lean ====
section
/-! DEFINITION. The decoders of the four formats, total on any bytes and refusing by name; the encoder beside them;
the opcode table as data. -/

namespace Sys2Proof

open Machine

/-- The selector of a control bit and a nibble under an extensions flag: `SEL = EXT || c || nib` (R50). -/
def selOf (ext c : Bool) (nib : Nibble) : Sel := (BitVec.ofBool ext ++ BitVec.ofBool c : BitVec 2) ++ nib

/-- The instruction of a selector, by the map of R50: total. -/
def decodeSym (sel : Sel) : Instr :=
  let ext := sel.getLsbD 5
  let c := sel.getLsbD 4
  let nib : Nibble := sel.extractLsb' 0 4
  if c then .lit nib
  else if !ext then .ref nib
  else if nib = 0#4 then .refx32
  else if nib = 1#4 then .refx48
  else if nib = 2#4 then .refx64
  else if nib = 3#4 then .refExt4
  else if nib.toNat < 8 then .refExt5to8 (nib.extractLsb' 0 2)
  else .refExt9to16 (nib.extractLsb' 0 3)

/-- The instruction of a command code, "matched on all 8 bits" (R59, R146); the others are reserved (R60). -/
def decodeCmd (code : Byte) : Except DecodeError Instr :=
  if code = 0x00#8 then .ok .nop
  else if code = 0x01#8 then .ok .ctxReset
  else if code = 0x02#8 then .ok .encode
  else if code = 0x03#8 then .ok .decode
  else if code = 0x10#8 then .ok .copy16
  else if code = 0x11#8 then .ok .copy32
  else if code = 0x12#8 then .ok .copy48
  else if code = 0x13#8 then .ok .copy64
  else if code = 0x18#8 then .ok .rd16le
  else if code = 0x19#8 then .ok .wr16le
  else if code = 0x20#8 then .ok .hash4
  else if code = 0x21#8 then .ok .matchlen
  else if code = 0x22#8 then .ok .probe
  else .error (.reservedCommand code)

/-- The instruction at the head of some bytes in a format, and the bytes after it. A SYM word stands in the low six
bits of one byte. -/
def decode (f : Format) (bytes : List Byte) : Except DecodeError (Instr × List Byte) :=
  match f, bytes with
  | .blkhdr, b0 :: b1 :: b2 :: rest => .ok (.blkhdr (le24 b0 b1 b2), rest)
  | .blkhdr, _ => .error (.cutShort .blkhdr)
  | .group, c :: s0 :: s1 :: s2 :: s3 :: rest => .ok (.group c s0 s1 s2 s3, rest)
  | .group, _ => .error (.cutShort .group)
  | .sym, b :: rest =>
    if b.toNat < 64 then .ok (decodeSym (b.setWidth 6), rest) else .error (.notASelector b)
  | .sym, [] => .error (.cutShort .sym)
  | .cmd8, b :: rest =>
    match decodeCmd b with
    | .ok i => .ok (i, rest)
    | .error e => .error e
  | .cmd8, [] => .error (.cutShort .cmd8)

/-- The selector of a symbol instruction, `x` of LIT written 0; `none` for the others (R50). -/
def symSel (i : Instr) : Option Sel :=
  match i with
  | .lit nib => some (selOf false true nib)
  | .ref nib => some (selOf false false nib)
  | .refx32 => some 0b100000#6
  | .refx48 => some 0b100001#6
  | .refx64 => some 0b100010#6
  | .refExt4 => some 0b100011#6
  | .refExt5to8 n => some (0b1001#4 ++ n)
  | .refExt9to16 n => some (0b101#3 ++ n)
  | .blkhdr _ | .group _ _ _ _ _ | .nop | .ctxReset | .encode | .decode | .copy16 | .copy32 | .copy48 | .copy64
  | .rd16le | .wr16le | .hash4 | .matchlen | .probe => none

/-- The encoder: the format of an instruction and its bytes in it, lowest index first (R46, R47, R50, R59). -/
def encode (i : Instr) : Format × List Byte :=
  match i with
  | .blkhdr size => (.blkhdr, putLE24 size.toNat)
  | .group c s0 s1 s2 s3 => (.group, [c, s0, s1, s2, s3])
  | .lit nib => (.sym, [(selOf false true nib).setWidth 8])
  | .ref nib => (.sym, [(selOf false false nib).setWidth 8])
  | .refx32 => (.sym, [0x20#8])
  | .refx48 => (.sym, [0x21#8])
  | .refx64 => (.sym, [0x22#8])
  | .refExt4 => (.sym, [0x23#8])
  | .refExt5to8 n => (.sym, [(0b1001#4 ++ n : BitVec 6).setWidth 8])
  | .refExt9to16 n => (.sym, [(0b101#3 ++ n : BitVec 6).setWidth 8])
  | .nop => (.cmd8, [0x00#8])
  | .ctxReset => (.cmd8, [0x01#8])
  | .encode => (.cmd8, [0x02#8])
  | .decode => (.cmd8, [0x03#8])
  | .copy16 => (.cmd8, [0x10#8])
  | .copy32 => (.cmd8, [0x11#8])
  | .copy48 => (.cmd8, [0x12#8])
  | .copy64 => (.cmd8, [0x13#8])
  | .rd16le => (.cmd8, [0x18#8])
  | .wr16le => (.cmd8, [0x19#8])
  | .hash4 => (.cmd8, [0x20#8])
  | .matchlen => (.cmd8, [0x21#8])
  | .probe => (.cmd8, [0x22#8])

/-- The opcode table, row by row. BLKHDR and GROUP have no fixed bit. -/
def opcodeRows : List OpcodeRow :=
  [⟨"BLKHDR", .blkhdr, 0, 0⟩, ⟨"GROUP", .group, 0, 0⟩,
   ⟨"LIT", .sym, 0x10, 0x10⟩, ⟨"REF", .sym, 0x00, 0x30⟩,
   ⟨"REFX32", .sym, 0x20, 0x3F⟩, ⟨"REFX48", .sym, 0x21, 0x3F⟩, ⟨"REFX64", .sym, 0x22, 0x3F⟩,
   ⟨"REF", .sym, 0x23, 0x3F⟩, ⟨"REF", .sym, 0x24, 0x3C⟩, ⟨"REF", .sym, 0x28, 0x38⟩] ++
  [⟨"NOP", .cmd8, 0x00, 0xFF⟩, ⟨"CTX_RESET", .cmd8, 0x01, 0xFF⟩, ⟨"ENCODE", .cmd8, 0x02, 0xFF⟩,
   ⟨"DECODE", .cmd8, 0x03, 0xFF⟩, ⟨"COPY16", .cmd8, 0x10, 0xFF⟩, ⟨"COPY32", .cmd8, 0x11, 0xFF⟩,
   ⟨"COPY48", .cmd8, 0x12, 0xFF⟩, ⟨"COPY64", .cmd8, 0x13, 0xFF⟩, ⟨"RD16LE", .cmd8, 0x18, 0xFF⟩,
   ⟨"WR16LE", .cmd8, 0x19, 0xFF⟩, ⟨"HASH4", .cmd8, 0x20, 0xFF⟩, ⟨"MATCHLEN", .cmd8, 0x21, 0xFF⟩,
   ⟨"PROBE", .cmd8, 0x22, 0xFF⟩]

/-- Whether a word of a format fits a row. -/
def OpcodeRow.fits (r : OpcodeRow) (f : Format) (w : Nat) : Bool := decide (r.format = f) && (w &&& r.mask == r.pattern)

/-- The place of an instruction's row in `opcodeRows`. -/
def rowIndex (i : Instr) : Nat :=
  match i with
  | .blkhdr _ => 0
  | .group _ _ _ _ _ => 1
  | .lit _ => 2
  | .ref _ => 3
  | .refx32 => 4
  | .refx48 => 5
  | .refx64 => 6
  | .refExt4 => 7
  | .refExt5to8 _ => 8
  | .refExt9to16 _ => 9
  | .nop => 10
  | .ctxReset => 11
  | .encode => 12
  | .decode => 13
  | .copy16 => 14
  | .copy32 => 15
  | .copy48 => 16
  | .copy64 => 17
  | .rd16le => 18
  | .wr16le => 19
  | .hash4 => 20
  | .matchlen => 21
  | .probe => 22

/-- The bytes of a table word: byte 0 is its least significant byte. -/
def tableBytes (n w : Nat) : List Byte := (List.range n).map (byteOf w)

/-- What a decoder answers, without the rest and without the reason. -/
def decoded (r : Except DecodeError (Instr × List Byte)) : Option Instr :=
  match r with
  | .ok (i, _) => some i
  | .error _ => none

/-- The instruction of an opcode-table word. 24 bits are a block header, 40 bits a group header. One byte may be a
command code or a symbol selector: the table gives both one byte, and the machine tells them apart by where it fetches
them; here a byte that is a command code is that command, and only another byte below 64 is a selector. See log 3. -/
def decodeTableWord (nbits w : Nat) : Option Instr :=
  if nbits = 24 then decoded (decode .blkhdr (tableBytes 3 w))
  else if nbits = 40 then decoded (decode .group (tableBytes 5 w))
  else if nbits = 6 then decoded (decode .sym (tableBytes 1 w))
  else if nbits = 8 then
    match decoded (decode .cmd8 (tableBytes 1 w)) with
    | some i => some i
    | none => decoded (decode .sym (tableBytes 1 w))
  else none

end Sys2Proof
end

