-- ==== Sys2Proof/Machine/State.lean ====
section
/-! DEFINITION. The state of the unit as plain data, the reasons a step can stop, and the state after power-on reset. -/

namespace Sys2Proof.Machine

/-- Where the unit stands, that is what its next step fetches (R145, R125, R190; logs 1 and 2). -/
inductive Phase where
  /-- No command has been issued since the last one ended: "nothing is fetched until the host writes CMD" (R180). -/
  | idle
  /-- The host has written CMD; the next step runs the command (R145). -/
  | issued
  /-- Inside DECODE, before the block header (R126). -/
  | header
  /-- Inside DECODE, before a group header (R127). -/
  | group
  /-- Inside DECODE, before symbol `dec.k` of the group (R129). -/
  | symbol
  deriving DecidableEq, Repr

/-- The status codes of R160; their numbers are in Flags.lean. -/
inductive StatusCode where
  | ok
  | errCmd
  | errSize
  | errInsize
  | errUnderrun
  | errOffset
  | errOverlap
  | errOverrun
  | errNotReset
  | errArg
  deriving DecidableEq, Repr

/-- The host-visible registers of R10. -/
structure HostRegs where
  cmd : BitVec 8
  status : BitVec 8
  ext : BitVec 1
  level : BitVec 4
  inSize : Word
  outSize : Word
  arg0 : Word
  arg1 : Word
  arg2 : Word
  arg3 : Word
  res0 : Word
  res1 : Word
  deriving DecidableEq, Repr

/-- The decoder registers of R13, and the index `k = 2*p + hh` of the symbol of R125. -/
structure DecRegs where
  /-- `d_i`, the program counter of the symbol stream (R12). -/
  i : Word
  /-- `d_j`, the write cursor into OUT. -/
  j : Word
  /-- `d_anchor`, the anchor of the current pair (R128). -/
  anchor : Word
  /-- `d_size`, the announced length. -/
  size : BitVec 24
  /-- `d_ctrl`, the control byte of the current group. -/
  ctrl : Byte
  /-- `d_sz[0..3]`, its size bytes. -/
  sz : Vector Byte 4
  /-- `d_fast_end`, the bound of the fast loop (R139; log 15). -/
  fastEnd : Word
  /-- The index of the next symbol in its group. -/
  k : Fin 8
  deriving DecidableEq, Repr

/-- A symbol descriptor of the group buffer: one bit, an 8-bit length, two 32-bit positions (R15, C7). -/
structure Desc where
  literal : Bool
  length : Byte
  srcPos : Word
  anchor : Word
  deriving DecidableEq, Repr

/-- The encoder registers of R14 and the group buffer of R15. -/
structure EncRegs where
  /-- `e_i`, the scan cursor. -/
  i : Word
  /-- `e_lit`, the index of the first byte of the pending literal run. -/
  lit : Word
  /-- `e_n`, the number of symbols emitted. -/
  n : Word
  /-- `e_pa`, the pair anchor. -/
  pa : Word
  /-- `e_o`, the output cursor. -/
  o : Word
  /-- `GBUF[0..8]`, the places at and above `g_n` included. -/
  gbuf : Vector Desc gbufDepth
  /-- `g_n`, the fill count, 0..9. -/
  gn : Fin (gbufDepth + 1)
  deriving DecidableEq, Repr

/-- One entry of a FastRef bucket: `F_SYM`, `F_POS`, 32 bits each (R17). -/
structure FastEntry where
  sym : Word
  pos : Word
  deriving DecidableEq, Repr

/-- One FastRef bucket: `F_COUNT`, one byte, and its four entries (R17). -/
structure FastBucket where
  count : Byte
  entry : Vector FastEntry 4
  deriving DecidableEq, Repr

/-- One entry of a MultiRef bucket: `M_SYM`, `M_POS`, `M_OCC`, 32 bits each (R18). -/
structure MultiEntry where
  sym : Word
  pos : Word
  occ : Word
  deriving DecidableEq, Repr

/-- One MultiRef bucket: `M_COUNT`, one byte, and its four entries (R18). -/
structure MultiBucket where
  count : Byte
  entry : Vector MultiEntry 4
  deriving DecidableEq, Repr

/-- A FastRef bucket as power-on leaves it: count 0 (R24), entries that nothing has written (log 10). -/
def FastBucket.fresh : FastBucket := ⟨0#8, Vector.replicate 4 ⟨0#32, 0#32⟩⟩

/-- A MultiRef bucket as power-on leaves it: count 0 (R24), entries that nothing has written (log 10). -/
def MultiBucket.fresh : MultiBucket := ⟨0#8, Vector.replicate 4 ⟨0#32, 0#32, 0#32⟩⟩

/-- The context: the match-index arrays and what goes with them (R17 to R20). The arrays list, keys rising, the
buckets that are not as power-on left them and the pool words that are not 0, which are 32 bits wide and lie below
POOL_ENTRIES (R19). -/
structure Ctx where
  fast : List (Nat × FastBucket)
  multi : List (Nat × MultiBucket)
  pool : List (Nat × Word)
  /-- `POOL_CUR` (R19). -/
  poolCur : Word
  /-- `CTX_LEVEL` (R20). -/
  level : BitVec 4
  /-- `DIRTY` (R20). -/
  dirty : Bool
  deriving DecidableEq, Repr

/-- A memory: the bytes that hold a specified value, addresses rising (R21, R30). -/
abbrev Memory := List Host.Cell

/-- The whole state of a unit. -/
structure State where
  /-- The unit's parameters; no command writes them (R23; log 5). -/
  build : Build
  phase : Phase
  regs : HostRegs
  dec : DecRegs
  enc : EncRegs
  ctx : Ctx
  /-- IN. -/
  inMem : Memory
  /-- OUT. -/
  outMem : Memory
  /-- How often the unspecified bytes of OUT have been drawn anew (R42; log 8). -/
  outDraw : Nat
  deriving DecidableEq, Repr

/-- Why a step can stop. Every rejection of the spec is a NEXT state (R164); none of these is one. -/
inductive Fault where
  /-- Raised by the decoder's reads of IN at an index at or beyond OUTPUT_SIZE, where R30 gives no byte. Safe: from a
  state that commands reach, IN_SIZE bounds every read (R37). Log 14. -/
  | inOutside
  /-- Raised by a read or write of OUT at an index at or beyond OUTPUT_SIZE, where R30 gives no byte. Safe: from a
  state that commands reach, R117 (c) and the tests of R130, R131 bound every access. Log 14. -/
  | outOutside
  /-- Raised by FlushGroup when a descriptor lies outside the domain of NibbleOf ("require", R54). Safe: ENCODE
  emits no such descriptor (R116). Log 14. -/
  | badDescriptor
  deriving DecidableEq, Repr

/-- Why an instruction can be refused. Every instruction of this unit has a meaning, so no step answers this. -/
inductive Refusal where
  /-- Raised by a dispatch arm without a meaning; there is none. Safe. -/
  | notModelled (mnemonic : String)
  deriving DecidableEq, Repr

/-- The build of the unit after reset: the geometry the spec's vectors use (D1), the least pool for every level
(R5, D13), the default hash functions (R81, R82). Log 5. -/
def Build.standard : Build := ⟨.bits18, word (leastPool .bits18 15#4), .fold, .fold⟩

/-- Power-on reset (R24, R180). Registers the spec gives no reset value hold 0 (log 9). -/
def State.reset : State where
  build := Build.standard
  phase := .idle
  regs := ⟨0#8, 0#8, 0#1, 0#4, 0#32, 0#32, 0#32, 0#32, 0#32, 0#32, 0#32, 0#32⟩
  dec := ⟨0#32, 0#32, 0#32, 0#24, 0#8, #v[0#8, 0#8, 0#8, 0#8], 0#32, 0⟩
  enc := ⟨0#32, 0#32, 0#32, 0#32, 0#32, Vector.replicate gbufDepth ⟨false, 0#8, 0#32, 0#32⟩, 0⟩
  ctx := ⟨[], [], [], 0#32, 0#4, false⟩
  inMem := []
  outMem := []
  outDraw := 0

end Sys2Proof.Machine
end

