-- ==== Sys2Proof/Machine/Flags.lean ====
section
/-! DEFINITION. The flag-like state: the STATUS codes and EXT (R16, R160). The unit has no condition codes, no carry
and no predicate registers (R16). -/

namespace Sys2Proof.Machine

/-- The number of a status code (R160). -/
def statusByte (c : StatusCode) : BitVec 8 :=
  match c with
  | .ok => 0#8
  | .errCmd => 1#8
  | .errSize => 2#8
  | .errInsize => 3#8
  | .errUnderrun => 4#8
  | .errOffset => 5#8
  | .errOverlap => 6#8
  | .errOverrun => 7#8
  | .errNotReset => 8#8
  | .errArg => 9#8

/-- The extensions flag as a truth value: "1 = set" (R10). -/
def State.extOn (s : State) : Bool := s.regs.ext == 1#1

/-- IN_SIZE as a number. -/
def State.inSize (s : State) : Nat := s.regs.inSize.toNat

/-- OUTPUT_SIZE of the unit (R5). -/
def State.outputSize (s : State) : Nat := Machine.outputSize s.build.geometry

/-- BLOCK_SIZE of the unit (R5). -/
def State.blockSize (s : State) : Nat := Machine.blockSize s.build.geometry

end Sys2Proof.Machine
end

