-- ==== Sys2Proof/Machine/Operands.lean ====
section
/-! DEFINITION. Operand forms: the two length functions (R54), the packing of eight symbols behind one header and its
inverse (R71, R72), and the selector of a symbol (R50). -/

namespace Sys2Proof.Machine

/-- LenOf: the length of a symbol, total (R54). -/
def lenOf (c : Bool) (nib : Nibble) (ext : Bool) : Nat :=
  if c = false ∧ ext = true ∧ nib.toNat ≤ 2 then 32 + 16 * nib.toNat else nib.toNat + 1

/-- NibbleOf: the nibble of a symbol, `none` outside its domain ("require", R54). -/
def nibbleOf (literal : Bool) (length : Nat) (ext : Bool) : Option Nibble :=
  if literal then
    if 1 ≤ length ∧ length ≤ 16 then some (BitVec.ofNat 4 (length - 1)) else none
  else if length = 32 ∨ length = 48 ∨ length = 64 then
    if ext then some (BitVec.ofNat 4 (length / 16 - 2)) else none
  else if 4 ≤ length ∧ length ≤ 16 then some (BitVec.ofNat 4 (length - 1))
  else none

/-- A descriptor in the domain of NibbleOf. -/
def Desc.packable (ext : Bool) (d : Desc) : Bool := (nibbleOf d.literal d.length.toNat ext).isSome

/-- The control bit and nibble of place `k`; a place beyond the last symbol is padding, bit 1 and nibble 0 (R56). -/
def slotOf (slots : List (Bool × Nibble)) (k : Nat) : Bool × Nibble := slots.getD k (true, 0#4)

/-- The control byte, one bit per symbol, most significant first (R48, R71). -/
def packCtrl (slots : List (Bool × Nibble)) : Byte :=
  (List.range 8).foldl (fun ctrl k => (ctrl <<< 1) ||| (if (slotOf slots k).1 then 1#8 else 0#8)) 0#8

/-- Size byte `p`: the even symbol of the pair in the high nibble (R49, R71). -/
def packSize (slots : List (Bool × Nibble)) (p : Nat) : Byte := (slotOf slots (2 * p)).2 ++ (slotOf slots (2 * p + 1)).2

/-- The five header bytes of a group of control bits and nibbles (R47, R71). -/
def packSlots (slots : List (Bool × Nibble)) : List Byte :=
  [packCtrl slots, packSize slots 0, packSize slots 1, packSize slots 2, packSize slots 3]

/-- The control bit and nibble of a descriptor; the nibble is NibbleOf's where that has a value. -/
def Desc.slot (ext : Bool) (d : Desc) : Bool × Nibble := (d.literal, (nibbleOf d.literal d.length.toNat ext).getD 0#4)

/-- PackHeader, for packable descriptors (R71). -/
def packHeader (ds : List Desc) (ext : Bool) : List Byte := packSlots (ds.map (Desc.slot ext))

/-- UnpackSymbol: control bit `ctrl[7-k]` and the nibble of symbol `k` (R48, R49, R72). -/
def unpackSymbol (ctrl : Byte) (sz : Vector Byte 4) (k : Fin 8) : Bool × Nibble :=
  let b := sz[k.val / 2]'(by omega)
  (ctrl.getLsbD (7 - k.val), if k.val % 2 = 0 then b.extractLsb' 4 4 else b.extractLsb' 0 4)

end Sys2Proof.Machine
end

