-- ==== Sys2Proof/Machine/Ops.lean ====
section
/-! DEFINITION. The shared operations: key lists, the memories IN and OUT, the index arrays, ending a command, and
taking a rejection (this unit's one exception mechanism, R164). -/

namespace Sys2Proof.Machine

/-! ### Lists of key and value, keys rising -/

/-- The canonical form of a key list: keys strictly rising. -/
abbrev keysRising {α : Type} (l : List (Nat × α)) : Prop := l.Pairwise (fun p q => p.1 < q.1)

/-- The value listed for a key. -/
def lookupKey {α : Type} (l : List (Nat × α)) (a : Nat) : Option α :=
  match l with
  | [] => none
  | (k, v) :: t => if a = k then some v else lookupKey t a

/-- List a value for a key, in place of the one listed before. -/
def insertKey {α : Type} (l : List (Nat × α)) (a : Nat) (v : α) : List (Nat × α) :=
  match l with
  | [] => [(a, v)]
  | (k, w) :: t =>
    if a < k then (a, v) :: (k, w) :: t
    else if a = k then (a, v) :: t
    else (k, w) :: insertKey t a v

/-- List nothing for a key. -/
def eraseKey {α : Type} (l : List (Nat × α)) (a : Nat) : List (Nat × α) := l.filter (fun p => p.1 != a)

/-- The value of a key where an unlisted key has the value `d`. -/
def getKey {α : Type} (d : α) (l : List (Nat × α)) (a : Nat) : α := (lookupKey l a).getD d

/-- Give a key a value where an unlisted key has the value `d`: the value `d` is not listed. -/
def setKey {α : Type} [DecidableEq α] (d : α) (l : List (Nat × α)) (a : Nat) (v : α) : List (Nat × α) :=
  if v = d then eraseKey l a else insertKey l a v

/-! ### IN and OUT (R21, R30 to R37)

An address that is not listed holds no specified value: `none` (log 7). A listed byte is never that, so the canonical
form is that addresses rise. Where an instruction reads an unlisted byte it gets a free value (R24, R42). -/

/-- The canonical form of a memory: addresses strictly rising (no entry is the `none` of an unlisted address). -/
abbrev Memory.wf (m : Memory) : Prop := keysRising m

/-- Every listed address lies below a bound. -/
abbrev Memory.below (m : Memory) (bound : Nat) : Prop := ∀ c ∈ m, c.1 < bound

/-- The stored byte of an address, if it holds a specified one. -/
def Memory.get? (m : Memory) (a : Nat) : Option Byte := lookupKey m a

/-- Store one byte. -/
def Memory.put (m : Memory) (a : Nat) (b : Byte) : Memory := insertKey m a b

/-- Store bytes at consecutive addresses, lowest first (MemWrite of 00_scope.md section 6). -/
def Memory.putRun (m : Memory) (a : Nat) (bs : List Byte) : Memory :=
  match bs with
  | [] => m
  | b :: t => Memory.putRun (Memory.put m a b) (a + 1) t

/-- What an instruction reads at an index of IN (R24: power-on content unspecified; log 7). -/
def inByte (m : Memory) (a : Nat) : Byte := (Memory.get? m a).getD (Config.powerOnIn a)

/-- What an instruction reads at an index of OUT (R24, R42; logs 7 and 8). -/
def outByte (draw : Nat) (m : Memory) (a : Nat) : Byte := (Memory.get? m a).getD (Config.unspecifiedOut draw a)

/-- IN[a]. -/
def State.inAt (s : State) (a : Nat) : Byte := inByte s.inMem a

/-- OUT[a]. -/
def State.outAt (s : State) (a : Nat) : Byte := outByte s.outDraw s.outMem a

/-- MemRead(IN, a, n) (00_scope.md section 6). -/
def State.inRun (s : State) (a n : Nat) : List Byte := (List.range n).map (fun k => s.inAt (a + k))

/-- MemRead(OUT, a, n). -/
def State.outRun (s : State) (a n : Nat) : List Byte := (List.range n).map (fun k => s.outAt (a + k))

/-- MemWrite(OUT, a, n, bytes). -/
def State.putOut (s : State) (a : Nat) (bs : List Byte) : State := { s with outMem := Memory.putRun s.outMem a bs }

/-- MemRead(IN, a, n), `none` where it would leave the memory (R30). -/
def State.readIn? (s : State) (a n : Nat) : Option (List Byte) :=
  if a + n ≤ s.outputSize then some (s.inRun a n) else none

/-- MemRead(OUT, a, n), `none` where it would leave the memory (R30). -/
def State.readOut? (s : State) (a n : Nat) : Option (List Byte) :=
  if a + n ≤ s.outputSize then some (s.outRun a n) else none

/-- MemWrite(OUT, a, n, bytes), `none` where it would leave the memory (R30). -/
def State.writeOut? (s : State) (a : Nat) (bs : List Byte) : Option State :=
  if a + bs.length ≤ s.outputSize then some (s.putOut a bs) else none

/-- The bytes of OUT from index `n` on become unspecified: they are no longer listed, and a new draw gives what they
read as (R42, D20; log 8). -/
def State.loseOut (s : State) (n : Nat) : State :=
  { s with outMem := s.outMem.filter (fun c => decide (c.1 < n)), outDraw := s.outDraw + 1 }

/-! ### The index arrays (R17 to R19) -/

/-- Bucket `h` of FastRef. -/
def fastAt (c : Ctx) (h : Nat) : FastBucket := getKey FastBucket.fresh c.fast h

/-- Write bucket `h` of FastRef. -/
def setFast (c : Ctx) (h : Nat) (b : FastBucket) : Ctx := { c with fast := setKey FastBucket.fresh c.fast h b }

/-- Bucket `h` of MultiRef. -/
def multiAt (c : Ctx) (h : Nat) : MultiBucket := getKey MultiBucket.fresh c.multi h

/-- Write bucket `h` of MultiRef. -/
def setMulti (c : Ctx) (h : Nat) (b : MultiBucket) : Ctx := { c with multi := setKey MultiBucket.fresh c.multi h b }

/-- POOL[k]; at or beyond POOL_ENTRIES there is no word, and a free value stands for it (R19; log 25). -/
def poolAt (b : Build) (c : Ctx) (k : Nat) : Word :=
  if k < b.poolEntries.toNat then getKey 0#32 c.pool k else Config.noPoolWord k

/-- POOL[k] <- v; at or beyond POOL_ENTRIES there is no word to write (R19; log 25). -/
def setPool (b : Build) (c : Ctx) (k : Nat) (v : Word) : Ctx :=
  if k < b.poolEntries.toNat then { c with pool := setKey 0#32 c.pool k v } else c

/-! ### Registers -/

/-- RES0 <- v. -/
def State.setRes0 (s : State) (v : Nat) : State := { s with regs := { s.regs with res0 := BitVec.ofNat 32 v } }

/-- RES1 <- v. -/
def State.setRes1 (s : State) (v : Nat) : State := { s with regs := { s.regs with res1 := BitVec.ofNat 32 v } }

/-- OUT_SIZE <- v. -/
def State.setOutSize (s : State) (v : Nat) : State := { s with regs := { s.regs with outSize := BitVec.ofNat 32 v } }

/-- Replace the decoder registers. -/
def State.withDec (s : State) (d : DecRegs) : State := { s with dec := d }

/-- Replace the encoder registers. -/
def State.withEnc (s : State) (e : EncRegs) : State := { s with enc := e }

/-- Replace the context. -/
def State.withCtx (s : State) (c : Ctx) : State := { s with ctx := c }

/-- Stand at a place of DECODE. -/
def State.withPhase (s : State) (p : Phase) : State := { s with phase := p }

/-! ### Ending a command; the rejection -/

/-- The command ends with a status: STATUS is written, and nothing is fetched until the host writes CMD again
(R145, R180). -/
def State.endWith (s : State) (c : StatusCode) : State :=
  { s with regs := { s.regs with status := statusByte c }, phase := .idle }

/-- `STATUS <- OK`: the command ends normally. -/
def State.complete (s : State) : State := s.endWith .ok

/-- `raise Reject(code)`: "STATUS <- code ; OUT_SIZE <- 0; control returns to the host. Nothing else is saved or
changed by the rejection itself" (R164). There is no return from it (R166): the next command overwrites STATUS. -/
def State.reject (s : State) (c : StatusCode) : State := (s.setOutSize 0).endWith c

/-- A rejection of DECODE in mid-stream: all of OUT becomes unspecified (R165, R42; log 19). -/
def State.rejectStream (s : State) (c : StatusCode) : State := (s.loseOut 0).reject c

/-! ### Sequencing steps of one command -/

/-- Go on from a next state; a stop stays a stop. -/
def andThen (o : Host.Outcome State Fault Refusal) (f : State → Host.Outcome State Fault Refusal) :
    Host.Outcome State Fault Refusal :=
  match o with
  | .next s => f s
  | .fault r => .fault r
  | .refused r => .refused r

end Sys2Proof.Machine
end

