-- ==== Sys2Proof/Machine/MatchIndex.lean ====
section
/-! DEFINITION. The match index: hash, match length, probe-or-insert, index reset, and the commands HASH4, MATCHLEN,
PROBE (R80 to R96). -/

namespace Sys2Proof.Machine

/-! ### The hash (R81, R82) -/

/-- The fold of R81: the top `b` bits of the symbol XORed onto its bottom `b` bits. -/
def foldHash (b : Nat) (v : Word) : Nat := (v.toNat >>> (32 - b)) ^^^ (v.toNat &&& (2 ^ b - 1))

/-- A hash function of a table of `2^b` buckets: the default fold, or another function brought into its range
(R81, R82, D5, D6; log 6). -/
def hashOf (h : HashChoice) (b : Nat) (v : Word) : Nat :=
  match h with
  | .fold => foldHash b v
  | .other n => Config.otherHash n v % 2 ^ b

/-- HashF, in [0, HASH_SZ) (R81). -/
def hashF (b : Build) (v : Word) : Nat := hashOf b.hashF (blockBits b.geometry - 1) v

/-- HashM, in [0, HASH_PLUS_SZ) (R82). -/
def hashM (b : Build) (v : Word) : Nat := hashOf b.hashM (blockBits b.geometry) v

/-! ### Match length (R84, R85) -/

/-- `cpl(IN, p, q, cap)`: the common prefix length (00_scope.md section 6). -/
def commonPrefix (m : Memory) (p q cap : Nat) : Nat :=
  match cap with
  | 0 => 0
  | n + 1 => if inByte m p = inByte m q then commonPrefix m (p + 1) (q + 1) n + 1 else 0

/-- A raw run rounded down to a length that has an encoding (R85). -/
def encodableLength (n : Nat) : Nat :=
  if 64 ≤ n then 64 else if 48 ≤ n then 48 else if 32 ≤ n then 32 else min n 16

/-- MatchLen (R84 for `ext = false`, R85 for `ext = true`). -/
def matchLen (m : Memory) (first second anchor size : Nat) (ext : Bool) : Nat :=
  if first < second ∧ first < anchor ∧ anchor ≤ second ∧ second < size then
    let cap := min (min (if ext then maxMatchExt else maxMatch) (anchor - first))
      (min (size - second) (second - first))
    let n := commonPrefix m first second cap
    let q := if ext then encodableLength n else n
    if minMatch ≤ q then q else 0
  else 0

/-! ### Probe-or-insert (R87 to R94) -/

/-- What a probe returns: `none`, or `some (length, position)`. -/
abbrev ProbeResult := Option (Nat × Nat)

/-- The first live FastRef entry of a bucket that holds a symbol, in ascending order (R88). -/
def findFast (b : FastBucket) (sym : Word) : Option (Fin 4) :=
  [0, 1, 2, 3].find? (fun e : Fin 4 => decide (e.val < b.count.toNat) && (b.entry[e]).sym == sym)

/-- ProbeFast: scan, hit, miss (R88, R89, R90). -/
def probeFast (bld : Build) (m : Memory) (c : Ctx) (sym : Word) (i anchor size : Nat) (ext : Bool) :
    ProbeResult × Ctx :=
  let h := hashF bld sym
  let b := fastAt c h
  match findFast b sym with
  | some e =>
    let prev := (b.entry[e]).pos.toNat
    let ml := matchLen m prev i anchor size ext
    if minMatch ≤ ml then
      (some (ml, prev), setFast c h { b with entry := b.entry.set e.val ⟨(b.entry[e]).sym, word i⟩ })
    else (none, c)
  | none =>
    if hc : b.count.toNat < 4 then
      (none, setFast c h { count := b.count + 1#8, entry := b.entry.set b.count.toNat ⟨sym, word i⟩ })
    else (none, c)

/-- The first live MultiRef entry of a bucket that holds a symbol, in ascending order (R91). -/
def findMulti (b : MultiBucket) (sym : Word) : Option (Fin 4) :=
  [0, 1, 2, 3].find? (fun e : Fin 4 => decide (e.val < b.count.toNat) && (b.entry[e]).sym == sym)

/-- One candidate of R93 against the best so far: the greater length wins, then the later position. -/
def betterOf (best : ProbeResult) (ml cand : Nat) : ProbeResult :=
  match best with
  | none => some (ml, cand)
  | some (bl, bc) => if bl < ml ∨ (ml = bl ∧ bc < cand) then some (ml, cand) else best

/-- The eligible candidate of R93: length at least 4, and nearer to the anchor than 65 504. -/
def considerCandidate (m : Memory) (i anchor size : Nat) (ext : Bool) (best : ProbeResult) (cand : Nat) : ProbeResult :=
  let ml := matchLen m cand i anchor size ext
  if minMatch ≤ ml ∧ anchor - cand < multiMaxDist then betterOf best ml cand else best

/-- The best of the positions in slot words `0 .. cnt-1` from `base` (R93). -/
def bestCandidate (bld : Build) (m : Memory) (c : Ctx) (base cnt i anchor size : Nat) (ext : Bool) : ProbeResult :=
  (List.range cnt).foldl (fun best k => considerCandidate m i anchor size ext best (poolAt bld c (base + k)).toNat)
    none

/-- A hit on a MultiRef symbol seen once (R92). `h` and `e` name the entry. -/
def probeMultiOnce (bld : Build) (m : Memory) (c : Ctx) (h : Nat) (e : Fin 4) (i anchor size : Nat) (ext : Bool) :
    ProbeResult × Ctx :=
  let b := multiAt c h
  let orig := (b.entry[e]).pos
  let ml := matchLen m orig.toNat i anchor size ext
  let width := slotWidth c.level
  if ml < minMatch then (none, c)
  else if bld.poolEntries.toNat < c.poolCur.toNat + width then (none, c)
  else
    let base := c.poolCur
    let c1 := setPool bld (setPool bld { c with poolCur := word (base.toNat + width) } base.toNat orig) (base.toNat + 1)
      (word i)
    (some (ml, orig.toNat), setMulti c1 h { b with entry := b.entry.set e.val ⟨(b.entry[e]).sym, base, 2#32⟩ })

/-- What `M_OCC` holds after one more occurrence: its own value plus 1, and a free value where 32 bits do not hold
that (R6, R18, R93; log 11). -/
def oneMore (occ : Word) : Word :=
  if occ.toNat + 1 < 2 ^ 32 then word (occ.toNat + 1) else Config.occurrencesPast (occ.toNat + 1)

/-- A hit on a MultiRef symbol seen at least twice (R93). -/
def probeMultiAgain (bld : Build) (m : Memory) (c : Ctx) (h : Nat) (e : Fin 4) (i anchor size : Nat) (ext : Bool) :
    ProbeResult × Ctx :=
  let b := multiAt c h
  let base := (b.entry[e]).pos
  let occ := (b.entry[e]).occ
  let width := slotWidth c.level
  match bestCandidate bld m c base.toNat (min occ.toNat width) i anchor size ext with
  | none => (none, c)
  | some r =>
    let c1 := setPool bld c (base.toNat + occ.toNat % width) (word i)
    (some r, setMulti c1 h { b with entry := b.entry.set e.val ⟨(b.entry[e]).sym, base, oneMore occ⟩ })

/-- ProbeMulti: scan, the two kinds of hit, miss (R91 to R94). -/
def probeMulti (bld : Build) (m : Memory) (c : Ctx) (sym : Word) (i anchor size : Nat) (ext : Bool) :
    ProbeResult × Ctx :=
  let h := hashM bld sym
  let b := multiAt c h
  match findMulti b sym with
  | some e =>
    if (b.entry[e]).occ = 1#32 then probeMultiOnce bld m c h e i anchor size ext
    else probeMultiAgain bld m c h e i anchor size ext
  | none =>
    if hc : b.count.toNat < 4 then
      (none, setMulti c h { count := b.count + 1#8, entry := b.entry.set b.count.toNat ⟨sym, word i, 1#32⟩ })
    else (none, c)

/-- The symbol at a position: LE32(IN, i) (R87). -/
def symAt (m : Memory) (i : Nat) : Word := le32 (inByte m i) (inByte m (i + 1)) (inByte m (i + 2)) (inByte m (i + 3))

/-- Probe: DIRTY is set, then the index that CTX_LEVEL selects is probed (R80, R87). -/
def probeIndex (bld : Build) (m : Memory) (c : Ctx) (i anchor size : Nat) (ext : Bool) : ProbeResult × Ctx :=
  let c0 := { c with dirty := true }
  if size < i + 4 then (none, c0)
  else if c.level = 0#4 then probeFast bld m c0 (symAt m i) i anchor size ext
  else probeMulti bld m c0 (symAt m i) i anchor size ext

/-! ### Reset of the index (R96) -/

/-- Every F_COUNT <- 0; the entries keep what they hold. -/
def clearFast (l : List (Nat × FastBucket)) : List (Nat × FastBucket) :=
  l.filterMap (fun p => if ({ p.2 with count := 0#8 } : FastBucket) = FastBucket.fresh then none
    else some (p.1, { p.2 with count := 0#8 }))

/-- Every M_COUNT <- 0; the entries keep what they hold. -/
def clearMulti (l : List (Nat × MultiBucket)) : List (Nat × MultiBucket) :=
  l.filterMap (fun p => if ({ p.2 with count := 0#8 } : MultiBucket) = MultiBucket.fresh then none
    else some (p.1, { p.2 with count := 0#8 }))

/-- IndexReset (R96). -/
def indexReset (c : Ctx) : Ctx := { c with fast := clearFast c.fast, multi := clearMulti c.multi, poolCur := 0#32 }

/-! ### The commands -/

/-- HASH4: ARG0 = v, ARG1 = which; RES0 <- HashF(v) or HashM(v) (R83). -/
def execHash4 (s : State) : Host.Outcome State Fault Refusal :=
  let v := s.regs.arg0
  let which := s.regs.arg1.toNat
  if 1 < which then .next (s.reject .errArg)
  else .next (s.setRes0 (if which = 0 then hashF s.build v else hashM s.build v)).complete

/-- MATCHLEN: ARG0 = first, ARG1 = second, ARG2 = anchor, ARG3 = size; RES0 <- MatchLen (R86). -/
def execMatchlen (s : State) : Host.Outcome State Fault Refusal :=
  let size := s.regs.arg3.toNat
  if s.blockSize < size then .next (s.reject .errArg)
  else .next (s.setRes0 (matchLen s.inMem s.regs.arg0.toNat s.regs.arg1.toNat s.regs.arg2.toNat size s.extOn)).complete

/-- RES0 and RES1 of a probe's result: 0 and 0 for None (R95). -/
def State.setProbeResult (s : State) (r : ProbeResult) : State :=
  match r with
  | none => (s.setRes0 0).setRes1 0
  | some (len, pos) => (s.setRes0 len).setRes1 pos

/-- PROBE: ARG0 = i, ARG1 = anchor, ARG2 = size (R95). -/
def execProbe (s : State) : Host.Outcome State Fault Refusal :=
  let size := s.regs.arg2.toNat
  if s.blockSize < size then .next (s.reject .errArg)
  else
    let r := probeIndex s.build s.inMem s.ctx s.regs.arg0.toNat s.regs.arg1.toNat size s.extOn
    .next ((s.withCtx r.2).setProbeResult r.1).complete

end Sys2Proof.Machine
end

