-- ==== Sys2Proof/Machine/Commands.lean ====
section
/-! DEFINITION. The commands NOP and CTX_RESET (R147, R148). -/

namespace Sys2Proof.Machine

/-- NOP: `STATUS <- OK`, nothing else (R147). -/
def execNop (s : State) : Host.Outcome State Fault Refusal := .next s.complete

/-- CTX_RESET: IndexReset, `CTX_LEVEL <- LEVEL`, `DIRTY <- 0`, `STATUS <- OK` (R148). -/
def execCtxReset (s : State) : Host.Outcome State Fault Refusal :=
  .next (s.withCtx { indexReset s.ctx with level := s.regs.level, dirty := false }).complete

end Sys2Proof.Machine
end

