-- ==== Sys2Proof/Machine/Fetch.lean ====
section
/-! DEFINITION. Fetching: the block header, the group header and the symbol of the stream DECODE executes
(R126, R127, R129), and the command code. Step.lean and the decoder call these. -/

namespace Sys2Proof.Machine

/-- The three bytes of the block header, at payload index 0 (R46). -/
def headerBytes (s : State) : List Byte := s.inRun 0 3

/-- The five bytes of the group header at `d_i` (R47, R127). -/
def groupHeaderBytes (s : State) : List Byte := s.inRun s.dec.i.toNat 5

/-- Whether the group header is all inside the payload (R127). -/
def groupPresent (s : State) : Bool := decide (s.dec.i.toNat + 5 ≤ s.inSize)

/-- The selector of symbol `k` of the current group: EXT from its register, the control bit and the nibble from the
group header (R50, R129). -/
def currentSel (s : State) : Sel :=
  let u := unpackSymbol s.dec.ctrl s.dec.sz s.dec.k
  selOf s.extOn u.1 u.2

/-- The block header as an instruction. -/
def fetchHeader (s : State) : Option Instr := decoded (decode .blkhdr (headerBytes s))

/-- The group header as an instruction; `none` where the payload ends inside it (R127). -/
def fetchGroup (s : State) : Option Instr :=
  if groupPresent s then decoded (decode .group (groupHeaderBytes s)) else none

/-- The command in CMD; `none` for a reserved code (R146). -/
def fetchCommand (s : State) : Option Instr := decoded (decode .cmd8 [s.regs.cmd])

/-- The instruction the next step runs, if there is one. -/
def fetch (s : State) : Option Instr :=
  match s.phase with
  | .idle => none
  | .issued => fetchCommand s
  | .header => fetchHeader s
  | .group => fetchGroup s
  | .symbol => some (decodeSym (currentSel s))

/-- What the unit does when a step fetches no instruction: with no command issued it holds its state (R145, R175,
R180); a reserved command code is rejected (R149); a payload that ends inside a group header is an underrun (R127). -/
def noInstruction (s : State) : State :=
  match s.phase with
  | .issued => s.reject .errCmd
  | .group => s.rejectStream .errUnderrun
  | .idle | .header | .symbol => s

/-! ### Placing an instruction where the next step fetches it (used by `State.withFetchWord`; log 4) -/

/-- IN[0 ..) and IN_SIZE hold a payload. -/
def State.placePayload (s : State) (bytes : List Byte) : State :=
  { s with inMem := Memory.putRun s.inMem 0 bytes,
           regs := { s.regs with inSize := BitVec.ofNat 32 bytes.length } }

/-- The longest symbol payload, 16 literal bytes (R51), as zeros. -/
def zeroOperands : List Byte := List.replicate maxLit 0#8

/-- A block header at payload index 0, with DECODE standing before it. -/
def State.placeHeader (s : State) (size : BitVec 24) : State :=
  (s.placePayload (putLE24 size.toNat ++ List.replicate 5 0#8 ++ zeroOperands)).withPhase .header

/-- A group header at payload index 3 of a block of 64 bytes, with DECODE standing before it. -/
def State.placeGroup (s : State) (ctrl sz0 sz1 sz2 sz3 : Byte) : State :=
  ((s.placePayload (putLE24 64 ++ [ctrl, sz0, sz1, sz2, sz3] ++ zeroOperands)).withDec
    { s.dec with size := 64#24, i := 3#32, j := 0#32 }).withPhase .group

/-- A symbol as the first of a group of a block of 64 bytes, its group header fetched, with DECODE standing before
it: EXT, control bit and nibble are the selector's. -/
def State.placeSymbol (s : State) (sel : Sel) : State :=
  let slots : List (Bool × Nibble) := [(sel.getLsbD 4, sel.extractLsb' 0 4)]
  let s1 := s.placePayload (putLE24 64 ++ packSlots slots ++ zeroOperands)
  let s2 : State := { s1 with regs := { s1.regs with ext := BitVec.ofBool (sel.getLsbD 5) } }
  (s2.withDec { s.dec with size := 64#24, i := 8#32, j := 0#32, anchor := 0#32, k := 0, ctrl := packCtrl slots,
                           sz := #v[packSize slots 0, packSize slots 1, packSize slots 2, packSize slots 3] }).withPhase
    .symbol

/-- A command code in CMD, issued (R145). -/
def State.placeCommand (s : State) (code : Byte) : State :=
  { s with regs := { s.regs with cmd := code }, phase := .issued }

end Sys2Proof.Machine
end

