-- ==== Sys2Proof/Machine/Decoder.lean ====
section
/-! DEFINITION. The block decoder: the header, the group header, the symbols LIT, REF, REFX32, REFX48, REFX64, and the
command DECODE that executes the stream of them (R125 to R136). -/

namespace Sys2Proof.Machine

/-! ### Sequencing inside DECODE (R125, R128, R135, R136) -/

/-- Completion: `OUT_SIZE <- d_size ; STATUS <- OK`; OUT from `d_size` on is unspecified (R136, R42). -/
def decodeFinish (s : State) : State := ((s.loseOut s.dec.size.toNat).setOutSize s.dec.size.toNat).complete

/-- `d_j >= d_size`, the test of R135. -/
def decodedAll (s : State) : Bool := decide (s.dec.size.toNat ≤ s.dec.j.toNat)

/-- After a symbol: the end of the block, the next group, or the next symbol, whose pair's anchor is taken when it is
the even one (R125, R128, R135). -/
def afterSymbol (s : State) : State :=
  if decodedAll s then decodeFinish s
  else if s.dec.k = 7 then s.withPhase .group
  else
    let k := s.dec.k + 1
    (s.withDec { s.dec with k := k, anchor := if k.val % 2 = 0 then s.dec.j else s.dec.anchor }).withPhase .symbol

/-! ### The header and the group header -/

/-- The bound of the fast loop, `size > FAST_MIN ? size - FAST_MARGIN : 0`; nothing reads it (R139; log 15). -/
def fastEndOf (size : Nat) : Nat := if fastMin < size then size - fastMargin else 0

/-- BLKHDR: ReadHeader, then `d_i <- 3 ; d_j <- 0` and the first test of the group loop (R125, R126). -/
def execBlkhdr (size : BitVec 24) (s : State) : Host.Outcome State Fault Refusal :=
  let s1 := s.withDec { s.dec with size := size }
  if s.blockSize < size.toNat then .next (s1.reject .errSize)
  else
    let s2 := s1.withDec { s1.dec with i := 3#32, j := 0#32, fastEnd := word (fastEndOf size.toNat) }
    .next (if decodedAll s2 then decodeFinish s2 else s2.withPhase .group)

/-- GROUP: FetchGroup, then the anchor of the first pair (R127, R128). -/
def execGroup (ctrl sz0 sz1 sz2 sz3 : Byte) (s : State) : Host.Outcome State Fault Refusal :=
  if !groupPresent s then .next (s.rejectStream .errUnderrun)
  else if s.outputSize < s.dec.i.toNat + 5 then .fault .inOutside
  else
    .next ((s.withDec { s.dec with ctrl := ctrl, sz := #v[sz0, sz1, sz2, sz3], i := word (s.dec.i.toNat + 5), k := 0,
                                   anchor := s.dec.j }).withPhase .symbol)

/-! ### The symbols (R130 to R134, checks in the order of R137) -/

/-- A literal of `len` bytes (R130). -/
def literalRun (len : Nat) (s : State) : Host.Outcome State Fault Refusal :=
  if s.inSize < s.dec.i.toNat + len then .next (s.rejectStream .errUnderrun)
  else if s.dec.size.toNat < s.dec.j.toNat + len then .next (s.rejectStream .errOverrun)
  else
    match s.readIn? s.dec.i.toNat len with
    | none => .fault .inOutside
    | some bytes =>
      match s.writeOut? s.dec.j.toNat bytes with
      | none => .fault .outOutside
      | some t =>
        .next (afterSymbol (t.withDec { s.dec with i := word (s.dec.i.toNat + len), j := word (s.dec.j.toNat + len) }))

/-- A back-reference of `len` bytes (R131): the offset is `LE16(IN, d_i)`, measured back from the anchor. -/
def backReference (len : Nat) (s : State) : Host.Outcome State Fault Refusal :=
  if s.inSize < s.dec.i.toNat + 2 then .next (s.rejectStream .errUnderrun)
  else if s.outputSize < s.dec.i.toNat + 2 then .fault .inOutside
  else
    let off := le16 (s.inAt s.dec.i.toNat) (s.inAt (s.dec.i.toNat + 1))
    let s1 := s.withDec { s.dec with i := word (s.dec.i.toNat + 2) }
    if off = 0 ∨ s.dec.anchor.toNat < off then .next (s1.rejectStream .errOffset)
    else if s.dec.anchor.toNat < s.dec.anchor.toNat - off + len then .next (s1.rejectStream .errOverlap)
    else if s.dec.size.toNat < s.dec.j.toNat + len then .next (s1.rejectStream .errOverrun)
    else
      match s1.readOut? (s.dec.anchor.toNat - off) len with
      | none => .fault .outOutside
      | some bytes =>
        match s1.writeOut? s.dec.j.toNat bytes with
        | none => .fault .outOutside
        | some t => .next (afterSymbol (t.withDec { s1.dec with j := word (s.dec.j.toNat + len) }))

/-- LIT (R130). -/
def execLit (nib : Nibble) (s : State) : Host.Outcome State Fault Refusal := literalRun (nib.toNat + 1) s

/-- REF with EXT = 0 (R131). -/
def execRef (nib : Nibble) (s : State) : Host.Outcome State Fault Refusal := backReference (nib.toNat + 1) s

/-- REFX32 (R132). -/
def execRefx32 (s : State) : Host.Outcome State Fault Refusal := backReference 32 s

/-- REFX48 (R133). -/
def execRefx48 (s : State) : Host.Outcome State Fault Refusal := backReference 48 s

/-- REFX64 (R134). -/
def execRefx64 (s : State) : Host.Outcome State Fault Refusal := backReference 64 s

/-- REF with EXT = 1 and nibble 3: length 4 (R50, R131). -/
def execRefExt4 (s : State) : Host.Outcome State Fault Refusal := backReference 4 s

/-- REF with EXT = 1 and nibble 4 + n: length 5 + n (R50, R131). -/
def execRefExt5to8 (n : BitVec 2) (s : State) : Host.Outcome State Fault Refusal := backReference (n.toNat + 5) s

/-- REF with EXT = 1 and nibble 8 + n: length 9 + n (R50, R131). -/
def execRefExt9to16 (n : BitVec 3) (s : State) : Host.Outcome State Fault Refusal := backReference (n.toNat + 9) s

/-- ExecSymbol(k): the control bit, EXT and the nibble select the symbol (R129). -/
def execSymbol (s : State) : Host.Outcome State Fault Refusal :=
  let u := unpackSymbol s.dec.ctrl s.dec.sz s.dec.k
  let nib := u.2
  if u.1 then execLit nib s
  else if !s.extOn then execRef nib s
  else if nib = 0#4 then execRefx32 s
  else if nib = 1#4 then execRefx48 s
  else if nib = 2#4 then execRefx64 s
  else if nib = 3#4 then execRefExt4 s
  else if nib.toNat < 8 then execRefExt5to8 (nib.extractLsb' 0 2) s
  else execRefExt9to16 (nib.extractLsb' 0 3) s

/-! ### The command (R125) -/

/-- One step inside DECODE: the header, a group header or a symbol. -/
def streamStep (s : State) : Host.Outcome State Fault Refusal :=
  match s.phase with
  | .header => execBlkhdr (le24 (s.inAt 0) (s.inAt 1) (s.inAt 2)) s
  | .group =>
    let i := s.dec.i.toNat
    execGroup (s.inAt i) (s.inAt (i + 1)) (s.inAt (i + 2)) (s.inAt (i + 3)) (s.inAt (i + 4)) s
  | .symbol => execSymbol s
  | .idle | .issued => .next s

/-- Whether the unit stands inside DECODE. -/
def inDecode (p : Phase) : Bool :=
  match p with
  | .header | .group | .symbol => true
  | .idle | .issued => false

/-- The loop of R125: steps until DECODE ends. Each group header and each symbol consumes input, so `IN_SIZE + 1`
steps are enough (R142; log 22). -/
def runStream (fuel : Nat) (s : State) : Host.Outcome State Fault Refusal :=
  match fuel with
  | 0 => .next s
  | n + 1 => if inDecode s.phase then andThen (streamStep s) (runStream n) else .next s

/-- DECODE up to its first fetch: the read cursor at the block header (R125). -/
def decodeStart (s : State) : State := (s.withDec { s.dec with i := 0#32, j := 0#32 }).withPhase .header

/-- DECODE (R125): the two tests of IN_SIZE before any effect, then the header and the stream. -/
def execDecode (s : State) : Host.Outcome State Fault Refusal :=
  if s.outputSize < s.inSize then .next (s.reject .errInsize)
  else if s.inSize < 3 then .next (s.reject .errInsize)
  else runStream (s.inSize + 1) (decodeStart s)

end Sys2Proof.Machine
end

