-- ==== Sys2Proof/Machine/Encoder.lean ====
section
/-! DEFINITION. The block encoder: the command ENCODE by the steps of R105 to R115. -/

namespace Sys2Proof.Machine

/-! ### Anchor and acceptance (R108, R109) -/

/-- `pend`: bytes of literal already accumulated (R108). -/
def pendingLiteral (e : EncRegs) : Nat := e.i.toNat - e.lit.toNat

/-- The index the back-reference symbol would get (R108). -/
def nextIndex (e : EncRegs) : Nat := e.n.toNat + (if 0 < pendingLiteral e then 1 else 0)

/-- The anchor of the position: the start of the pair that would contain a back-reference found here (R108). -/
def positionAnchor (e : EncRegs) : Word :=
  if nextIndex e % 2 = 0 then e.i else if 0 < pendingLiteral e then e.lit else e.pa

/-- The candidate the encoder takes: `1 <= a - pos`, `a - pos <= 65531` and `pos + len < a` (R109). -/
def acceptCandidate (r : ProbeResult) (a : Nat) : ProbeResult :=
  match r with
  | none => none
  | some (len, pos) => if 1 ≤ a - pos ∧ a - pos ≤ maxOffset ∧ pos + len < a then some (len, pos) else none

/-! ### Emit and the group buffer (R110 to R113) -/

/-- `GBUF[0 .. g_n)`: the symbols the group buffer holds (R15). -/
def EncRegs.held (e : EncRegs) : List Desc := e.gbuf.toList.take e.gn.val

/-- `GBUF[g_n] <- d ; g_n <- g_n + 1`. There is no tenth place: "`g_n` never passes 9" (R112; log 12). -/
def EncRegs.push (e : EncRegs) (d : Desc) : EncRegs :=
  { e with gbuf := e.gbuf.setIfInBounds e.gn.val d, gn := ⟨min gbufDepth (e.gn.val + 1), by omega⟩ }

/-- `GBUF[0] <- GBUF[8] if g_n = 9 ; g_n <- g_n - 8` (R112). -/
def EncRegs.dropGroup (e : EncRegs) : EncRegs :=
  { e with gbuf := if e.gn.val = 9 then e.gbuf.set 0 (e.gbuf[8]) else e.gbuf, gn := ⟨e.gn.val - groupSyms, by omega⟩ }

/-- Emit(d, start) (R112). -/
def emit (e : EncRegs) (d : Desc) (start : Word) : EncRegs :=
  let pa := if e.n.toNat % 2 = 0 then start else e.pa
  { e with pa := pa, n := word (e.n.toNat + 1) }.push (if d.literal then { d with anchor := pa } else d)

/-- Emit the literal run of `n` bytes from `e_lit` (R110, R111, R114). -/
def emitLiteral (e : EncRegs) (n : Nat) : EncRegs := emit e ⟨true, BitVec.ofNat 8 n, e.lit, 0#32⟩ e.lit

/-- No match at this position: the byte joins the run, which is emitted at 16 bytes (R110). -/
def addLiteralByte (e : EncRegs) : EncRegs :=
  let e1 := { e with i := word (e.i.toNat + 1) }
  if pendingLiteral e1 = maxLit then { emitLiteral e1 maxLit with lit := e1.i } else e1

/-- A match at this position: the pending run, then the back-reference (R111). -/
def addMatch (e : EncRegs) (a : Word) (len pos : Nat) : EncRegs :=
  let e1 := if 0 < pendingLiteral e then emitLiteral e (pendingLiteral e) else e
  let e2 := emit e1 ⟨false, BitVec.ofNat 8 len, word pos, a⟩ e.i
  { e2 with i := word (e.i.toNat + len), lit := word (e.i.toNat + len) }

/-- The payload bytes of a descriptor: the literal's bytes of IN, or the 2-byte offset (R113). -/
def payloadOf (s : State) (d : Desc) : List Byte :=
  if d.literal then s.inRun d.srcPos.toNat d.length.toNat else putLE16 (d.anchor.toNat - d.srcPos.toNat)

/-- All bytes of a group: header, then the payloads in order (R113). -/
def groupBytes (s : State) (ds : List Desc) : List Byte := packHeader ds s.extOn ++ ds.flatMap (payloadOf s)

/-- FlushGroup: the group's bytes go to OUT at `e_o`, which moves past them (R113). -/
def flushGroup (s : State) (ds : List Desc) : Host.Outcome State Fault Refusal :=
  if ds.all (Desc.packable s.extOn) then
    match s.writeOut? s.enc.o.toNat (groupBytes s ds) with
    | some t => .next (t.withEnc { s.enc with o := word (s.enc.o.toNat + (groupBytes s ds).length) })
    | none => .fault .outOutside
  else .fault .badDescriptor

/-- "if g_n >= 8: FlushGroup(GBUF[0..8), 8)" and keep the rest (R112). -/
def flushFull (s : State) : Host.Outcome State Fault Refusal :=
  if groupSyms ≤ s.enc.gn.val then
    andThen (flushGroup s (s.enc.held.take groupSyms)) (fun t => .next (t.withEnc t.enc.dropGroup))
  else .next s

/-! ### The scan (R107 to R112) -/

/-- What an iteration does to the encoder registers, given the accepted candidate (R110, R111). -/
def scanRegs (e : EncRegs) (accepted : ProbeResult) (a : Word) : EncRegs :=
  match accepted with
  | some (len, pos) => addMatch e a len pos
  | none => addLiteralByte e

/-- One iteration of the scan loop: probe, accept, literal or match, flush (R108 to R112). -/
def scanStep (size : Nat) (s : State) : Host.Outcome State Fault Refusal :=
  let a := positionAnchor s.enc
  let r := probeIndex s.build s.inMem s.ctx s.enc.i.toNat a.toNat size s.extOn
  flushFull ((s.withCtx r.2).withEnc (scanRegs s.enc (acceptCandidate r.1 a.toNat) a))

/-- "The loop runs while `e_i < size`" (R107). Each iteration moves `e_i` on, so `size` iterations are enough (log 22). -/
def scanLoop (fuel size : Nat) (s : State) : Host.Outcome State Fault Refusal :=
  match fuel with
  | 0 => .next s
  | n + 1 => if s.enc.i.toNat < size then andThen (scanStep size s) (scanLoop n size) else .next s

/-! ### Tail and the command (R105, R106, R114, R115) -/

/-- The trailing literals, emitted if there are any (R114). -/
def emitTrailing (s : State) : State :=
  if 0 < pendingLiteral s.enc then s.withEnc (emitLiteral s.enc (pendingLiteral s.enc)) else s

/-- The partial final group, if symbols are left: "FlushGroup(GBUF[0..g_n), g_n) ; g_n <- 0" (R114). -/
def flushRest (s : State) : Host.Outcome State Fault Refusal :=
  if s.enc.gn = 0 then .next s
  else andThen (flushGroup s s.enc.held) (fun t => .next (t.withEnc { t.enc with gn := 0 }))

/-- Tail (R114). -/
def encodeTail (s : State) : Host.Outcome State Fault Refusal := andThen (flushFull (emitTrailing s)) flushRest

/-- DIRTY <- 1, WriteHeader, and the initial state of the scan; GBUF keeps its words (R105, R106, R107). -/
def encodeStart (s : State) : State :=
  ((s.withCtx { s.ctx with dirty := true }).withEnc
    { s.enc with i := 0#32, lit := 0#32, n := 0#32, pa := 0#32, o := 3#32, gn := 0 }).putOut 0 (putLE24 s.inSize)

/-- `OUT_SIZE <- e_o ; STATUS <- OK`; OUT from OUT_SIZE on is unspecified (R115, R42). -/
def encodeFinish (s : State) : State := ((s.loseOut s.enc.o.toNat).setOutSize s.enc.o.toNat).complete

/-- ENCODE (R105): the two refusals before any effect, then header, scan, tail, completion. -/
def execEncode (s : State) : Host.Outcome State Fault Refusal :=
  if s.blockSize < s.inSize then .next (s.reject .errInsize)
  else if s.ctx.dirty then .next (s.reject .errNotReset)
  else
    andThen (scanLoop s.inSize s.inSize (encodeStart s)) (fun t =>
      andThen (encodeTail t) (fun u => .next (encodeFinish u)))

end Sys2Proof.Machine
end

