-- ==== Sys2Proof/Machine/PackUnpack.lean ====
section
/-! DEFINITION. The bit packer / unpacker commands: COPY16, COPY32, COPY48, COPY64, RD16LE, WR16LE (R65 to R70). -/

namespace Sys2Proof.Machine

/-- One 16-byte chunk of a copy: "all 16 bytes are read first ... then all 16 are written" (R65); `fromOut` selects
OUT as the source space. -/
def copyChunk (s : State) (fromOut : Bool) (dst src : Nat) : State :=
  s.putOut dst (if fromOut then s.outRun src 16 else s.inRun src 16)

/-- Chunks in ascending order, each read whole before it is written (R66). -/
def copyChunks (chunks : Nat) (s : State) (fromOut : Bool) (dst src : Nat) : State :=
  match chunks with
  | 0 => s
  | n + 1 => copyChunks n (copyChunk s fromOut dst src) fromOut (dst + 16) (src + 16)

/-- The argument test of a copy of `n` bytes (R65, R162). -/
def copyArgsOk (s : State) (n : Nat) : Bool :=
  decide (s.regs.arg2.toNat ≤ 1) && decide (s.regs.arg0.toNat + n ≤ s.outputSize) &&
    decide (s.regs.arg1.toNat + n ≤ s.outputSize)

/-- A copy of `16 * chunks` bytes: ARG0 = dst, ARG1 = src, ARG2 = sel (R65, R66). -/
def copyBytes (chunks : Nat) (s : State) : State :=
  if copyArgsOk s (16 * chunks) then
    (copyChunks chunks s (decide (s.regs.arg2.toNat = 1)) s.regs.arg0.toNat s.regs.arg1.toNat).complete
  else s.reject .errArg

/-- COPY16 (R65). -/
def execCopy16 (s : State) : Host.Outcome State Fault Refusal := .next (copyBytes 1 s)

/-- COPY32 (R66). -/
def execCopy32 (s : State) : Host.Outcome State Fault Refusal := .next (copyBytes 2 s)

/-- COPY48 (R67). -/
def execCopy48 (s : State) : Host.Outcome State Fault Refusal := .next (copyBytes 3 s)

/-- COPY64 (R68). -/
def execCopy64 (s : State) : Host.Outcome State Fault Refusal := .next (copyBytes 4 s)

/-- RD16LE: ARG0 = a; RES0 <- LE16(IN, a) (R69). -/
def execRd16le (s : State) : Host.Outcome State Fault Refusal :=
  let a := s.regs.arg0.toNat
  if a + 2 ≤ s.outputSize then .next (s.setRes0 (le16 (s.inAt a) (s.inAt (a + 1)))).complete
  else .next (s.reject .errArg)

/-- WR16LE: ARG0 = a, ARG1 = v; stores v at OUT[a], OUT[a+1] (R70). -/
def execWr16le (s : State) : Host.Outcome State Fault Refusal :=
  let a := s.regs.arg0.toNat
  let v := s.regs.arg1.toNat
  if a + 2 ≤ s.outputSize ∧ v ≤ 65535 then .next (s.putOut a (putLE16 v)).complete
  else .next (s.reject .errArg)

end Sys2Proof.Machine
end

