-- ==== Sys2Proof/Machine/Dispatch.lean ====
section
/-! DEFINITION. The one dispatch: each instruction of the opcode table to its meaning. -/

namespace Sys2Proof.Machine

def exec (i : Instr) (s : State) : Host.Outcome State Fault Refusal :=
  match i with
  | .blkhdr size => Sys2Proof.Machine.execBlkhdr size s
  | .group ctrl sz0 sz1 sz2 sz3 => Sys2Proof.Machine.execGroup ctrl sz0 sz1 sz2 sz3 s
  | .lit nib => Sys2Proof.Machine.execLit nib s
  | .ref nib => Sys2Proof.Machine.execRef nib s
  | .refx32 => Sys2Proof.Machine.execRefx32 s
  | .refx48 => Sys2Proof.Machine.execRefx48 s
  | .refx64 => Sys2Proof.Machine.execRefx64 s
  | .refExt4 => Sys2Proof.Machine.execRefExt4 s
  | .refExt5to8 n => Sys2Proof.Machine.execRefExt5to8 n s
  | .refExt9to16 n => Sys2Proof.Machine.execRefExt9to16 n s
  | .nop => Sys2Proof.Machine.execNop s
  | .ctxReset => Sys2Proof.Machine.execCtxReset s
  | .encode => Sys2Proof.Machine.execEncode s
  | .decode => Sys2Proof.Machine.execDecode s
  | .copy16 => Sys2Proof.Machine.execCopy16 s
  | .copy32 => Sys2Proof.Machine.execCopy32 s
  | .copy48 => Sys2Proof.Machine.execCopy48 s
  | .copy64 => Sys2Proof.Machine.execCopy64 s
  | .rd16le => Sys2Proof.Machine.execRd16le s
  | .wr16le => Sys2Proof.Machine.execWr16le s
  | .hash4 => Sys2Proof.Machine.execHash4 s
  | .matchlen => Sys2Proof.Machine.execMatchlen s
  | .probe => Sys2Proof.Machine.execProbe s

end Sys2Proof.Machine
end

