-- ==== Sys2Proof/Machine/Step.lean ====
section
/-! DEFINITION. One step of the unit, and the placing of an opcode-table word where that step fetches. -/

namespace Sys2Proof.Machine

/-- One step: the fetched instruction is executed (R145, R146; inside DECODE, R190's finer grain); where nothing is
fetched, the state of `noInstruction`. -/
def step (s : State) : Host.Outcome State Fault Refusal :=
  match fetch s with
  | some i => exec i s
  | none => .next (noInstruction s)

/-- A state whose next step fetches and runs an opcode-table word (log 4). -/
def State.withFetchWord (s : State) (nbits w : Nat) : State :=
  match decodeTableWord nbits w with
  | some (.blkhdr size) => s.placeHeader size
  | some (.group ctrl sz0 sz1 sz2 sz3) => s.placeGroup ctrl sz0 sz1 sz2 sz3
  | some i =>
    match symSel i with
    | some _ => s.placeSymbol (BitVec.ofNat 6 w)
    | none => s.placeCommand (BitVec.ofNat 8 w)
  | none => s.placeCommand (BitVec.ofNat 8 w)

end Sys2Proof.Machine
end

