-- ==== Sys2Proof/Machine/Listing.lean ====
section
/-! DEFINITION. The payload listings of R61: their assembler, and the block a listing stands for. -/

namespace Sys2Proof.Machine

/-- The control bit and nibble of a listed symbol (R48, R49, R54, R61). A REF of 1..3 bytes, which ENCODE never emits
and NibbleOf leaves out, has the nibble `len - 1` that LenOf reads back (log 21). -/
def symSlot (s : Sym) : Bool × Nibble :=
  match s with
  | .lit bs => (true, BitVec.ofNat 4 (bs.length - 1))
  | .ref _ n => (false, BitVec.ofNat 4 (n - 1))
  | .refx _ n => (false, BitVec.ofNat 4 (n / 16 - 2))

/-- The payload bytes of a listed symbol (R51, R52). -/
def symPayload (s : Sym) : List Byte :=
  match s with
  | .lit bs => bs
  | .ref off _ => putLE16 off
  | .refx off _ => putLE16 off

/-- One group: the header before the payloads of its symbols, padded by R56 (R61). -/
def assembleGroup (syms : List Sym) : List Byte := packSlots (syms.map symSlot) ++ syms.flatMap symPayload

/-- Symbols 8g .. 8g+7 form group g (R61). -/
def assembleGroups (fuel : Nat) (syms : List Sym) : List Byte :=
  match fuel, syms with
  | _, [] => []
  | 0, _ => []
  | n + 1, syms => assembleGroup (syms.take 8) ++ assembleGroups n (syms.drop 8)

/-- The payload of a listing: block header, then groups (R45, R61). -/
def assemble (l : Listing) : List Byte := putLE24 l.size ++ assembleGroups l.syms.length l.syms

/-- The output after one symbol: a literal's bytes, or `len` bytes from `off` before the anchor, all of them before the
anchor; `none` for a reference that reaches elsewhere (R128, R130, R131). -/
def runSym (anchor : Nat) (out : List Byte) (s : Sym) : Option (List Byte) :=
  let copy (off n : Nat) : Option (List Byte) :=
    if off ≠ 0 ∧ off ≤ anchor ∧ n ≤ off then some (out ++ (out.drop (anchor - off)).take n) else none
  match s with
  | .lit bs => some (out ++ bs)
  | .ref off n => copy off n
  | .refx off n => copy off n

/-- The output after the symbols from index `k` on: an even symbol opens a pair, whose anchor is the output so far
(R128). -/
def runSyms (k anchor : Nat) (out : List Byte) (syms : List Sym) : Option (List Byte) :=
  match syms with
  | [] => some out
  | s :: rest =>
    let a := if k % 2 = 0 then out.length else anchor
    match runSym a out s with
    | some o => runSyms (k + 1) a o rest
    | none => none

/-- The block a listing stands for. -/
def listingOutput (l : Listing) : Option (List Byte) := runSyms 0 0 [] l.syms

end Sys2Proof.Machine
end

