-- ==== Sys2Proof/Machine/HostPort.lean ====
section
/-! DEFINITION. The host's side: register writes and reads, loading IN, reading OUT, issuing a command, the calls of
the source's facade, and the container prefix and header (R10, R39, R62, R63, R145, R150, R151). The host acts between commands only:
each access answers `none` while one runs (log 17). -/

namespace Sys2Proof.Machine

/-- The registers of R10. -/
inductive HostReg where
  | cmd
  | status
  | ext
  | level
  | inSize
  | outSize
  | arg0
  | arg1
  | arg2
  | arg3
  | res0
  | res1
  deriving DecidableEq, Repr

/-- The register numbers of R10. -/
def HostReg.number (r : HostReg) : Nat :=
  match r with
  | .cmd => 0
  | .status => 1
  | .ext => 2
  | .level => 3
  | .inSize => 4
  | .outSize => 5
  | .arg0 => 6
  | .arg1 => 7
  | .arg2 => 8
  | .arg3 => 9
  | .res0 => 10
  | .res1 => 11

/-- A register write: "a host write of a wider value is truncated to the width"; a write to STATUS, OUT_SIZE, RES0 or
RES1 is ignored; a write to CMD issues the command (R10, R145, R151). -/
def State.writeReg (s : State) (r : HostReg) (v : Nat) : State :=
  match r with
  | .cmd => s.placeCommand (BitVec.ofNat 8 v)
  | .status => s
  | .ext => { s with regs := { s.regs with ext := BitVec.ofNat 1 v } }
  | .level => { s with regs := { s.regs with level := BitVec.ofNat 4 v } }
  | .inSize => { s with regs := { s.regs with inSize := BitVec.ofNat 32 v } }
  | .outSize => s
  | .arg0 => { s with regs := { s.regs with arg0 := BitVec.ofNat 32 v } }
  | .arg1 => { s with regs := { s.regs with arg1 := BitVec.ofNat 32 v } }
  | .arg2 => { s with regs := { s.regs with arg2 := BitVec.ofNat 32 v } }
  | .arg3 => { s with regs := { s.regs with arg3 := BitVec.ofNat 32 v } }
  | .res0 => s
  | .res1 => s

/-- A register read; the host supplies the number of the draw, since a read of CMD "returns an unspecified value"
(R10; log 16). -/
def State.readReg (s : State) (draw : Nat) (r : HostReg) : Nat :=
  match r with
  | .cmd => (Config.cmdReadback draw).toNat
  | .status => s.regs.status.toNat
  | .ext => s.regs.ext.toNat
  | .level => s.regs.level.toNat
  | .inSize => s.regs.inSize.toNat
  | .outSize => s.regs.outSize.toNat
  | .arg0 => s.regs.arg0.toNat
  | .arg1 => s.regs.arg1.toNat
  | .arg2 => s.regs.arg2.toNat
  | .arg3 => s.regs.arg3.toNat
  | .res0 => s.regs.res0.toNat
  | .res1 => s.regs.res1.toNat

/-- Whether the host may act: no command is issued or running (R39, R145). -/
def State.hostMayAct (s : State) : Bool := decide (s.phase = .idle)

/-- The host writes a register. -/
def State.hostWrite (s : State) (r : HostReg) (v : Nat) : Option State :=
  if s.hostMayAct then some (s.writeReg r v) else none

/-- The host reads a register. -/
def State.hostRead (s : State) (draw : Nat) (r : HostReg) : Option Nat :=
  if s.hostMayAct then some (s.readReg draw r) else none

/-- IN[a ..) <- bytes. -/
def State.putIn (s : State) (a : Nat) (bytes : List Byte) : State := { s with inMem := Memory.putRun s.inMem a bytes }

/-- The host loads bytes into IN, inside it (R21, R30). -/
def State.hostLoad (s : State) (a : Nat) (bytes : List Byte) : Option State :=
  if s.hostMayAct && decide (a + bytes.length ≤ s.outputSize) then some (s.putIn a bytes) else none

/-- The host reads a byte of OUT. -/
def State.hostReadOut (s : State) (a : Nat) : Option Byte :=
  if s.hostMayAct && decide (a < s.outputSize) then some (s.outAt a) else none

/-- The state in which the source's call has put its operands and issued a command: IN, IN_SIZE, EXT, CMD (R150).
DESIGN CHOICE (log 27): of an input longer than OUTPUT_SIZE, for which the spec does not say what the host loads, IN takes
the bytes that have a place (R30), and IN_SIZE takes the whole length, as R150 writes it. -/
def State.called (s : State) (code : Byte) (input : List Byte) (ext : Bool) : State :=
  ((((s.putIn 0 (input.take s.outputSize)).writeReg .inSize input.length).writeReg .ext ext.toNat).writeReg .cmd code.toNat)

/-- The source's `reset()` at a level: LEVEL, then CTX_RESET (R150). -/
def callReset (s : State) (level : Nat) : Host.Outcome State Fault Refusal :=
  step ((s.writeReg .level level).writeReg .cmd 0x01)

/-- The source's `encode(context, input, ..., ext)` (R150). -/
def callEncode (s : State) (input : List Byte) (ext : Bool) : Host.Outcome State Fault Refusal :=
  step (s.called 0x02#8 input ext)

/-- The source's `decode(input, ..., ext)` (R150). -/
def callDecode (s : State) (input : List Byte) (ext : Bool) : Host.Outcome State Fault Refusal :=
  step (s.called 0x03#8 input ext)

/-- What the host reads back: `OUT[0 .. OUT_SIZE)` (R150). -/
def State.result (s : State) : List Byte := s.outRun 0 s.regs.outSize.toNat

/-- The extensions bit of a container block prefix: bit 23 (R62). -/
def prefixExt (p : BitVec 24) : Bool := p.getLsbD 23

/-- The compressed length of a container block prefix: bits 0..22 (R62). -/
def prefixLength (p : BitVec 24) : Nat := p.toNat % 2 ^ 23

/-- The prefix of a payload length and an extensions flag (R62). -/
def makePrefix (ext : Bool) (length : Nat) : BitVec 24 := BitVec.ofBool ext ++ BitVec.ofNat 23 length

/-- A number of `n` bytes, lowest byte first. -/
def leBytes (n v : Nat) : List Byte := (List.range n).map (byteOf v)

/-- The number some bytes stand for, lowest byte first. -/
def leNumber (bytes : List Byte) : Nat :=
  match bytes with
  | [] => 0
  | b :: rest => b.toNat + 256 * leNumber rest

/-- The magic "TSQ1" of the container (R63). -/
def containerMagic : List Byte := [0x54#8, 0x53#8, 0x51#8, 0x31#8]

/-- The 16-byte container header of a block count and an uncompressed total size (R63). -/
def makeContainerHeader (blocks total : Nat) : List Byte := containerMagic ++ leBytes 4 blocks ++ leBytes 8 total

/-- The block count and total size of a container header; `none` where the host's software fails the job: "a magic
mismatch or a block count of 0" (R63), or fewer than 16 bytes. -/
def readContainerHeader (bytes : List Byte) : Option (Nat × Nat) :=
  let blocks := leNumber ((bytes.drop 4).take 4)
  if 16 ≤ bytes.length ∧ bytes.take 4 = containerMagic ∧ blocks ≠ 0 then
    some (blocks, leNumber ((bytes.drop 8).take 8))
  else none

end Sys2Proof.Machine
end

