-- ==== Sys2Proof/Safety.lean ====
section
/-! DEFINITION. What a safe run is: a step that completes, what a command leaves alone, and the invariants of the unit. -/

namespace Sys2Proof.Machine

/-- The step answered a next state: it neither faulted nor refused. -/
def Completes (o : Host.Outcome State Fault Refusal) : Prop := ∃ t, o = .next t

/-- The parts of the state that no leaf command and no symbol writes: the build, the encoder registers, the context
and IN. -/
def coreKept (s t : State) : Prop := t.build = s.build ∧ t.enc = s.enc ∧ t.ctx = s.ctx ∧ t.inMem = s.inMem

/-- OUT is untouched, its unspecified bytes included. -/
def outKept (s t : State) : Prop := t.outMem = s.outMem ∧ t.outDraw = s.outDraw

/-- The registers only the host writes (R10: "EXT, LEVEL, IN_SIZE, ARG0..ARG3 hold what the host last wrote; no
command changes them"), and CMD. -/
def hostRegsKept (s t : State) : Prop :=
  t.regs.cmd = s.regs.cmd ∧ t.regs.ext = s.regs.ext ∧ t.regs.level = s.regs.level ∧ t.regs.inSize = s.regs.inSize ∧
    t.regs.arg0 = s.regs.arg0 ∧ t.regs.arg1 = s.regs.arg1 ∧ t.regs.arg2 = s.regs.arg2 ∧ t.regs.arg3 = s.regs.arg3

/-- The length of a back-reference, by the map of R50; `none` for every other instruction. -/
def refLength (i : Instr) : Option Nat :=
  match i with
  | .ref nib => some (nib.toNat + 1)
  | .refx32 => some 32
  | .refx48 => some 48
  | .refx64 => some 64
  | .refExt4 => some 4
  | .refExt5to8 n => some (5 + n.toNat)
  | .refExt9to16 n => some (9 + n.toNat)
  | .blkhdr _ | .group _ _ _ _ _ | .lit _ | .nop | .ctxReset | .encode | .decode | .copy16 | .copy32 | .copy48
  | .copy64 | .rd16le | .wr16le | .hash4 | .matchlen | .probe => none

/-- Where DECODE stands after a symbol that left the read cursor at `i` and the write cursor at `j`: on in the stream,
or, when `d_j` has reached `d_size`, ended with STATUS OK and OUT_SIZE = `d_size` (R125, R128, R135, R136). -/
def decodeGoesOn (s t : State) (i j : Nat) : Prop :=
  t.dec.size = s.dec.size ∧ t.dec.ctrl = s.dec.ctrl ∧ t.dec.sz = s.dec.sz ∧ t.dec.fastEnd = s.dec.fastEnd ∧
  t.dec.i.toNat = i ∧ t.dec.j.toNat = j ∧
  (j < s.dec.size.toNat →
    t.regs = s.regs ∧ t.outDraw = s.outDraw ∧
    (s.dec.k = 7 → t.phase = .group ∧ t.dec.k = s.dec.k ∧ t.dec.anchor = s.dec.anchor) ∧
    (s.dec.k ≠ 7 → t.phase = .symbol ∧ t.dec.k = s.dec.k + 1 ∧
      t.dec.anchor = if s.dec.k.val % 2 = 0 then s.dec.anchor else word j)) ∧
  (s.dec.size.toNat ≤ j →
    t.phase = .idle ∧ t.dec.k = s.dec.k ∧ t.dec.anchor = s.dec.anchor ∧
    t.regs = { s.regs with status := 0#8, outSize := s.dec.size.setWidth 32 })

/-- `bytes` are stored to OUT from index `o` on; every other byte of OUT reads as before. -/
def storedAt (s t : State) (o : Nat) (bytes : List Byte) : Prop :=
  t.outDraw = s.outDraw ∧ (∀ k (h : k < bytes.length), t.outAt (o + k) = bytes[k]) ∧
    ∀ x, x < o ∨ o + bytes.length ≤ x → t.outAt x = s.outAt x

/-- The parts of the state that a step of the encoder's scan and its tail leave alone: all but the context, the encoder
registers and OUT. -/
def scanKept (s t : State) : Prop :=
  t.build = s.build ∧ t.phase = s.phase ∧ t.regs = s.regs ∧ t.dec = s.dec ∧ t.inMem = s.inMem

/-- The encoder emits the symbols `ds`: they join those held, and of eight or more held the first eight are written as
one group at `e_o`, which moves past it (R112, R113). -/
def emits (s t : State) (ds : List Desc) : Prop :=
  ((s.enc.held ++ ds).length < 8 →
    t.enc.held = s.enc.held ++ ds ∧ t.enc.o = s.enc.o ∧ outKept s t) ∧
  (8 ≤ (s.enc.held ++ ds).length →
    t.enc.held = (s.enc.held ++ ds).drop 8 ∧
    t.enc.o.toNat = s.enc.o.toNat + (groupBytes s ((s.enc.held ++ ds).take 8)).length ∧
    storedAt s t s.enc.o.toNat (groupBytes s ((s.enc.held ++ ds).take 8)))

/-- Both memories are in canonical form and list no address at or beyond OUTPUT_SIZE (R21, R30). -/
abbrev memoryInv (s : State) : Prop :=
  Memory.wf s.inMem ∧ Memory.below s.inMem s.outputSize ∧ Memory.wf s.outMem ∧ Memory.below s.outMem s.outputSize

/-- OUT_SIZE is the number of valid bytes in OUT: it fits OUT, and every byte below it holds a specified value (R10,
R42). -/
abbrev resultInv (s : State) : Prop :=
  s.regs.outSize.toNat ≤ s.outputSize ∧ ∀ a < s.regs.outSize.toNat, (Memory.get? s.outMem a).isSome = true

/-- STATUS holds one of the codes 0..9: "10..255 ... never written by the unit" (R160). -/
abbrev statusInv (s : State) : Prop := s.regs.status.toNat ≤ 9

/-- Inside DECODE: IN_SIZE has passed its test (R125); past the header, the announced length has passed its own
(R126), the read cursor is inside the payload (R12), the write cursor is below the announced length (R135), and the
bytes written so far hold specified values; at a symbol, the anchor is not after the write cursor (R128). -/
abbrev decodeInv (s : State) : Prop :=
  (inDecode s.phase = true → 3 ≤ s.inSize ∧ s.inSize ≤ s.outputSize) ∧
  (s.phase = .group ∨ s.phase = .symbol →
    s.dec.size.toNat ≤ s.blockSize ∧ s.dec.i.toNat ≤ s.inSize ∧ s.dec.j.toNat < s.dec.size.toNat ∧
      ∀ a < s.dec.j.toNat, (Memory.get? s.outMem a).isSome = true) ∧
  (s.phase = .symbol → s.dec.anchor.toNat ≤ s.dec.j.toNat)

/-- FastRef: buckets below HASH_SZ in canonical form; at most four live entries, of pairwise different symbols, each
in the bucket its hash names (R17, R88, R90, R97 (a), (c)). -/
abbrev fastInv (b : Build) (c : Ctx) : Prop :=
  keysRising c.fast ∧
  ∀ p ∈ c.fast, p.1 < hashSz b.geometry ∧ p.2 ≠ FastBucket.fresh ∧ p.2.count.toNat ≤ 4 ∧
    (∀ e : Fin 4, e.val < p.2.count.toNat → hashF b (p.2.entry[e]).sym = p.1) ∧
    (∀ e f : Fin 4, e.val < f.val → f.val < p.2.count.toNat → (p.2.entry[e]).sym ≠ (p.2.entry[f]).sym)

/-- MultiRef: as FastRef; a live entry whose M_OCC is not 1 owns a slot of `L` words at a multiple of `L` below POOL_CUR
(R18, R91 to R94, R97 (a), (c), (d); that M_OCC may hold any other value is log 11). -/
abbrev multiInv (b : Build) (c : Ctx) : Prop :=
  keysRising c.multi ∧
  ∀ p ∈ c.multi, p.1 < hashPlusSz b.geometry ∧ p.2 ≠ MultiBucket.fresh ∧ p.2.count.toNat ≤ 4 ∧
    (∀ e : Fin 4, e.val < p.2.count.toNat → hashM b (p.2.entry[e]).sym = p.1 ∧
      ((p.2.entry[e]).occ ≠ 1#32 →
        (p.2.entry[e]).pos.toNat + slotWidth c.level ≤ c.poolCur.toNat ∧
          (p.2.entry[e]).pos.toNat % slotWidth c.level = 0)) ∧
    (∀ e f : Fin 4, e.val < f.val → f.val < p.2.count.toNat → (p.2.entry[e]).sym ≠ (p.2.entry[f]).sym)

/-- Two live entries that own slots own different slots, which at multiples of `L` are disjoint (R97 (d)). -/
abbrev slotInv (c : Ctx) : Prop :=
  ∀ p ∈ c.multi, ∀ q ∈ c.multi, ∀ e f : Fin 4, (p.1 ≠ q.1 ∨ e ≠ f) → e.val < p.2.count.toNat → f.val < q.2.count.toNat →
    (p.2.entry[e]).occ ≠ 1#32 → (q.2.entry[f]).occ ≠ 1#32 → (p.2.entry[e]).pos ≠ (q.2.entry[f]).pos

/-- The pool: canonical form; words below POOL_ENTRIES only; the cursor inside it and at a multiple of `L`
(R19, R92, R97 (e)). -/
abbrev poolInv (b : Build) (c : Ctx) : Prop :=
  keysRising c.pool ∧ (∀ p ∈ c.pool, p.1 < b.poolEntries.toNat ∧ p.2 ≠ 0#32) ∧
    c.poolCur.toNat ≤ b.poolEntries.toNat ∧ c.poolCur.toNat % slotWidth c.level = 0

/-- The match index (R97). -/
abbrev indexInv (b : Build) (c : Ctx) : Prop := fastInv b c ∧ multiInv b c ∧ slotInv c ∧ poolInv b c

/-- A context that is not DIRTY is as CTX_RESET leaves it: no live entry, no slot handed out (R20, R148, R183). -/
abbrev cleanInv (c : Ctx) : Prop :=
  c.dirty = false → (∀ p ∈ c.fast, p.2.count = 0#8) ∧ (∀ p ∈ c.multi, p.2.count = 0#8) ∧ c.poolCur = 0#32

/-- The invariants of the unit that every step keeps. -/
abbrev unitInv (s : State) : Prop :=
  memoryInv s ∧ resultInv s ∧ statusInv s ∧ decodeInv s ∧ indexInv s.build s.ctx ∧ cleanInv s.ctx

end Sys2Proof.Machine
end

