-- ==== Sys2Proof/Certificates/Slice0/Obligations.lean ====
section
/-! DEFINITION. The statements for the provers. -/

open Sys2Proof Sys2Proof.Machine

/-! ### Encodings -/

/-- Decoding the encoded bytes of any instruction gives the instruction back and leaves the bytes after it, with every
operand at every value (R46, R47, R50, R59). -/
def Obligations.DecodeOfEncode : Prop :=
  ∀ (i : Instr) (rest : List Byte), decode (encode i).1 ((encode i).2 ++ rest) = .ok (i, rest)

/-- Every selector fits exactly one SYM row of the opcode table, and it is the row of the instruction it decodes to
(R50). -/
def Obligations.SelectorRowsTileTheSelectors : Prop :=
  ∀ sel : Sel,
    (opcodeRows.filter (fun r => r.fits .sym sel.toNat)).length = 1 ∧
    ∃ r, opcodeRows[rowIndex (decodeSym sel)]? = some r ∧ r.fits .sym sel.toNat = true

/-- A byte is one of the thirteen command codes of R59 and decodes to its command, or it is reserved (R60). -/
def Obligations.CommandCodesAreTheTable : Prop :=
  ∀ code : Byte,
    decodeCmd code =
      (match code.toNat with
        | 0x00 => .ok .nop
        | 0x01 => .ok .ctxReset
        | 0x02 => .ok .encode
        | 0x03 => .ok .decode
        | 0x10 => .ok .copy16
        | 0x11 => .ok .copy32
        | 0x12 => .ok .copy48
        | 0x13 => .ok .copy64
        | 0x18 => .ok .rd16le
        | 0x19 => .ok .wr16le
        | 0x20 => .ok .hash4
        | 0x21 => .ok .matchlen
        | 0x22 => .ok .probe
        | _ => .error (.reservedCommand code))

/-- Words written out from the encodings: the block header 20 00 00 announces 32, the group header of program P4, LIT 15
as selector 0 1 1110, REF 15 as 0 0 1110, REFX48 as 1 0 0001, REF 7 under EXT as 1 0 0110, command 0x22 (R46, R47, R50,
R59). -/
def Obligations.WrittenWordsDecode : Prop :=
  decode .blkhdr [0x20#8, 0x00#8, 0x00#8] = .ok (.blkhdr 32#24, []) ∧
  decode .blkhdr [0x01#8, 0x00#8, 0x04#8] = .ok (.blkhdr 0x040001#24, []) ∧
  decode .group [0xD5#8, 0xF0#8, 0xF0#8, 0xF0#8, 0xF0#8] = .ok (.group 0xD5#8 0xF0#8 0xF0#8 0xF0#8 0xF0#8, []) ∧
  decode .sym [0b011110#8] = .ok (.lit 14#4, []) ∧
  decode .sym [0b001110#8] = .ok (.ref 14#4, []) ∧
  decode .sym [0b100001#8] = .ok (.refx48, []) ∧
  decode .sym [0b100110#8] = .ok (.refExt5to8 2#2, []) ∧
  decode .cmd8 [0x22#8] = .ok (.probe, [])

/-- LenOf and NibbleOf (R54): the values of LenOf, the domain of NibbleOf, and LenOf undoing NibbleOf on it. -/
def Obligations.LengthFunctions : Prop :=
  (∀ (c ext : Bool) (nib : Nibble),
    (c = false → ext = true → nib.toNat ≤ 2 → lenOf c nib ext = 32 + 16 * nib.toNat) ∧
    (c = true ∨ ext = false ∨ 2 < nib.toNat → lenOf c nib ext = nib.toNat + 1)) ∧
  (∀ (literal ext : Bool) (length : Nat),
    (literal = true → 1 ≤ length → length ≤ 16 → nibbleOf literal length ext = some (BitVec.ofNat 4 (length - 1))) ∧
    (literal = false → length = 32 ∨ length = 48 ∨ length = 64 → ext = true →
      nibbleOf literal length ext = some (BitVec.ofNat 4 (length / 16 - 2))) ∧
    (literal = false → 4 ≤ length → length ≤ 16 →
      nibbleOf literal length ext = some (BitVec.ofNat 4 (length - 1))) ∧
    (literal = true → length = 0 ∨ 16 < length → nibbleOf literal length ext = none) ∧
    (literal = false → length = 32 ∨ length = 48 ∨ length = 64 → ext = false → nibbleOf literal length ext = none) ∧
    (literal = false → length ≠ 32 → length ≠ 48 → length ≠ 64 → length < 4 ∨ 16 < length →
      nibbleOf literal length ext = none)) ∧
  (∀ (literal ext : Bool) (length : Nat) (nib : Nibble), nibbleOf literal length ext = some nib →
    lenOf literal nib ext = length)

/-- UnpackSymbol undoes PackHeader: the control bit and nibble of each descriptor, and the padding after the last
(R56, R71, R72). -/
def Obligations.UnpackUndoesPackHeader : Prop :=
  ∀ (ds : List Desc) (ext : Bool) (k : Fin 8) (c s0 s1 s2 s3 : Byte),
    ds.length ≤ 8 → packHeader ds ext = [c, s0, s1, s2, s3] →
    (∀ d nib, ds[k.val]? = some d → nibbleOf d.literal d.length.toNat ext = some nib →
      unpackSymbol c #v[s0, s1, s2, s3] k = (d.literal, nib)) ∧
    (ds.length ≤ k.val → unpackSymbol c #v[s0, s1, s2, s3] k = (true, 0#4))

/-! ### The step -/

/-- A step runs the decoded instruction: the command in CMD when it has been issued (R145, R146); inside DECODE the block
header at payload index 0, the five bytes at `d_i` when they are all inside the payload, the symbol that the current
group's control bit and nibble and EXT select. Where the payload ends inside a group header, the step is that header's
rejection: ERR_UNDERRUN, OUT_SIZE 0, and no byte of OUT specified (R127; log 19). That a step is one header, group header
or symbol of the stream, where R145 makes it one command, is the model's choice (log 1, DESIGN CHOICE), which R190 allows.
-/
def Obligations.StepRunsTheDecodedInstruction : Prop :=
  ∀ (s : State) (i : Instr),
    (s.phase = .issued → decodeCmd s.regs.cmd = .ok i → step s = exec i s) ∧
    (s.phase = .header → ∀ rest, decode .blkhdr [s.inAt 0, s.inAt 1, s.inAt 2] = .ok (i, rest) → step s = exec i s) ∧
    (s.phase = .group → s.dec.i.toNat + 5 ≤ s.inSize → ∀ rest,
      decode .group [s.inAt s.dec.i.toNat, s.inAt (s.dec.i.toNat + 1), s.inAt (s.dec.i.toNat + 2),
        s.inAt (s.dec.i.toNat + 3), s.inAt (s.dec.i.toNat + 4)] = .ok (i, rest) → step s = exec i s) ∧
    (s.phase = .group → s.inSize < s.dec.i.toNat + 5 →
      ∃ t, step s = .next t ∧ t.phase = .idle ∧ t.regs = { s.regs with status := 4#8, outSize := 0#32 } ∧
        t.dec = s.dec ∧ coreKept s t ∧ ∀ a, Memory.get? t.outMem a = none) ∧
    (s.phase = .symbol → ∀ c nib, unpackSymbol s.dec.ctrl s.dec.sz s.dec.k = (c, nib) →
      decodeSym (selOf s.extOn c nib) = i → step s = exec i s)

/-- A reserved command code is rejected with ERR_CMD: STATUS and OUT_SIZE are written and nothing else changes, but for
the model's own `phase`, which says that the command has ended (R149). -/
def Obligations.ReservedCommandRejected : Prop :=
  ∀ s : State, s.phase = .issued →
    ((0x04 ≤ s.regs.cmd.toNat ∧ s.regs.cmd.toNat ≤ 0x0F) ∨ (0x14 ≤ s.regs.cmd.toNat ∧ s.regs.cmd.toNat ≤ 0x17) ∨
      (0x1A ≤ s.regs.cmd.toNat ∧ s.regs.cmd.toNat ≤ 0x1F) ∨ (0x23 ≤ s.regs.cmd.toNat ∧ s.regs.cmd.toNat ≤ 0xFF)) →
    step s = .next { s with phase := .idle, regs := { s.regs with status := 1#8, outSize := 0#32 } }

/-- Nothing happens until the host writes CMD (R24, R145, R180). -/
def Obligations.NothingRunsUnissued : Prop := ∀ s : State, s.phase = .idle → step s = .next s

/-! ### Commands -/

/-- NOP writes STATUS <- OK and nothing else (R147). -/
def Obligations.NopWritesStatusOnly : Prop :=
  ∀ s : State, exec .nop s = .next { s with phase := .idle, regs := { s.regs with status := 0#8 } }

/-- CTX_RESET clears every count and POOL_CUR, samples LEVEL, clears DIRTY, sets STATUS, and leaves the entry arrays,
the pool and everything else as they are (R96, R148). -/
def Obligations.CtxResetClearsTheContext : Prop :=
  ∀ s : State, keysRising s.ctx.fast → keysRising s.ctx.multi →
    ∃ t, exec .ctxReset s = .next t ∧
      t.ctx.level = s.regs.level ∧ t.ctx.dirty = false ∧ t.ctx.poolCur = 0#32 ∧ t.ctx.pool = s.ctx.pool ∧
      (∀ h, (fastAt t.ctx h).count = 0#8 ∧ (fastAt t.ctx h).entry = (fastAt s.ctx h).entry) ∧
      (∀ h, (multiAt t.ctx h).count = 0#8 ∧ (multiAt t.ctx h).entry = (multiAt s.ctx h).entry) ∧
      t.phase = .idle ∧ t.regs = { s.regs with status := 0#8 } ∧ t.build = s.build ∧ t.dec = s.dec ∧ t.enc = s.enc ∧
      t.inMem = s.inMem ∧ outKept s t

/-! ### The bit packer / unpacker -/

/-- COPY16 (R65): the 16 bytes of the source space as they were before the command go to OUT[dst ..), overlap or not,
and no other byte changes; arguments out of range are rejected with nothing changed but STATUS and OUT_SIZE. -/
def Obligations.Copy16MovesSixteenBytes : Prop :=
  ∀ s : State,
    (s.regs.arg2.toNat ≤ 1 → s.regs.arg0.toNat + 16 ≤ s.outputSize → s.regs.arg1.toNat + 16 ≤ s.outputSize →
      ∃ t, exec .copy16 s = .next t ∧
        (∀ k < 16, t.outAt (s.regs.arg0.toNat + k) =
          if s.regs.arg2 = 0#32 then s.inAt (s.regs.arg1.toNat + k) else s.outAt (s.regs.arg1.toNat + k)) ∧
        (∀ a, a < s.regs.arg0.toNat ∨ s.regs.arg0.toNat + 16 ≤ a → t.outAt a = s.outAt a) ∧
        t.outDraw = s.outDraw ∧ t.phase = .idle ∧ t.regs = { s.regs with status := 0#8 } ∧ t.dec = s.dec ∧
        coreKept s t) ∧
    (1 < s.regs.arg2.toNat ∨ s.outputSize < s.regs.arg0.toNat + 16 ∨ s.outputSize < s.regs.arg1.toNat + 16 →
      exec .copy16 s = .next { s with phase := .idle, regs := { s.regs with status := 9#8, outSize := 0#32 } })

/-- The wide copies, source and destination apart (the source in IN, or the ranges in OUT disjoint): the n bytes are
moved and no other byte changes (R66, R67, R68). -/
def Obligations.WideCopiesMoveTheirBytes : Prop :=
  ∀ (s : State) (i : Instr) (n : Nat),
    (i, n) ∈ [(Instr.copy32, 32), (Instr.copy48, 48), (Instr.copy64, 64)] →
    s.regs.arg2.toNat ≤ 1 → s.regs.arg0.toNat + n ≤ s.outputSize → s.regs.arg1.toNat + n ≤ s.outputSize →
    (s.regs.arg2 = 0#32 ∨ s.regs.arg0.toNat + n ≤ s.regs.arg1.toNat ∨ s.regs.arg1.toNat + n ≤ s.regs.arg0.toNat) →
    ∃ t, exec i s = .next t ∧
      (∀ k < n, t.outAt (s.regs.arg0.toNat + k) =
        if s.regs.arg2 = 0#32 then s.inAt (s.regs.arg1.toNat + k) else s.outAt (s.regs.arg1.toNat + k)) ∧
      (∀ a, a < s.regs.arg0.toNat ∨ s.regs.arg0.toNat + n ≤ a → t.outAt a = s.outAt a) ∧
      t.outDraw = s.outDraw ∧ t.phase = .idle ∧ t.regs = { s.regs with status := 0#8 } ∧ t.dec = s.dec ∧ coreKept s t

/-- A wide copy is its 16-byte chunks in ascending order, each read whole before it is written, overlap or not: it
leaves what COPY16, issued again and again with ARG0 and ARG1 moved on by 16, leaves (R66, R67, R68). -/
def Obligations.WideCopiesAreChunksInOrder : Prop :=
  ∀ (s : State) (wide narrow : Instr) (n : Nat),
    (wide, narrow, n) ∈ [(Instr.copy32, Instr.copy16, 16), (Instr.copy48, Instr.copy32, 32),
      (Instr.copy64, Instr.copy48, 48)] →
    s.regs.arg2.toNat ≤ 1 → s.regs.arg0.toNat + (n + 16) ≤ s.outputSize → s.regs.arg1.toNat + (n + 16) ≤ s.outputSize →
    ∃ u v, exec narrow s = .next u ∧
      exec .copy16 { u with regs := { u.regs with arg0 := BitVec.ofNat 32 (s.regs.arg0.toNat + n),
                                                  arg1 := BitVec.ofNat 32 (s.regs.arg1.toNat + n) } } = .next v ∧
      exec wide s = .next { v with regs := { v.regs with arg0 := s.regs.arg0, arg1 := s.regs.arg1 } }

/-- A wide copy whose arguments are out of range is rejected with ERR_ARG and changes nothing but STATUS and OUT_SIZE
(R66, R67, R68, R162). -/
def Obligations.WideCopiesRejectBadArguments : Prop :=
  ∀ (s : State) (i : Instr) (n : Nat),
    (i, n) ∈ [(Instr.copy32, 32), (Instr.copy48, 48), (Instr.copy64, 64)] →
    (1 < s.regs.arg2.toNat ∨ s.outputSize < s.regs.arg0.toNat + n ∨ s.outputSize < s.regs.arg1.toNat + n) →
    exec i s = .next { s with phase := .idle, regs := { s.regs with status := 9#8, outSize := 0#32 } }

/-- RD16LE: RES0 <- IN[a] + 256*IN[a+1], nothing else but STATUS; an index without room for two bytes is rejected
(R69). -/
def Obligations.Rd16leReadsTheLittleEndianWord : Prop :=
  ∀ s : State,
    (s.regs.arg0.toNat + 2 ≤ s.outputSize →
      exec .rd16le s = .next { s with
        phase := .idle,
        regs := { s.regs with
          res0 := (s.inAt s.regs.arg0.toNat).setWidth 32 + 256#32 * (s.inAt (s.regs.arg0.toNat + 1)).setWidth 32,
          status := 0#8 } }) ∧
    (s.outputSize < s.regs.arg0.toNat + 2 →
      exec .rd16le s = .next { s with phase := .idle, regs := { s.regs with status := 9#8, outSize := 0#32 } })

/-- WR16LE: OUT[a] <- v[7:0], OUT[a+1] <- v[15:8], no other byte of OUT and nothing else but STATUS; an index without
room, or a value above 65535, is rejected (R70). -/
def Obligations.Wr16leStoresTheLittleEndianWord : Prop :=
  ∀ s : State,
    (s.regs.arg0.toNat + 2 ≤ s.outputSize → s.regs.arg1.toNat ≤ 65535 →
      ∃ t, exec .wr16le s = .next t ∧
        t.outAt s.regs.arg0.toNat = s.regs.arg1.extractLsb' 0 8 ∧
        t.outAt (s.regs.arg0.toNat + 1) = s.regs.arg1.extractLsb' 8 8 ∧
        (∀ a, a ≠ s.regs.arg0.toNat → a ≠ s.regs.arg0.toNat + 1 → t.outAt a = s.outAt a) ∧
        t.outDraw = s.outDraw ∧ t.phase = .idle ∧ t.regs = { s.regs with status := 0#8 } ∧ t.dec = s.dec ∧
        coreKept s t) ∧
    (s.outputSize < s.regs.arg0.toNat + 2 ∨ 65535 < s.regs.arg1.toNat →
      exec .wr16le s = .next { s with phase := .idle, regs := { s.regs with status := 9#8, outSize := 0#32 } })

/-! ### The match index -/

/-- HASH4 with the default hashes: RES0 takes the top B bits of the symbol XORed onto its bottom B bits, B being
BLOCK_BITS - 1 for HashF and BLOCK_BITS for HashM; a selector above 1 is rejected (R81, R82, R83). -/
def Obligations.Hash4FoldsTheSymbol : Prop :=
  ∀ s : State,
    (s.regs.arg1 = 0#32 → s.build.hashF = .fold →
      exec .hash4 s = .next { s with
        phase := .idle,
        regs := { s.regs with
          res0 := (s.regs.arg0 >>> (32 - (blockBits s.build.geometry - 1))) ^^^
            (s.regs.arg0 &&& BitVec.ofNat 32 (2 ^ (blockBits s.build.geometry - 1) - 1)),
          status := 0#8 } }) ∧
    (s.regs.arg1 = 1#32 → s.build.hashM = .fold →
      exec .hash4 s = .next { s with
        phase := .idle,
        regs := { s.regs with
          res0 := (s.regs.arg0 >>> (32 - blockBits s.build.geometry)) ^^^
            (s.regs.arg0 &&& BitVec.ofNat 32 (2 ^ blockBits s.build.geometry - 1)),
          status := 0#8 } }) ∧
    (1 < s.regs.arg1.toNat →
      exec .hash4 s = .next { s with phase := .idle, regs := { s.regs with status := 9#8, outSize := 0#32 } })

/-- Whatever the hash functions of the unit, HASH4 answers a bucket of the table it was asked for, and writes nothing
else but STATUS (R5, R81, R82, R83). -/
def Obligations.Hash4StaysInTheTable : Prop :=
  ∀ s : State, s.regs.arg1.toNat ≤ 1 →
    ∃ r : Word, exec .hash4 s = .next { s with phase := .idle, regs := { s.regs with res0 := r, status := 0#8 } } ∧
      (s.regs.arg1 = 0#32 → r.toNat < hashSz s.build.geometry) ∧
      (s.regs.arg1 = 1#32 → r.toNat < hashPlusSz s.build.geometry)

/-- MatchLen without extensions (R84): 0 where the guard fails; else the common prefix under the four caps, or 0 where
that is below 4. -/
def Obligations.MatchLenIsTheCappedRun : Prop :=
  ∀ (m : Memory) (first second anchor size : Nat),
    (¬ (first < second ∧ first < anchor ∧ anchor ≤ second ∧ second < size) →
      matchLen m first second anchor size false = 0) ∧
    (first < second → first < anchor → anchor ≤ second → second < size →
      ∃ n, n ≤ 16 ∧ first + n ≤ anchor ∧ second + n ≤ size ∧ n ≤ second - first ∧
        (∀ k < n, inByte m (first + k) = inByte m (second + k)) ∧
        (n < 16 → first + n < anchor → second + n < size → n < second - first →
          inByte m (first + n) ≠ inByte m (second + n)) ∧
        matchLen m first second anchor size false = if 4 ≤ n then n else 0)

/-- MatchLen with extensions (R85): the common prefix under the caps, rounded down to 64, 48, 32 or at most 16, or 0
where that is below 4; 0 where the guard fails. -/
def Obligations.MatchLenRoundsToEncodableLengths : Prop :=
  ∀ (m : Memory) (first second anchor size : Nat),
    (¬ (first < second ∧ first < anchor ∧ anchor ≤ second ∧ second < size) →
      matchLen m first second anchor size true = 0) ∧
    (first < second → first < anchor → anchor ≤ second → second < size →
      ∃ n, n ≤ 64 ∧ first + n ≤ anchor ∧ second + n ≤ size ∧ n ≤ second - first ∧
        (∀ k < n, inByte m (first + k) = inByte m (second + k)) ∧
        (n < 64 → first + n < anchor → second + n < size → n < second - first →
          inByte m (first + n) ≠ inByte m (second + n)) ∧
        matchLen m first second anchor size true =
          (if n = 64 then 64 else if 48 ≤ n then 48 else if 32 ≤ n then 32 else if 16 ≤ n then 16
            else if 4 ≤ n then n else 0))

/-- MATCHLEN: RES0 <- MatchLen of ARG0..ARG3 under EXT, nothing else but STATUS; a size above BLOCK_SIZE is rejected
(R86). -/
def Obligations.MatchlenReportsMatchLen : Prop :=
  ∀ s : State,
    (s.regs.arg3.toNat ≤ s.blockSize →
      exec .matchlen s = .next { s with
        phase := .idle,
        regs := { s.regs with
          res0 := BitVec.ofNat 32 (matchLen s.inMem s.regs.arg0.toNat s.regs.arg1.toNat s.regs.arg2.toNat
            s.regs.arg3.toNat (decide (s.regs.ext = 1#1))),
          status := 0#8 } }) ∧
    (s.blockSize < s.regs.arg3.toNat →
      exec .matchlen s = .next { s with phase := .idle, regs := { s.regs with status := 9#8, outSize := 0#32 } })

/-- PROBE: RES0 and RES1 take the length, which is at least 4, and the position of the probe's result, 0 and 0 for None;
the context is the probe's, DIRTY set; nothing else but STATUS changes; a size above BLOCK_SIZE is rejected and leaves
DIRTY alone (R95). -/
def Obligations.ProbeReportsItsResult : Prop :=
  ∀ s : State,
    (s.regs.arg2.toNat ≤ s.blockSize →
      ∃ (r : ProbeResult) (c : Ctx),
        probeIndex s.build s.inMem s.ctx s.regs.arg0.toNat s.regs.arg1.toNat s.regs.arg2.toNat
          (decide (s.regs.ext = 1#1)) = (r, c) ∧
        c.dirty = true ∧ c.level = s.ctx.level ∧
        (r = none → exec .probe s = .next { s with
          phase := .idle, ctx := c, regs := { s.regs with res0 := 0#32, res1 := 0#32, status := 0#8 } }) ∧
        (∀ len pos, r = some (len, pos) → 4 ≤ len ∧ exec .probe s = .next { s with
          phase := .idle, ctx := c,
          regs := { s.regs with res0 := BitVec.ofNat 32 len, res1 := BitVec.ofNat 32 pos, status := 0#8 } })) ∧
    (s.blockSize < s.regs.arg2.toNat →
      exec .probe s = .next { s with phase := .idle, regs := { s.regs with status := 9#8, outSize := 0#32 } })

/-- A probe within 3 bytes of the end returns None and leaves the index alone; only DIRTY is set (R87). -/
def Obligations.ProbeNearTheEndReturnsNoneAndSetsDirty : Prop :=
  ∀ (b : Build) (m : Memory) (c : Ctx) (i anchor size : Nat) (ext : Bool), size < i + 4 →
    probeIndex b m c i anchor size ext = (none, { c with dirty := true })

/-- A FastRef hit, in the first live entry that holds the symbol: with a match length of at least 4 the entry's
position becomes `i` and the old one is returned; otherwise None, and nothing changes but DIRTY (R80, R88, R89). -/
def Obligations.FastRefHitRefreshesTheEntry : Prop :=
  ∀ (b : Build) (m : Memory) (c : Ctx) (i anchor size : Nat) (ext : Bool) (h : Nat) (e : Fin 4),
    c.level = 0#4 → i + 4 ≤ size → h = hashF b (symAt m i) →
    e.val < (fastAt c h).count.toNat → ((fastAt c h).entry[e]).sym = symAt m i →
    (∀ f : Fin 4, f.val < e.val → ((fastAt c h).entry[f]).sym ≠ symAt m i) →
    (4 ≤ matchLen m ((fastAt c h).entry[e]).pos.toNat i anchor size ext →
      ∃ c', probeIndex b m c i anchor size ext =
          (some (matchLen m ((fastAt c h).entry[e]).pos.toNat i anchor size ext, ((fastAt c h).entry[e]).pos.toNat), c') ∧
        (fastAt c' h).count = (fastAt c h).count ∧
        (fastAt c' h).entry[e] = ⟨symAt m i, word i⟩ ∧
        (∀ f : Fin 4, f ≠ e → (fastAt c' h).entry[f] = (fastAt c h).entry[f]) ∧
        (∀ g, g ≠ h → fastAt c' g = fastAt c g) ∧
        c'.multi = c.multi ∧ c'.pool = c.pool ∧ c'.poolCur = c.poolCur ∧ c'.level = c.level ∧ c'.dirty = true) ∧
    (matchLen m ((fastAt c h).entry[e]).pos.toNat i anchor size ext < 4 →
      probeIndex b m c i anchor size ext = (none, { c with dirty := true }))

/-- A FastRef miss appends an entry where the bucket has room and forgets the symbol where it has four (R90). -/
def Obligations.FastRefMissAppends : Prop :=
  ∀ (b : Build) (m : Memory) (c : Ctx) (i anchor size : Nat) (ext : Bool) (h : Nat),
    c.level = 0#4 → i + 4 ≤ size → h = hashF b (symAt m i) →
    (∀ f : Fin 4, f.val < (fastAt c h).count.toNat → ((fastAt c h).entry[f]).sym ≠ symAt m i) →
    (∀ k : Fin 4, (fastAt c h).count.toNat = k.val →
      ∃ c', probeIndex b m c i anchor size ext = (none, c') ∧
        (fastAt c' h).count.toNat = k.val + 1 ∧ (fastAt c' h).entry[k] = ⟨symAt m i, word i⟩ ∧
        (∀ f : Fin 4, f ≠ k → (fastAt c' h).entry[f] = (fastAt c h).entry[f]) ∧
        (∀ g, g ≠ h → fastAt c' g = fastAt c g) ∧
        c'.multi = c.multi ∧ c'.pool = c.pool ∧ c'.poolCur = c.poolCur ∧ c'.level = c.level ∧ c'.dirty = true) ∧
    (4 ≤ (fastAt c h).count.toNat → probeIndex b m c i anchor size ext = (none, { c with dirty := true }))

/-- A MultiRef hit on a symbol seen once: with a match length of at least 4 and room in the pool it takes a slot of L
words, puts both positions there, and the entry becomes (slot, 2); otherwise None, and nothing changes but DIRTY
(R91, R92). -/
def Obligations.MultiRefFirstRepeatTakesASlot : Prop :=
  ∀ (b : Build) (m : Memory) (c : Ctx) (i anchor size : Nat) (ext : Bool) (h : Nat) (e : Fin 4),
    c.level ≠ 0#4 → i + 4 ≤ size → h = hashM b (symAt m i) →
    e.val < (multiAt c h).count.toNat → ((multiAt c h).entry[e]).sym = symAt m i →
    (∀ f : Fin 4, f.val < e.val → ((multiAt c h).entry[f]).sym ≠ symAt m i) →
    ((multiAt c h).entry[e]).occ = 1#32 →
    (4 ≤ matchLen m ((multiAt c h).entry[e]).pos.toNat i anchor size ext →
      c.poolCur.toNat + min (2 ^ c.level.toNat) 1024 ≤ b.poolEntries.toNat →
      ∃ c', probeIndex b m c i anchor size ext =
          (some (matchLen m ((multiAt c h).entry[e]).pos.toNat i anchor size ext, ((multiAt c h).entry[e]).pos.toNat), c') ∧
        c'.poolCur.toNat = c.poolCur.toNat + min (2 ^ c.level.toNat) 1024 ∧
        poolAt b c' c.poolCur.toNat = ((multiAt c h).entry[e]).pos ∧ poolAt b c' (c.poolCur.toNat + 1) = word i ∧
        (∀ k, k ≠ c.poolCur.toNat → k ≠ c.poolCur.toNat + 1 → poolAt b c' k = poolAt b c k) ∧
        (multiAt c' h).count = (multiAt c h).count ∧
        (multiAt c' h).entry[e] = ⟨symAt m i, c.poolCur, 2#32⟩ ∧
        (∀ f : Fin 4, f ≠ e → (multiAt c' h).entry[f] = (multiAt c h).entry[f]) ∧
        (∀ g, g ≠ h → multiAt c' g = multiAt c g) ∧
        c'.fast = c.fast ∧ c'.level = c.level ∧ c'.dirty = true) ∧
    (matchLen m ((multiAt c h).entry[e]).pos.toNat i anchor size ext < 4 ∨
        b.poolEntries.toNat < c.poolCur.toNat + min (2 ^ c.level.toNat) 1024 →
      probeIndex b m c i anchor size ext = (none, { c with dirty := true }))

/-- A MultiRef hit on a symbol seen at least twice. Slot word `k` is eligible when its match length is at least 4 and
it lies less than 65 504 before the anchor. With no eligible word the result is None and nothing changes but DIRTY.
Otherwise the result is an eligible word's, of the greatest length and among those of the latest position; `i` is
written to the ring at `occ mod L` and M_OCC goes up by one (R91, R93). The ring lies in the pool where the slot does, and
M_OCC goes up where its 32 bits hold the sum: past these the model's free values stand (logs 25 and 11). -/
def Obligations.MultiRefRepeatPicksTheBest : Prop :=
  ∀ (b : Build) (m : Memory) (c : Ctx) (i anchor size : Nat) (ext : Bool) (h : Nat) (e : Fin 4) (base occ : Word)
    (width : Nat) (len pos : Nat → Nat),
    c.level ≠ 0#4 → i + 4 ≤ size → h = hashM b (symAt m i) →
    e.val < (multiAt c h).count.toNat → (multiAt c h).entry[e] = ⟨symAt m i, base, occ⟩ →
    (∀ f : Fin 4, f.val < e.val → ((multiAt c h).entry[f]).sym ≠ symAt m i) →
    2 ≤ occ.toNat → width = min (2 ^ c.level.toNat) 1024 →
    (∀ k, pos k = (poolAt b c (base.toNat + k)).toNat) → (∀ k, len k = matchLen m (pos k) i anchor size ext) →
    ((∀ k < min occ.toNat width, ¬ (4 ≤ len k ∧ anchor - pos k < 65504)) →
      probeIndex b m c i anchor size ext = (none, { c with dirty := true })) ∧
    ((∃ k < min occ.toNat width, 4 ≤ len k ∧ anchor - pos k < 65504) →
      ∃ k c', k < min occ.toNat width ∧ 4 ≤ len k ∧ anchor - pos k < 65504 ∧
        probeIndex b m c i anchor size ext = (some (len k, pos k), c') ∧
        (∀ j < min occ.toNat width, 4 ≤ len j → anchor - pos j < 65504 →
          len j < len k ∨ (len j = len k ∧ pos j ≤ pos k)) ∧
        (base.toNat + width ≤ b.poolEntries.toNat → poolAt b c' (base.toNat + occ.toNat % width) = word i) ∧
        (∀ j, j ≠ base.toNat + occ.toNat % width → poolAt b c' j = poolAt b c j) ∧
        (multiAt c' h).count = (multiAt c h).count ∧
        ((multiAt c' h).entry[e]).sym = symAt m i ∧ ((multiAt c' h).entry[e]).pos = base ∧
        (occ.toNat + 1 < 2 ^ 32 → ((multiAt c' h).entry[e]).occ.toNat = occ.toNat + 1) ∧
        (∀ f : Fin 4, f ≠ e → (multiAt c' h).entry[f] = (multiAt c h).entry[f]) ∧
        (∀ g, g ≠ h → multiAt c' g = multiAt c g) ∧
        c'.fast = c.fast ∧ c'.poolCur = c.poolCur ∧ c'.level = c.level ∧ c'.dirty = true)

/-- A MultiRef miss appends an entry seen once where the bucket has room and forgets the symbol where it has four
(R94). -/
def Obligations.MultiRefMissAppends : Prop :=
  ∀ (b : Build) (m : Memory) (c : Ctx) (i anchor size : Nat) (ext : Bool) (h : Nat),
    c.level ≠ 0#4 → i + 4 ≤ size → h = hashM b (symAt m i) →
    (∀ f : Fin 4, f.val < (multiAt c h).count.toNat → ((multiAt c h).entry[f]).sym ≠ symAt m i) →
    (∀ k : Fin 4, (multiAt c h).count.toNat = k.val →
      ∃ c', probeIndex b m c i anchor size ext = (none, c') ∧
        (multiAt c' h).count.toNat = k.val + 1 ∧ (multiAt c' h).entry[k] = ⟨symAt m i, word i, 1#32⟩ ∧
        (∀ f : Fin 4, f ≠ k → (multiAt c' h).entry[f] = (multiAt c h).entry[f]) ∧
        (∀ g, g ≠ h → multiAt c' g = multiAt c g) ∧
        c'.fast = c.fast ∧ c'.pool = c.pool ∧ c'.poolCur = c.poolCur ∧ c'.level = c.level ∧ c'.dirty = true) ∧
    (4 ≤ (multiAt c h).count.toNat → probeIndex b m c i anchor size ext = (none, { c with dirty := true }))

/-- What a probe's result guarantees, whatever the index contains (R98). -/
def Obligations.ProbeResultIsARealRun : Prop :=
  ∀ (b : Build) (m : Memory) (c c' : Ctx) (i anchor size len pos : Nat) (ext : Bool),
    probeIndex b m c i anchor size ext = (some (len, pos), c') →
    pos < anchor ∧ anchor ≤ i ∧ pos + len ≤ anchor ∧ i + len ≤ size ∧
    (∀ k < len, inByte m (pos + k) = inByte m (i + k)) ∧
    ((4 ≤ len ∧ len ≤ 16) ∨ (ext = true ∧ (len = 32 ∨ len = 48 ∨ len = 64))) ∧
    (∀ e : Fin 4, c.level ≠ 0#4 → findMulti (multiAt c (hashM b (symAt m i))) (symAt m i) = some e →
      2 ≤ ((multiAt c (hashM b (symAt m i))).entry[e]).occ.toNat → anchor - pos < 65504)

/-! ### The encoder -/

/-- ENCODE refuses an input above BLOCK_SIZE with ERR_INSIZE and, the size being legal, a context that was not reset
with ERR_NOT_RESET, in this order and before any effect (R105, R163, R165). -/
def Obligations.EncodeRefusesBeforeAnyEffect : Prop :=
  ∀ s : State,
    (s.blockSize < s.inSize →
      exec .encode s = .next { s with phase := .idle, regs := { s.regs with status := 3#8, outSize := 0#32 } }) ∧
    (s.inSize ≤ s.blockSize → s.ctx.dirty = true →
      exec .encode s = .next { s with phase := .idle, regs := { s.regs with status := 8#8, outSize := 0#32 } })

/-- ENCODE completes on every legal input in a context that is not DIRTY, whatever the index contains: header, then scan
iterations until `e_i` = size, then the tail; STATUS is OK, DIRTY is set, exactly the bytes below OUT_SIZE = `e_o` hold
specified values, and the registers of the host, the decoder registers, IN, CTX_LEVEL and the build are as they were (R42,
R105 to R107, R115). One iteration probes at `e_i` against the anchor of the pair that a back-reference found there would
belong to. With an accepted candidate it emits the pending literal, if any, and then the back-reference, and `e_i` moves by
its length; without one the byte joins the literal run, which is emitted at 16 bytes. Emitted symbols join those held, and
of eight held the first eight go to OUT as one group (R108 to R113). The tail emits the pending literal and writes what is
held as the last group (R114). -/
def Obligations.EncodeCompletes : Prop :=
  (∀ s : State, s.inSize ≤ s.blockSize → s.ctx.dirty = false →
    ∃ (t v : State) (k : Nat) (u : Nat → State),
      ((u 0).ctx = { s.ctx with dirty := true } ∧ scanKept s (u 0) ∧ storedAt s (u 0) 0 (putLE24 s.inSize) ∧
        (u 0).enc.i = 0#32 ∧ (u 0).enc.lit = 0#32 ∧ (u 0).enc.n = 0#32 ∧ (u 0).enc.pa = 0#32 ∧ (u 0).enc.o = 3#32 ∧
        (u 0).enc.gn = 0) ∧
      (∀ j < k, (u j).enc.i.toNat < s.inSize ∧ scanStep s.inSize (u j) = .next (u (j + 1))) ∧
      (u k).enc.i.toNat = s.inSize ∧ encodeTail (u k) = .next v ∧
      exec .encode s = .next t ∧ t.phase = .idle ∧
      t.regs = { s.regs with status := 0#8, outSize := v.enc.o } ∧ t.enc = v.enc ∧ t.ctx = v.ctx ∧
      t.ctx.dirty = true ∧ t.ctx.level = s.ctx.level ∧
      3 ≤ t.regs.outSize.toNat ∧ t.regs.outSize.toNat ≤ t.outputSize ∧
      (∀ a < t.regs.outSize.toNat, t.outAt a = v.outAt a) ∧
      (t.outAt 0).toNat + 256 * (t.outAt 1).toNat + 65536 * (t.outAt 2).toNat = s.inSize ∧
      (∀ a, (Memory.get? t.outMem a).isSome = true ↔ a < t.regs.outSize.toNat) ∧
      t.dec = s.dec ∧ t.inMem = s.inMem ∧ t.build = s.build) ∧
  (∀ (s : State) (size i lit n : Nat) (a lp : Word) (r : ProbeResult) (c : Ctx),
    i = s.enc.i.toNat → lit = s.enc.lit.toNat → n = s.enc.n.toNat →
    lit ≤ i → i < lit + 16 → i < size → size ≤ s.blockSize →
    s.enc.gn.val ≤ 7 → s.enc.held.all (Desc.packable s.extOn) = true → s.enc.o.toNat + 133 ≤ s.outputSize →
    a = (if (n + if lit < i then 1 else 0) % 2 = 0 then s.enc.i else if lit < i then s.enc.lit else s.enc.pa) →
    lp = (if n % 2 = 0 then s.enc.lit else s.enc.pa) →
    probeIndex s.build s.inMem s.ctx i a.toNat size s.extOn = (r, c) →
    ∃ t, scanStep size s = .next t ∧ t.ctx = c ∧ scanKept s t ∧
      (∀ len pos, r = some (len, pos) → 1 ≤ a.toNat - pos → a.toNat - pos ≤ 65531 → pos + len < a.toNat →
        t.enc.i.toNat = i + len ∧ t.enc.lit = t.enc.i ∧ i + len ≤ size ∧
        (lit < i →
          emits s t [⟨true, BitVec.ofNat 8 (i - lit), s.enc.lit, lp⟩, ⟨false, BitVec.ofNat 8 len, word pos, a⟩] ∧
          t.enc.n = s.enc.n + 2#32 ∧ t.enc.pa = (if n % 2 = 0 then s.enc.lit else s.enc.i)) ∧
        (lit = i →
          emits s t [⟨false, BitVec.ofNat 8 len, word pos, a⟩] ∧
          t.enc.n = s.enc.n + 1#32 ∧ t.enc.pa = (if n % 2 = 0 then s.enc.i else s.enc.pa))) ∧
      ((∀ len pos, r = some (len, pos) →
          ¬ (1 ≤ a.toNat - pos ∧ a.toNat - pos ≤ 65531 ∧ pos + len < a.toNat)) →
        t.enc.i.toNat = i + 1 ∧
        (i + 1 < lit + 16 →
          emits s t [] ∧ t.enc.lit = s.enc.lit ∧ t.enc.n = s.enc.n ∧ t.enc.pa = s.enc.pa) ∧
        (i + 1 = lit + 16 →
          emits s t [⟨true, 16#8, s.enc.lit, lp⟩] ∧ t.enc.lit = t.enc.i ∧ t.enc.n = s.enc.n + 1#32 ∧
            t.enc.pa = lp))) ∧
  (∀ (s : State) (i lit : Nat) (lp : Word) (all : List Desc),
    i = s.enc.i.toNat → lit = s.enc.lit.toNat → lit ≤ i → i < lit + 16 →
    s.enc.gn.val ≤ 7 → s.enc.held.all (Desc.packable s.extOn) = true → s.enc.o.toNat + 133 ≤ s.outputSize →
    lp = (if s.enc.n.toNat % 2 = 0 then s.enc.lit else s.enc.pa) →
    all = s.enc.held ++ (if lit < i then [⟨true, BitVec.ofNat 8 (i - lit), s.enc.lit, lp⟩] else []) →
    ∃ t, encodeTail s = .next t ∧ t.ctx = s.ctx ∧ scanKept s t ∧ t.enc.gn = 0 ∧
      (all = [] → t.enc.o = s.enc.o ∧ outKept s t) ∧
      (all ≠ [] → t.enc.o.toNat = s.enc.o.toNat + (groupBytes s all).length ∧
        storedAt s t s.enc.o.toNat (groupBytes s all)))

/-- The greatest payload: at most size + floor(5*size/128) + 8 bytes, which is at most OUTPUT_SIZE (R117 (c)). -/
def Obligations.EncodeOutputIsBounded : Prop :=
  ∀ s t : State, s.inSize ≤ s.blockSize → s.ctx.dirty = false → exec .encode s = .next t →
    t.regs.outSize.toNat ≤ s.inSize + 5 * s.inSize / 128 + 8 ∧ t.regs.outSize.toNat ≤ s.outputSize

/-- An empty block encodes to the three header bytes 00 00 00 (R114, D19). -/
def Obligations.EncodeOfAnEmptyBlock : Prop :=
  ∀ s : State, s.inSize = 0 → s.ctx.dirty = false →
    ∃ t, exec .encode s = .next t ∧ t.regs.status = 0#8 ∧ t.regs.outSize = 3#32 ∧
      t.outAt 0 = 0#8 ∧ t.outAt 1 = 0#8 ∧ t.outAt 2 = 0#8

/-- A candidate the encoder accepts is a back-reference the decoder can execute: offset 1..65531, source strictly before
the anchor, a length that has an encoding, and the bytes it stands for (R109, R116). -/
def Obligations.AcceptedCandidateIsLegal : Prop :=
  ∀ (b : Build) (m : Memory) (c : Ctx) (i a size len pos : Nat) (ext : Bool),
    acceptCandidate (probeIndex b m c i a size ext).1 a = some (len, pos) →
    pos ≤ a ∧ 1 ≤ a - pos ∧ a - pos ≤ 65531 ∧ pos + len < a ∧ a ≤ i ∧ i + len ≤ size ∧
    (∃ nib, nibbleOf false len ext = some nib) ∧ ∀ k < len, inByte m (pos + k) = inByte m (i + k)

/-- ENCODE is a function of the input block: two units of one build, at one level and with one EXT, each with a context
that holds no live entry, encode equal inputs to equal payloads, whatever else they hold (R118). -/
def Obligations.EncodeIsAFunctionOfTheInput : Prop :=
  ∀ s u t : State,
    s.build = u.build → s.ctx.level = u.ctx.level → s.regs.ext = u.regs.ext → s.regs.inSize = u.regs.inSize →
    (∀ a < s.inSize, s.inAt a = u.inAt a) →
    s.ctx.dirty = false → u.ctx.dirty = false → s.ctx.poolCur = 0#32 → u.ctx.poolCur = 0#32 →
    (∀ h, (fastAt s.ctx h).count = 0#8 ∧ (multiAt s.ctx h).count = 0#8) →
    (∀ h, (fastAt u.ctx h).count = 0#8 ∧ (multiAt u.ctx h).count = 0#8) →
    exec .encode s = .next t → t.regs.status = 0#8 →
    ∃ v, exec .encode u = .next v ∧ v.regs.status = 0#8 ∧ v.regs.outSize = t.regs.outSize ∧
      ∀ a < t.regs.outSize.toNat, v.outAt a = t.outAt a

/-- Round trip: what ENCODE makes of an input, DECODE on any unit of the same geometry, with the same EXT, turns back
into that input (R138, R185). -/
def Obligations.DecodeOfEncodedBlock : Prop :=
  ∀ (s u : State) (input : List Byte) (ext : Bool),
    input.length ≤ s.blockSize → s.ctx.dirty = false → u.build.geometry = s.build.geometry →
    ∃ t v, callEncode s input ext = .next t ∧ t.regs.status = 0#8 ∧
      callDecode u t.result ext = .next v ∧ v.regs.status = 0#8 ∧ v.result = input

/-- A payload made with EXT = 0 decodes to its input with EXT = 1 as well (R184). -/
def Obligations.PlainPayloadDecodesUnderExtensions : Prop :=
  ∀ (s u : State) (input : List Byte),
    input.length ≤ s.blockSize → s.ctx.dirty = false → u.build.geometry = s.build.geometry →
    ∃ t v, callEncode s input false = .next t ∧ t.regs.status = 0#8 ∧
      callDecode u t.result true = .next v ∧ v.regs.status = 0#8 ∧ v.result = input

/-! ### The decoder -/

/-- DECODE refuses an IN_SIZE above OUTPUT_SIZE or below 3 with ERR_INSIZE before any effect (R125, R165). -/
def Obligations.DecodeRefusesBadInputSizes : Prop :=
  ∀ s : State, s.outputSize < s.inSize ∨ s.inSize < 3 →
    exec .decode s = .next { s with phase := .idle, regs := { s.regs with status := 3#8, outSize := 0#32 } }

/-- DECODE ends on every content of IN: with STATUS OK and OUT_SIZE the announced length, exactly the bytes below it
specified, or with one of its five rejections and OUT_SIZE 0: OUT as it was after ERR_SIZE, and no byte of it specified
after the others (log 19). It writes no register of the host, nothing of the encoder, of the context or of IN (R125, R126,
R136, R142, R164, R165). -/
def Obligations.DecodeAlwaysEnds : Prop :=
  ∀ s : State, 3 ≤ s.inSize → s.inSize ≤ s.outputSize →
    ∃ t, exec .decode s = .next t ∧ t.phase = .idle ∧
      t.regs = { s.regs with status := t.regs.status, outSize := t.regs.outSize } ∧ coreKept s t ∧
      ((t.regs.status = 0#8 ∧ t.regs.outSize.toNat ≤ s.blockSize ∧
          t.regs.outSize.toNat = (s.inAt 0).toNat + 256 * (s.inAt 1).toNat + 65536 * (s.inAt 2).toNat ∧
          ∀ a, (Memory.get? t.outMem a).isSome = true ↔ a < t.regs.outSize.toNat) ∨
        (t.regs.outSize = 0#32 ∧ (t.regs.status = 2#8 ∨ t.regs.status = 4#8 ∨ t.regs.status = 5#8 ∨
          t.regs.status = 6#8 ∨ t.regs.status = 7#8) ∧
          (t.regs.status = 2#8 → outKept s t) ∧
          (t.regs.status ≠ 2#8 → ∀ a, Memory.get? t.outMem a = none)))

/-- DECODE is its symbols: stepping the machine from the place where DECODE fetches the block header, one header, group
header or symbol at a time, comes to the state the whole command answers within IN_SIZE + 1 steps, and stays there
(R125, R142, R190; the two grains are the model's choice, log 1). -/
def Obligations.DecodeIsItsSymbolsInTurn : Prop :=
  ∀ (s : State) (k : Nat), 3 ≤ s.inSize → s.inSize ≤ s.outputSize → s.inSize + 1 ≤ k →
    Host.Core.run Sys2Proof.core k (decodeStart s) = exec .decode s

/-- BLKHDR: a legal announced length sets d_size and the cursors, and DECODE goes on to the first group, or ends OK with
OUT_SIZE 0 for an empty block; a length above BLOCK_SIZE is rejected with ERR_SIZE and OUT untouched (R125, R126,
R136). The value of d_fast_end is that of R139; that the model holds it, and sets it here, is log 15 (DEDUCED). -/
def Obligations.BlockHeaderAnnouncesTheLength : Prop :=
  ∀ (s : State) (size : BitVec 24),
    (0 < size.toNat → size.toNat ≤ s.blockSize →
      exec (.blkhdr size) s = .next { s with
        phase := .group,
        dec := { s.dec with size := size, i := 3#32, j := 0#32,
                            fastEnd := if 512 < size.toNat then word (size.toNat - 256) else 0#32 } }) ∧
    (size = 0#24 →
      ∃ t, exec (.blkhdr size) s = .next t ∧ t.phase = .idle ∧
        t.regs = { s.regs with status := 0#8, outSize := 0#32 } ∧ coreKept s t ∧
        ∀ a, Memory.get? t.outMem a = none) ∧
    (s.blockSize < size.toNat →
      ∃ t, exec (.blkhdr size) s = .next t ∧ t.phase = .idle ∧
        t.regs = { s.regs with status := 2#8, outSize := 0#32 } ∧ coreKept s t ∧ outKept s t)

/-- GROUP: the five bytes are taken, `d_i` moves on by 5, the anchor of the first pair is `d_j` and symbol 0 is next; a
group header that would pass IN_SIZE is rejected with ERR_UNDERRUN, after which no byte of OUT is specified (R127,
R128, R165; that OUT then lists nothing is the model's form of it, log 19). -/
def Obligations.GroupHeaderIsFetchedWhole : Prop :=
  ∀ (s : State) (ctrl sz0 sz1 sz2 sz3 : Byte),
    (s.dec.i.toNat + 5 ≤ s.inSize → s.inSize ≤ s.outputSize →
      exec (.group ctrl sz0 sz1 sz2 sz3) s = .next { s with
        phase := .symbol,
        dec := { s.dec with ctrl := ctrl, sz := #v[sz0, sz1, sz2, sz3], i := word (s.dec.i.toNat + 5), anchor := s.dec.j,
                            k := 0 } }) ∧
    (s.inSize < s.dec.i.toNat + 5 →
      ∃ t, exec (.group ctrl sz0 sz1 sz2 sz3) s = .next t ∧ t.phase = .idle ∧
        t.regs = { s.regs with status := 4#8, outSize := 0#32 } ∧ coreKept s t ∧
        ∀ a, Memory.get? t.outMem a = none)

/-- LIT copies its nib+1 bytes of IN to OUT at `d_j`; both cursors move on by the length; every other byte of OUT reads
as before, as far as it holds a specified value when the block ends here (R130, R135, R136). -/
def Obligations.LitCopiesItsBytes : Prop :=
  ∀ (s : State) (nib : Nibble) (len : Nat), len = nib.toNat + 1 →
    s.dec.i.toNat + len ≤ s.inSize → s.inSize ≤ s.outputSize → s.dec.j.toNat + len ≤ s.dec.size.toNat →
    s.dec.size.toNat ≤ s.blockSize →
    ∃ t, exec (.lit nib) s = .next t ∧
      (∀ k < len, t.outAt (s.dec.j.toNat + k) = s.inAt (s.dec.i.toNat + k)) ∧
      (∀ a, a < s.dec.j.toNat ∨ s.dec.j.toNat + len ≤ a →
        s.dec.j.toNat + len < s.dec.size.toNat ∨ (a < s.dec.size.toNat ∧ (Memory.get? s.outMem a).isSome = true) →
        t.outAt a = s.outAt a) ∧
      coreKept s t ∧ decodeGoesOn s t (s.dec.i.toNat + len) (s.dec.j.toNat + len)

/-- LIT's rejections in their order: input underrun, then output overrun; afterwards no byte of OUT is specified (R130,
R137, R165; log 19). -/
def Obligations.LitRejectsInOrder : Prop :=
  ∀ (s : State) (nib : Nibble) (len : Nat), len = nib.toNat + 1 →
    (s.inSize < s.dec.i.toNat + len →
      ∃ t, exec (.lit nib) s = .next t ∧ t.phase = .idle ∧
        t.regs = { s.regs with status := 4#8, outSize := 0#32 } ∧ coreKept s t ∧
        ∀ a, Memory.get? t.outMem a = none) ∧
    (s.dec.i.toNat + len ≤ s.inSize → s.dec.size.toNat < s.dec.j.toNat + len →
      ∃ t, exec (.lit nib) s = .next t ∧ t.phase = .idle ∧
        t.regs = { s.regs with status := 7#8, outSize := 0#32 } ∧ coreKept s t ∧
        ∀ a, Memory.get? t.outMem a = none)

/-- A back-reference of every form (REF of 1..16 bytes, its forms under EXT, REFX32, REFX48, REFX64) copies its `len`
bytes from `d_anchor - off` to `d_j`; the read cursor moves on by 2 and the write cursor by the length; every other
byte of OUT reads as before, as far as it holds a specified value when the block ends here (R131 to R136). -/
def Obligations.BackReferenceCopiesFromTheAnchor : Prop :=
  ∀ (s : State) (i : Instr) (len off : Nat), refLength i = some len →
    off = (s.inAt s.dec.i.toNat).toNat + 256 * (s.inAt (s.dec.i.toNat + 1)).toNat →
    s.dec.i.toNat + 2 ≤ s.inSize → s.inSize ≤ s.outputSize → 1 ≤ off → off ≤ s.dec.anchor.toNat → len ≤ off →
    s.dec.anchor.toNat ≤ s.dec.j.toNat → s.dec.j.toNat + len ≤ s.dec.size.toNat → s.dec.size.toNat ≤ s.blockSize →
    ∃ t, exec i s = .next t ∧
      (∀ k < len, t.outAt (s.dec.j.toNat + k) = s.outAt (s.dec.anchor.toNat - off + k)) ∧
      (∀ a, a < s.dec.j.toNat ∨ s.dec.j.toNat + len ≤ a →
        s.dec.j.toNat + len < s.dec.size.toNat ∨ (a < s.dec.size.toNat ∧ (Memory.get? s.outMem a).isSome = true) →
        t.outAt a = s.outAt a) ∧
      coreKept s t ∧ decodeGoesOn s t (s.dec.i.toNat + 2) (s.dec.j.toNat + len)

/-- A back-reference's rejections in their order: input underrun, offset 0 or beyond the anchor, source range past the
anchor, output overrun; afterwards no byte of OUT is specified (R131, R137, R165; log 19). -/
def Obligations.BackReferenceRejectsInOrder : Prop :=
  ∀ (s : State) (i : Instr) (len off : Nat) (code : BitVec 8), refLength i = some len →
    off = (s.inAt s.dec.i.toNat).toNat + 256 * (s.inAt (s.dec.i.toNat + 1)).toNat →
    (s.inSize < s.dec.i.toNat + 2 ∧ code = 4#8) ∨
    (s.dec.i.toNat + 2 ≤ s.inSize ∧ s.inSize ≤ s.outputSize ∧
      (((off = 0 ∨ s.dec.anchor.toNat < off) ∧ code = 5#8) ∨
       (1 ≤ off ∧ off ≤ s.dec.anchor.toNat ∧ off < len ∧ code = 6#8) ∨
       (1 ≤ off ∧ off ≤ s.dec.anchor.toNat ∧ len ≤ off ∧ s.dec.size.toNat < s.dec.j.toNat + len ∧ code = 7#8))) →
    ∃ t, exec i s = .next t ∧ t.phase = .idle ∧ t.regs = { s.regs with status := code, outSize := 0#32 } ∧
      coreKept s t ∧ ∀ a, Memory.get? t.outMem a = none

/-- DECODE of an assembled listing completes with STATUS OK, OUT_SIZE the listing's size and OUT the block the listing
stands for; a listing with an illegal back-reference is rejected with ERR_OFFSET or ERR_OVERLAP (R45, R61, R125 to
R137). A REF of 1 to 3 bytes lies outside the domain of NibbleOf (R54); that it assembles to the nibble len - 1, which
LenOf reads back, is the model's deduction (log 21, DEDUCED). -/
def Obligations.DecodeOfAssembledListing : Prop :=
  ∀ (s : State) (l : Listing), l.wf s.build.geometry = true → (assemble l).length ≤ s.outputSize →
    s.inSize = (assemble l).length → s.inRun 0 (assemble l).length = assemble l → decide (s.regs.ext = 1#1) = l.ext →
    (∀ out, listingOutput l = some out →
      ∃ t, exec .decode s = .next t ∧ t.phase = .idle ∧
        t.regs = { s.regs with status := 0#8, outSize := BitVec.ofNat 32 l.size } ∧ t.result = out ∧ coreKept s t) ∧
    (listingOutput l = none →
      ∃ t, exec .decode s = .next t ∧ t.phase = .idle ∧ (t.regs.status = 5#8 ∨ t.regs.status = 6#8) ∧
        t.regs.outSize = 0#32)

/-! ### Rejections, reset, whole-machine rules -/

/-- The status codes (R160). -/
def Obligations.StatusCodesAreNumbered : Prop :=
  statusByte .ok = 0#8 ∧ statusByte .errCmd = 1#8 ∧ statusByte .errSize = 2#8 ∧ statusByte .errInsize = 3#8 ∧
  statusByte .errUnderrun = 4#8 ∧ statusByte .errOffset = 5#8 ∧ statusByte .errOverlap = 6#8 ∧
  statusByte .errOverrun = 7#8 ∧ statusByte .errNotReset = 8#8 ∧ statusByte .errArg = 9#8

/-- A rejection writes STATUS and OUT_SIZE and nothing else is saved or changed by the rejection itself (R164). The
model's own `phase` says that the command has ended. -/
def Obligations.RejectionWritesStatusAndOutSize : Prop :=
  ∀ (s : State) (c : StatusCode),
    s.reject c = { s with phase := .idle, regs := { s.regs with status := statusByte c, outSize := 0#32 } }

/-- After power-on every register of R10 is 0, CTX_LEVEL, DIRTY, POOL_CUR and every count are 0, and nothing starts by
itself (R24, R180). -/
def Obligations.PowerOnState : Prop :=
  State.reset.regs = ⟨0#8, 0#8, 0#1, 0#4, 0#32, 0#32, 0#32, 0#32, 0#32, 0#32, 0#32, 0#32⟩ ∧
  State.reset.ctx.level = 0#4 ∧ State.reset.ctx.dirty = false ∧ State.reset.ctx.poolCur = 0#32 ∧
  (∀ h, (fastAt State.reset.ctx h).count = 0#8) ∧ (∀ h, (multiAt State.reset.ctx h).count = 0#8) ∧
  step State.reset = .next State.reset

/-- The unit's invariants hold after power-on. The build of `State.reset` and the values of what the spec leaves
unspecified there are the model's choice (logs 5, 9 and 10). -/
def Obligations.UnitInvariantAtPowerOn : Prop := unitInv State.reset

/-- Every step keeps the unit's invariants: the memories' canonical form and bounds, the valid bytes of OUT, the status
codes, the state inside DECODE, the match index, and the clean context (R10, R12, R30, R97, R160, R183). -/
def Obligations.StepKeepsTheUnitInvariant : Prop :=
  ∀ s t : State, unitInv s → step s = .next t → unitInv t

/-- From a state with the unit's invariants no step faults or refuses: every command ends (R37, R119, R142, R189). -/
def Obligations.StepNeverStops : Prop := ∀ s : State, unitInv s → Completes (step s)

/-- No instruction writes a register of the host, CMD among them (log 18), a byte of IN, or the build (R10, R21, R23,
R42). -/
def Obligations.HostStateIsNeverWritten : Prop :=
  ∀ (i : Instr) (s t : State), exec i s = .next t → hostRegsKept s t ∧ t.inMem = s.inMem ∧ t.build = s.build

/-- NOP, CTX_RESET, RD16LE, HASH4, MATCHLEN and PROBE change no byte of OUT; nor does a leaf command or ENCODE that is
rejected (R42, R165). DECODE that is rejected changes none where it ends with ERR_SIZE or ERR_INSIZE; where it ends with
ERR_UNDERRUN, ERR_OFFSET, ERR_OVERLAP or ERR_OVERRUN, and where a group header or a symbol of its stream ends with one of
these, no byte of OUT is specified afterwards (R165; that OUT then lists nothing is the model's form of it, log 19). -/
def Obligations.OutIsWrittenOnlyByItsWriters : Prop :=
  ∀ (i : Instr) (s t : State), exec i s = .next t →
    (i ∈ [Instr.nop, .ctxReset, .rd16le, .hash4, .matchlen, .probe] → outKept s t) ∧
    (i ∈ [Instr.copy16, .copy32, .copy48, .copy64, .wr16le, .encode] → t.regs.status ≠ 0#8 → outKept s t) ∧
    (i = .decode → t.regs.status = 2#8 ∨ t.regs.status = 3#8 → outKept s t) ∧
    (i = .decode → t.regs.status = 4#8 ∨ t.regs.status = 5#8 ∨ t.regs.status = 6#8 ∨ t.regs.status = 7#8 →
      ∀ a, Memory.get? t.outMem a = none) ∧
    ((refLength i ≠ none ∨ (∃ nib, i = .lit nib) ∨ ∃ c b0 b1 b2 b3, i = .group c b0 b1 b2 b3) → t.phase = .idle →
      t.regs.status ≠ 0#8 → ∀ a, Memory.get? t.outMem a = none)

/-- Only CTX_RESET, ENCODE and PROBE write the context; only CTX_RESET samples the level or clears DIRTY (R16, R20, R22,
R148, R188). -/
def Obligations.ContextIsWrittenOnlyByItsWriters : Prop :=
  ∀ (i : Instr) (s t : State), exec i s = .next t → i ≠ .ctxReset →
    t.ctx.level = s.ctx.level ∧ (s.ctx.dirty = true → t.ctx.dirty = true) ∧
    (i ≠ .encode → i ≠ .probe → t.ctx = s.ctx)

/-- Every command ends: nothing is left to fetch, STATUS holds a code of R160, a status other than OK comes with
OUT_SIZE 0, and a leaf command, NOP or CTX_RESET that ends OK leaves OUT_SIZE as it was (R145, R151, R160, R164). -/
def Obligations.CommandsEndWithTheirStatus : Prop :=
  ∀ (code : Byte) (i : Instr) (s t : State), decodeCmd code = .ok i → exec i s = .next t →
    t.phase = .idle ∧ t.regs.status.toNat ≤ 9 ∧ (t.regs.status ≠ 0#8 → t.regs.outSize = 0#32) ∧
    (t.regs.status = 0#8 → i ≠ .encode → i ≠ .decode → t.regs.outSize = s.regs.outSize)

/-! ### The host's side -/

/-- Host writes: truncated to the register's width, ignored for STATUS, OUT_SIZE, RES0 and RES1, and a write of CMD
issues the command (R10, R145, R151). -/
def Obligations.HostWritesAreTruncatedOrIgnored : Prop :=
  ∀ (s : State) (draw v : Nat),
    (∀ r ∈ [HostReg.inSize, .arg0, .arg1, .arg2, .arg3], (s.writeReg r v).readReg draw r = v % 2 ^ 32) ∧
    (s.writeReg .ext v).readReg draw .ext = v % 2 ∧ (s.writeReg .level v).readReg draw .level = v % 16 ∧
    (∀ r ∈ [HostReg.status, .outSize, .res0, .res1], s.writeReg r v = s) ∧
    (s.writeReg .cmd v).regs.cmd.toNat = v % 256 ∧ (s.writeReg .cmd v).phase = .issued ∧
    (∀ r q : HostReg, r ≠ q → q ≠ .cmd → (s.writeReg r v).readReg draw q = s.readReg draw q)

/-- The container prefix carries EXT in bit 23 and the length in bits 0..22 (R62). -/
def Obligations.ContainerPrefixSplits : Prop :=
  ∀ (ext : Bool) (length : Nat), length < 2 ^ 23 →
    prefixExt (makePrefix ext length) = ext ∧ prefixLength (makePrefix ext length) = length
end

