-- ==== Sys2Proof/Laws/Lists.lean ====
section
/-! SUPPORT. The laws of the key lists: read after write, the canonical form kept, equal readings are equal data. -/

namespace Sys2Proof.Machine

variable {α : Type}

@[simp] theorem lookupKey_nil (a : Nat) : lookupKey ([] : List (Nat × α)) a = none := rfl

theorem lookupKey_cons (k : Nat) (v : α) (t : List (Nat × α)) (a : Nat) :
    lookupKey ((k, v) :: t) a = if a = k then some v else lookupKey t a := rfl

/-- Read after write, the same key. -/
@[simp] theorem lookupKey_insertKey_same (l : List (Nat × α)) (a : Nat) (v : α) :
    lookupKey (insertKey l a v) a = some v := by
  induction l with
  | nil => simp [insertKey, lookupKey]
  | cons p t ih =>
    obtain ⟨k, w⟩ := p
    simp only [insertKey]
    split
    · simp [lookupKey]
    · split
      · simp [lookupKey]
      · rename_i h; simp [lookupKey, h, ih]

/-- Read after write, another key. -/
theorem lookupKey_insertKey_other (l : List (Nat × α)) {a b : Nat} (v : α) (h : b ≠ a) :
    lookupKey (insertKey l a v) b = lookupKey l b := by
  induction l with
  | nil => simp [insertKey, lookupKey, h]
  | cons p t ih =>
    obtain ⟨k, w⟩ := p
    simp only [insertKey]
    split
    · simp [lookupKey, h]
    · split
      · rename_i hk; subst hk; simp [lookupKey, h]
      · simp [lookupKey, ih]

theorem lookupKey_insertKey (l : List (Nat × α)) (a b : Nat) (v : α) :
    lookupKey (insertKey l a v) b = if b = a then some v else lookupKey l b := by
  by_cases h : b = a
  · subst h; simp
  · simp [h, lookupKey_insertKey_other l v h]

/-- What a list holds after a write: the new entry or one it held before. -/
theorem mem_of_mem_insertKey {l : List (Nat × α)} {a : Nat} {v : α} {p : Nat × α} (h : p ∈ insertKey l a v) :
    p = (a, v) ∨ p ∈ l := by
  induction l with
  | nil => simp [insertKey] at h; exact .inl h
  | cons q t ih =>
    obtain ⟨k, w⟩ := q
    simp only [insertKey] at h
    split at h
    · exact List.mem_cons.1 h
    · split at h
      · exact (List.mem_cons.1 h).imp_right (List.mem_cons_of_mem _)
      · rcases List.mem_cons.1 h with h | h
        · exact .inr (h ▸ List.mem_cons_self)
        · exact (ih h).imp_right (List.mem_cons_of_mem _)

/-- A write keeps the keys rising. -/
theorem keysRising_insertKey {l : List (Nat × α)} (a : Nat) (v : α) (h : keysRising l) :
    keysRising (insertKey l a v) := by
  induction l with
  | nil => simp [insertKey, keysRising]
  | cons q t ih =>
    obtain ⟨k, w⟩ := q
    have hq := List.pairwise_cons.1 h
    simp only [insertKey]
    split
    · rename_i hak
      refine List.pairwise_cons.2 ⟨?_, h⟩
      intro p hp
      rcases List.mem_cons.1 hp with rfl | hp
      · exact hak
      · exact lt_trans hak (hq.1 p hp)
    · split
      · rename_i hk; subst hk
        exact List.pairwise_cons.2 ⟨hq.1, hq.2⟩
      · refine List.pairwise_cons.2 ⟨?_, ih hq.2⟩
        intro p hp
        rcases mem_of_mem_insertKey hp with rfl | hp
        · dsimp only; omega
        · exact hq.1 p hp

/-- Erasing keeps the keys rising. -/
theorem keysRising_eraseKey {l : List (Nat × α)} (a : Nat) (h : keysRising l) : keysRising (eraseKey l a) :=
  h.filter _

/-- Dropping entries keeps the keys rising. -/
theorem keysRising_filter {l : List (Nat × α)} (q : Nat × α → Bool) (h : keysRising l) : keysRising (l.filter q) :=
  h.filter _

theorem lookupKey_filter_key (l : List (Nat × α)) (q : Nat → Bool) (a : Nat) :
    lookupKey (l.filter (fun p => q p.1)) a = if q a then lookupKey l a else none := by
  induction l with
  | nil => simp
  | cons p t ih =>
    obtain ⟨k, w⟩ := p
    by_cases hk : q k
    · by_cases hak : a = k
      · subst hak; simp [hk, lookupKey]
      · simp [hk, lookupKey, hak, ih]
    · by_cases hak : a = k
      · subst hak; simpa [hk, lookupKey] using ih
      · simp [hk, lookupKey, hak, ih]

theorem lookupKey_eraseKey (l : List (Nat × α)) (a b : Nat) :
    lookupKey (eraseKey l a) b = if b = a then none else lookupKey l b := by
  have := lookupKey_filter_key l (fun k => k != a) b
  unfold eraseKey
  rw [this]
  by_cases h : b = a <;> simp [h]

/-- Read after write where unlisted keys have a value. -/
theorem getKey_setKey [DecidableEq α] (d : α) (l : List (Nat × α)) (a b : Nat) (v : α) :
    getKey d (setKey d l a v) b = if b = a then v else getKey d l b := by
  unfold getKey setKey
  by_cases hv : v = d
  · subst hv
    by_cases hb : b = a <;> simp [lookupKey_eraseKey, hb]
  · by_cases hb : b = a
    · subst hb; simp [hv]
    · simp [hv, hb, lookupKey_insertKey_other l v hb]

theorem keysRising_setKey [DecidableEq α] {d : α} {l : List (Nat × α)} (a : Nat) (v : α) (h : keysRising l) :
    keysRising (setKey d l a v) := by
  unfold setKey
  split
  · exact keysRising_eraseKey a h
  · exact keysRising_insertKey a v h

/-- A write lists no default value. -/
theorem setKey_no_default [DecidableEq α] {d : α} {l : List (Nat × α)} (a : Nat) (v : α)
    (h : ∀ p ∈ l, p.2 ≠ d) : ∀ p ∈ setKey d l a v, p.2 ≠ d := by
  intro p hp
  unfold setKey at hp
  split at hp
  · exact h p (List.mem_of_mem_filter hp)
  · rename_i hv
    rcases mem_of_mem_insertKey hp with rfl | hp
    · exact hv
    · exact h p hp

theorem mem_setKey [DecidableEq α] {d : α} {l : List (Nat × α)} {a : Nat} {v : α} {p : Nat × α}
    (hp : p ∈ setKey d l a v) : p = (a, v) ∨ p ∈ l := by
  unfold setKey at hp
  split at hp
  · exact .inr (List.mem_of_mem_filter hp)
  · exact mem_of_mem_insertKey hp

/-- In a rising list a listed entry is what its key reads. -/
theorem lookupKey_of_mem {l : List (Nat × α)} (h : keysRising l) {a : Nat} {v : α} (hm : (a, v) ∈ l) :
    lookupKey l a = some v := by
  induction l with
  | nil => cases hm
  | cons q t ih =>
    obtain ⟨k, w⟩ := q
    have hq := List.pairwise_cons.1 h
    rcases List.mem_cons.1 hm with hm | hm
    · obtain ⟨rfl, rfl⟩ := Prod.mk.inj hm
      simp [lookupKey]
    · have hlt : k < a := hq.1 _ hm
      have hne : a ≠ k := by omega
      simp [lookupKey, hne, ih hq.2 hm]

theorem mem_of_lookupKey {l : List (Nat × α)} {a : Nat} {v : α} (h : lookupKey l a = some v) : (a, v) ∈ l := by
  induction l with
  | nil => simp at h
  | cons q t ih =>
    obtain ⟨k, w⟩ := q
    rw [lookupKey_cons] at h
    split at h
    · rename_i hk; subst hk
      obtain rfl := Option.some.inj h
      exact List.mem_cons_self
    · exact List.mem_cons_of_mem _ (ih h)

theorem lookupKey_isSome_iff {l : List (Nat × α)} {a : Nat} : (lookupKey l a).isSome ↔ ∃ v, (a, v) ∈ l := by
  induction l with
  | nil => simp
  | cons q t ih =>
    obtain ⟨k, w⟩ := q
    by_cases hk : a = k
    · subst hk; simp [lookupKey]
    · simp [lookupKey, hk, ih]

/-- Equal readings are equal data: two rising lists that list the same value for every key are the same list. -/
theorem keysRising_ext {l l' : List (Nat × α)} (h : keysRising l) (h' : keysRising l')
    (he : ∀ a, lookupKey l a = lookupKey l' a) : l = l' := by
  induction l generalizing l' with
  | nil =>
    cases l' with
    | nil => rfl
    | cons q t => obtain ⟨k, w⟩ := q; have := he k; simp [lookupKey] at this
  | cons p t ih =>
    obtain ⟨k, v⟩ := p
    have hp := List.pairwise_cons.1 h
    cases l' with
    | nil => have := he k; simp [lookupKey] at this
    | cons q t' =>
      obtain ⟨k', v'⟩ := q
      have hq := List.pairwise_cons.1 h'
      have key : k = k' := by
        rcases lt_trichotomy k k' with hlt | heq | hgt
        · have h1 := he k
          have hne : k ≠ k' := by omega
          simp [lookupKey, hne] at h1
          have h2 : k' < k := hq.1 _ (mem_of_lookupKey h1.symm)
          omega
        · exact heq
        · have h1 := he k'
          have hne : k' ≠ k := by omega
          simp [lookupKey, hne] at h1
          have h2 : k < k' := hp.1 _ (mem_of_lookupKey h1)
          omega
      subst key
      have hv := he k
      simp [lookupKey] at hv
      subst hv
      have ht : t = t' := by
        refine ih hp.2 hq.2 (fun a => ?_)
        by_cases hak : a = k
        · subst hak
          have h1 : lookupKey t a = none := by
            cases hl : lookupKey t a with
            | none => rfl
            | some x => exact absurd (hp.1 _ (mem_of_lookupKey hl)) (lt_irrefl _)
          have h2 : lookupKey t' a = none := by
            cases hl : lookupKey t' a with
            | none => rfl
            | some x => exact absurd (hq.1 _ (mem_of_lookupKey hl)) (lt_irrefl _)
          rw [h1, h2]
        · have := he a
          simpa [lookupKey, hak] using this
      rw [ht]

end Sys2Proof.Machine
end

