-- ==== Sys2Proof/Laws/State.lean ====
section
/-! SUPPORT. One lemma per field per update of the state, true by rfl. -/

namespace Sys2Proof.Machine

variable (s : State)

/-! ### endWith -/

@[simp] theorem State.endWith_build (c : StatusCode) : (s.endWith c).build = s.build := rfl
@[simp] theorem State.endWith_phase (c : StatusCode) : (s.endWith c).phase = .idle := rfl
@[simp] theorem State.endWith_dec (c : StatusCode) : (s.endWith c).dec = s.dec := rfl
@[simp] theorem State.endWith_enc (c : StatusCode) : (s.endWith c).enc = s.enc := rfl
@[simp] theorem State.endWith_ctx (c : StatusCode) : (s.endWith c).ctx = s.ctx := rfl
@[simp] theorem State.endWith_inMem (c : StatusCode) : (s.endWith c).inMem = s.inMem := rfl
@[simp] theorem State.endWith_outMem (c : StatusCode) : (s.endWith c).outMem = s.outMem := rfl
@[simp] theorem State.endWith_outDraw (c : StatusCode) : (s.endWith c).outDraw = s.outDraw := rfl
@[simp] theorem State.endWith_regs_cmd (c : StatusCode) : (s.endWith c).regs.cmd = s.regs.cmd := rfl
@[simp] theorem State.endWith_regs_status (c : StatusCode) : (s.endWith c).regs.status = statusByte c := rfl
@[simp] theorem State.endWith_regs_ext (c : StatusCode) : (s.endWith c).regs.ext = s.regs.ext := rfl
@[simp] theorem State.endWith_regs_level (c : StatusCode) : (s.endWith c).regs.level = s.regs.level := rfl
@[simp] theorem State.endWith_regs_inSize (c : StatusCode) : (s.endWith c).regs.inSize = s.regs.inSize := rfl
@[simp] theorem State.endWith_regs_outSize (c : StatusCode) : (s.endWith c).regs.outSize = s.regs.outSize := rfl
@[simp] theorem State.endWith_regs_arg0 (c : StatusCode) : (s.endWith c).regs.arg0 = s.regs.arg0 := rfl
@[simp] theorem State.endWith_regs_arg1 (c : StatusCode) : (s.endWith c).regs.arg1 = s.regs.arg1 := rfl
@[simp] theorem State.endWith_regs_arg2 (c : StatusCode) : (s.endWith c).regs.arg2 = s.regs.arg2 := rfl
@[simp] theorem State.endWith_regs_arg3 (c : StatusCode) : (s.endWith c).regs.arg3 = s.regs.arg3 := rfl
@[simp] theorem State.endWith_regs_res0 (c : StatusCode) : (s.endWith c).regs.res0 = s.regs.res0 := rfl
@[simp] theorem State.endWith_regs_res1 (c : StatusCode) : (s.endWith c).regs.res1 = s.regs.res1 := rfl
@[simp] theorem State.endWith_extOn_val (c : StatusCode) : (s.endWith c).extOn = s.extOn := rfl
@[simp] theorem State.endWith_inSize_val (c : StatusCode) : (s.endWith c).inSize = s.inSize := rfl
@[simp] theorem State.endWith_outputSize_val (c : StatusCode) : (s.endWith c).outputSize = s.outputSize := rfl
@[simp] theorem State.endWith_blockSize_val (c : StatusCode) : (s.endWith c).blockSize = s.blockSize := rfl

/-! ### complete -/

@[simp] theorem State.complete_build : (s.complete).build = s.build := rfl
@[simp] theorem State.complete_phase : (s.complete).phase = .idle := rfl
@[simp] theorem State.complete_dec : (s.complete).dec = s.dec := rfl
@[simp] theorem State.complete_enc : (s.complete).enc = s.enc := rfl
@[simp] theorem State.complete_ctx : (s.complete).ctx = s.ctx := rfl
@[simp] theorem State.complete_inMem : (s.complete).inMem = s.inMem := rfl
@[simp] theorem State.complete_outMem : (s.complete).outMem = s.outMem := rfl
@[simp] theorem State.complete_outDraw : (s.complete).outDraw = s.outDraw := rfl
@[simp] theorem State.complete_regs_cmd : (s.complete).regs.cmd = s.regs.cmd := rfl
@[simp] theorem State.complete_regs_status : (s.complete).regs.status = 0#8 := rfl
@[simp] theorem State.complete_regs_ext : (s.complete).regs.ext = s.regs.ext := rfl
@[simp] theorem State.complete_regs_level : (s.complete).regs.level = s.regs.level := rfl
@[simp] theorem State.complete_regs_inSize : (s.complete).regs.inSize = s.regs.inSize := rfl
@[simp] theorem State.complete_regs_outSize : (s.complete).regs.outSize = s.regs.outSize := rfl
@[simp] theorem State.complete_regs_arg0 : (s.complete).regs.arg0 = s.regs.arg0 := rfl
@[simp] theorem State.complete_regs_arg1 : (s.complete).regs.arg1 = s.regs.arg1 := rfl
@[simp] theorem State.complete_regs_arg2 : (s.complete).regs.arg2 = s.regs.arg2 := rfl
@[simp] theorem State.complete_regs_arg3 : (s.complete).regs.arg3 = s.regs.arg3 := rfl
@[simp] theorem State.complete_regs_res0 : (s.complete).regs.res0 = s.regs.res0 := rfl
@[simp] theorem State.complete_regs_res1 : (s.complete).regs.res1 = s.regs.res1 := rfl
@[simp] theorem State.complete_extOn_val : (s.complete).extOn = s.extOn := rfl
@[simp] theorem State.complete_inSize_val : (s.complete).inSize = s.inSize := rfl
@[simp] theorem State.complete_outputSize_val : (s.complete).outputSize = s.outputSize := rfl
@[simp] theorem State.complete_blockSize_val : (s.complete).blockSize = s.blockSize := rfl

/-! ### setRes0 -/

@[simp] theorem State.setRes0_build (v : Nat) : (s.setRes0 v).build = s.build := rfl
@[simp] theorem State.setRes0_phase (v : Nat) : (s.setRes0 v).phase = s.phase := rfl
@[simp] theorem State.setRes0_dec (v : Nat) : (s.setRes0 v).dec = s.dec := rfl
@[simp] theorem State.setRes0_enc (v : Nat) : (s.setRes0 v).enc = s.enc := rfl
@[simp] theorem State.setRes0_ctx (v : Nat) : (s.setRes0 v).ctx = s.ctx := rfl
@[simp] theorem State.setRes0_inMem (v : Nat) : (s.setRes0 v).inMem = s.inMem := rfl
@[simp] theorem State.setRes0_outMem (v : Nat) : (s.setRes0 v).outMem = s.outMem := rfl
@[simp] theorem State.setRes0_outDraw (v : Nat) : (s.setRes0 v).outDraw = s.outDraw := rfl
@[simp] theorem State.setRes0_regs_cmd (v : Nat) : (s.setRes0 v).regs.cmd = s.regs.cmd := rfl
@[simp] theorem State.setRes0_regs_status (v : Nat) : (s.setRes0 v).regs.status = s.regs.status := rfl
@[simp] theorem State.setRes0_regs_ext (v : Nat) : (s.setRes0 v).regs.ext = s.regs.ext := rfl
@[simp] theorem State.setRes0_regs_level (v : Nat) : (s.setRes0 v).regs.level = s.regs.level := rfl
@[simp] theorem State.setRes0_regs_inSize (v : Nat) : (s.setRes0 v).regs.inSize = s.regs.inSize := rfl
@[simp] theorem State.setRes0_regs_outSize (v : Nat) : (s.setRes0 v).regs.outSize = s.regs.outSize := rfl
@[simp] theorem State.setRes0_regs_arg0 (v : Nat) : (s.setRes0 v).regs.arg0 = s.regs.arg0 := rfl
@[simp] theorem State.setRes0_regs_arg1 (v : Nat) : (s.setRes0 v).regs.arg1 = s.regs.arg1 := rfl
@[simp] theorem State.setRes0_regs_arg2 (v : Nat) : (s.setRes0 v).regs.arg2 = s.regs.arg2 := rfl
@[simp] theorem State.setRes0_regs_arg3 (v : Nat) : (s.setRes0 v).regs.arg3 = s.regs.arg3 := rfl
@[simp] theorem State.setRes0_regs_res0 (v : Nat) : (s.setRes0 v).regs.res0 = BitVec.ofNat 32 v := rfl
@[simp] theorem State.setRes0_regs_res1 (v : Nat) : (s.setRes0 v).regs.res1 = s.regs.res1 := rfl
@[simp] theorem State.setRes0_extOn_val (v : Nat) : (s.setRes0 v).extOn = s.extOn := rfl
@[simp] theorem State.setRes0_inSize_val (v : Nat) : (s.setRes0 v).inSize = s.inSize := rfl
@[simp] theorem State.setRes0_outputSize_val (v : Nat) : (s.setRes0 v).outputSize = s.outputSize := rfl
@[simp] theorem State.setRes0_blockSize_val (v : Nat) : (s.setRes0 v).blockSize = s.blockSize := rfl

/-! ### setRes1 -/

@[simp] theorem State.setRes1_build (v : Nat) : (s.setRes1 v).build = s.build := rfl
@[simp] theorem State.setRes1_phase (v : Nat) : (s.setRes1 v).phase = s.phase := rfl
@[simp] theorem State.setRes1_dec (v : Nat) : (s.setRes1 v).dec = s.dec := rfl
@[simp] theorem State.setRes1_enc (v : Nat) : (s.setRes1 v).enc = s.enc := rfl
@[simp] theorem State.setRes1_ctx (v : Nat) : (s.setRes1 v).ctx = s.ctx := rfl
@[simp] theorem State.setRes1_inMem (v : Nat) : (s.setRes1 v).inMem = s.inMem := rfl
@[simp] theorem State.setRes1_outMem (v : Nat) : (s.setRes1 v).outMem = s.outMem := rfl
@[simp] theorem State.setRes1_outDraw (v : Nat) : (s.setRes1 v).outDraw = s.outDraw := rfl
@[simp] theorem State.setRes1_regs_cmd (v : Nat) : (s.setRes1 v).regs.cmd = s.regs.cmd := rfl
@[simp] theorem State.setRes1_regs_status (v : Nat) : (s.setRes1 v).regs.status = s.regs.status := rfl
@[simp] theorem State.setRes1_regs_ext (v : Nat) : (s.setRes1 v).regs.ext = s.regs.ext := rfl
@[simp] theorem State.setRes1_regs_level (v : Nat) : (s.setRes1 v).regs.level = s.regs.level := rfl
@[simp] theorem State.setRes1_regs_inSize (v : Nat) : (s.setRes1 v).regs.inSize = s.regs.inSize := rfl
@[simp] theorem State.setRes1_regs_outSize (v : Nat) : (s.setRes1 v).regs.outSize = s.regs.outSize := rfl
@[simp] theorem State.setRes1_regs_arg0 (v : Nat) : (s.setRes1 v).regs.arg0 = s.regs.arg0 := rfl
@[simp] theorem State.setRes1_regs_arg1 (v : Nat) : (s.setRes1 v).regs.arg1 = s.regs.arg1 := rfl
@[simp] theorem State.setRes1_regs_arg2 (v : Nat) : (s.setRes1 v).regs.arg2 = s.regs.arg2 := rfl
@[simp] theorem State.setRes1_regs_arg3 (v : Nat) : (s.setRes1 v).regs.arg3 = s.regs.arg3 := rfl
@[simp] theorem State.setRes1_regs_res0 (v : Nat) : (s.setRes1 v).regs.res0 = s.regs.res0 := rfl
@[simp] theorem State.setRes1_regs_res1 (v : Nat) : (s.setRes1 v).regs.res1 = BitVec.ofNat 32 v := rfl
@[simp] theorem State.setRes1_extOn_val (v : Nat) : (s.setRes1 v).extOn = s.extOn := rfl
@[simp] theorem State.setRes1_inSize_val (v : Nat) : (s.setRes1 v).inSize = s.inSize := rfl
@[simp] theorem State.setRes1_outputSize_val (v : Nat) : (s.setRes1 v).outputSize = s.outputSize := rfl
@[simp] theorem State.setRes1_blockSize_val (v : Nat) : (s.setRes1 v).blockSize = s.blockSize := rfl

/-! ### setOutSize -/

@[simp] theorem State.setOutSize_build (v : Nat) : (s.setOutSize v).build = s.build := rfl
@[simp] theorem State.setOutSize_phase (v : Nat) : (s.setOutSize v).phase = s.phase := rfl
@[simp] theorem State.setOutSize_dec (v : Nat) : (s.setOutSize v).dec = s.dec := rfl
@[simp] theorem State.setOutSize_enc (v : Nat) : (s.setOutSize v).enc = s.enc := rfl
@[simp] theorem State.setOutSize_ctx (v : Nat) : (s.setOutSize v).ctx = s.ctx := rfl
@[simp] theorem State.setOutSize_inMem (v : Nat) : (s.setOutSize v).inMem = s.inMem := rfl
@[simp] theorem State.setOutSize_outMem (v : Nat) : (s.setOutSize v).outMem = s.outMem := rfl
@[simp] theorem State.setOutSize_outDraw (v : Nat) : (s.setOutSize v).outDraw = s.outDraw := rfl
@[simp] theorem State.setOutSize_regs_cmd (v : Nat) : (s.setOutSize v).regs.cmd = s.regs.cmd := rfl
@[simp] theorem State.setOutSize_regs_status (v : Nat) : (s.setOutSize v).regs.status = s.regs.status := rfl
@[simp] theorem State.setOutSize_regs_ext (v : Nat) : (s.setOutSize v).regs.ext = s.regs.ext := rfl
@[simp] theorem State.setOutSize_regs_level (v : Nat) : (s.setOutSize v).regs.level = s.regs.level := rfl
@[simp] theorem State.setOutSize_regs_inSize (v : Nat) : (s.setOutSize v).regs.inSize = s.regs.inSize := rfl
@[simp] theorem State.setOutSize_regs_outSize (v : Nat) : (s.setOutSize v).regs.outSize = BitVec.ofNat 32 v := rfl
@[simp] theorem State.setOutSize_regs_arg0 (v : Nat) : (s.setOutSize v).regs.arg0 = s.regs.arg0 := rfl
@[simp] theorem State.setOutSize_regs_arg1 (v : Nat) : (s.setOutSize v).regs.arg1 = s.regs.arg1 := rfl
@[simp] theorem State.setOutSize_regs_arg2 (v : Nat) : (s.setOutSize v).regs.arg2 = s.regs.arg2 := rfl
@[simp] theorem State.setOutSize_regs_arg3 (v : Nat) : (s.setOutSize v).regs.arg3 = s.regs.arg3 := rfl
@[simp] theorem State.setOutSize_regs_res0 (v : Nat) : (s.setOutSize v).regs.res0 = s.regs.res0 := rfl
@[simp] theorem State.setOutSize_regs_res1 (v : Nat) : (s.setOutSize v).regs.res1 = s.regs.res1 := rfl
@[simp] theorem State.setOutSize_extOn_val (v : Nat) : (s.setOutSize v).extOn = s.extOn := rfl
@[simp] theorem State.setOutSize_inSize_val (v : Nat) : (s.setOutSize v).inSize = s.inSize := rfl
@[simp] theorem State.setOutSize_outputSize_val (v : Nat) : (s.setOutSize v).outputSize = s.outputSize := rfl
@[simp] theorem State.setOutSize_blockSize_val (v : Nat) : (s.setOutSize v).blockSize = s.blockSize := rfl

/-! ### reject -/

@[simp] theorem State.reject_build (c : StatusCode) : (s.reject c).build = s.build := rfl
@[simp] theorem State.reject_phase (c : StatusCode) : (s.reject c).phase = .idle := rfl
@[simp] theorem State.reject_dec (c : StatusCode) : (s.reject c).dec = s.dec := rfl
@[simp] theorem State.reject_enc (c : StatusCode) : (s.reject c).enc = s.enc := rfl
@[simp] theorem State.reject_ctx (c : StatusCode) : (s.reject c).ctx = s.ctx := rfl
@[simp] theorem State.reject_inMem (c : StatusCode) : (s.reject c).inMem = s.inMem := rfl
@[simp] theorem State.reject_outMem (c : StatusCode) : (s.reject c).outMem = s.outMem := rfl
@[simp] theorem State.reject_outDraw (c : StatusCode) : (s.reject c).outDraw = s.outDraw := rfl
@[simp] theorem State.reject_regs_cmd (c : StatusCode) : (s.reject c).regs.cmd = s.regs.cmd := rfl
@[simp] theorem State.reject_regs_status (c : StatusCode) : (s.reject c).regs.status = statusByte c := rfl
@[simp] theorem State.reject_regs_ext (c : StatusCode) : (s.reject c).regs.ext = s.regs.ext := rfl
@[simp] theorem State.reject_regs_level (c : StatusCode) : (s.reject c).regs.level = s.regs.level := rfl
@[simp] theorem State.reject_regs_inSize (c : StatusCode) : (s.reject c).regs.inSize = s.regs.inSize := rfl
@[simp] theorem State.reject_regs_outSize (c : StatusCode) : (s.reject c).regs.outSize = 0#32 := rfl
@[simp] theorem State.reject_regs_arg0 (c : StatusCode) : (s.reject c).regs.arg0 = s.regs.arg0 := rfl
@[simp] theorem State.reject_regs_arg1 (c : StatusCode) : (s.reject c).regs.arg1 = s.regs.arg1 := rfl
@[simp] theorem State.reject_regs_arg2 (c : StatusCode) : (s.reject c).regs.arg2 = s.regs.arg2 := rfl
@[simp] theorem State.reject_regs_arg3 (c : StatusCode) : (s.reject c).regs.arg3 = s.regs.arg3 := rfl
@[simp] theorem State.reject_regs_res0 (c : StatusCode) : (s.reject c).regs.res0 = s.regs.res0 := rfl
@[simp] theorem State.reject_regs_res1 (c : StatusCode) : (s.reject c).regs.res1 = s.regs.res1 := rfl
@[simp] theorem State.reject_extOn_val (c : StatusCode) : (s.reject c).extOn = s.extOn := rfl
@[simp] theorem State.reject_inSize_val (c : StatusCode) : (s.reject c).inSize = s.inSize := rfl
@[simp] theorem State.reject_outputSize_val (c : StatusCode) : (s.reject c).outputSize = s.outputSize := rfl
@[simp] theorem State.reject_blockSize_val (c : StatusCode) : (s.reject c).blockSize = s.blockSize := rfl

/-! ### rejectStream -/

@[simp] theorem State.rejectStream_build (c : StatusCode) : (s.rejectStream c).build = s.build := rfl
@[simp] theorem State.rejectStream_phase (c : StatusCode) : (s.rejectStream c).phase = .idle := rfl
@[simp] theorem State.rejectStream_dec (c : StatusCode) : (s.rejectStream c).dec = s.dec := rfl
@[simp] theorem State.rejectStream_enc (c : StatusCode) : (s.rejectStream c).enc = s.enc := rfl
@[simp] theorem State.rejectStream_ctx (c : StatusCode) : (s.rejectStream c).ctx = s.ctx := rfl
@[simp] theorem State.rejectStream_inMem (c : StatusCode) : (s.rejectStream c).inMem = s.inMem := rfl
@[simp] theorem State.rejectStream_outDraw (c : StatusCode) : (s.rejectStream c).outDraw = s.outDraw + 1 := rfl
@[simp] theorem State.rejectStream_regs_cmd (c : StatusCode) : (s.rejectStream c).regs.cmd = s.regs.cmd := rfl
@[simp] theorem State.rejectStream_regs_status (c : StatusCode) : (s.rejectStream c).regs.status = statusByte c := rfl
@[simp] theorem State.rejectStream_regs_ext (c : StatusCode) : (s.rejectStream c).regs.ext = s.regs.ext := rfl
@[simp] theorem State.rejectStream_regs_level (c : StatusCode) : (s.rejectStream c).regs.level = s.regs.level := rfl
@[simp] theorem State.rejectStream_regs_inSize (c : StatusCode) : (s.rejectStream c).regs.inSize = s.regs.inSize := rfl
@[simp] theorem State.rejectStream_regs_outSize (c : StatusCode) : (s.rejectStream c).regs.outSize = 0#32 := rfl
@[simp] theorem State.rejectStream_regs_arg0 (c : StatusCode) : (s.rejectStream c).regs.arg0 = s.regs.arg0 := rfl
@[simp] theorem State.rejectStream_regs_arg1 (c : StatusCode) : (s.rejectStream c).regs.arg1 = s.regs.arg1 := rfl
@[simp] theorem State.rejectStream_regs_arg2 (c : StatusCode) : (s.rejectStream c).regs.arg2 = s.regs.arg2 := rfl
@[simp] theorem State.rejectStream_regs_arg3 (c : StatusCode) : (s.rejectStream c).regs.arg3 = s.regs.arg3 := rfl
@[simp] theorem State.rejectStream_regs_res0 (c : StatusCode) : (s.rejectStream c).regs.res0 = s.regs.res0 := rfl
@[simp] theorem State.rejectStream_regs_res1 (c : StatusCode) : (s.rejectStream c).regs.res1 = s.regs.res1 := rfl
@[simp] theorem State.rejectStream_extOn_val (c : StatusCode) : (s.rejectStream c).extOn = s.extOn := rfl
@[simp] theorem State.rejectStream_inSize_val (c : StatusCode) : (s.rejectStream c).inSize = s.inSize := rfl
@[simp] theorem State.rejectStream_outputSize_val (c : StatusCode) : (s.rejectStream c).outputSize = s.outputSize := rfl
@[simp] theorem State.rejectStream_blockSize_val (c : StatusCode) : (s.rejectStream c).blockSize = s.blockSize := rfl

/-! ### loseOut -/

@[simp] theorem State.loseOut_build (n : Nat) : (s.loseOut n).build = s.build := rfl
@[simp] theorem State.loseOut_phase (n : Nat) : (s.loseOut n).phase = s.phase := rfl
@[simp] theorem State.loseOut_regs (n : Nat) : (s.loseOut n).regs = s.regs := rfl
@[simp] theorem State.loseOut_dec (n : Nat) : (s.loseOut n).dec = s.dec := rfl
@[simp] theorem State.loseOut_enc (n : Nat) : (s.loseOut n).enc = s.enc := rfl
@[simp] theorem State.loseOut_ctx (n : Nat) : (s.loseOut n).ctx = s.ctx := rfl
@[simp] theorem State.loseOut_inMem (n : Nat) : (s.loseOut n).inMem = s.inMem := rfl
@[simp] theorem State.loseOut_outMem (n : Nat) : (s.loseOut n).outMem = s.outMem.filter (fun c => decide (c.1 < n)) := rfl
@[simp] theorem State.loseOut_outDraw (n : Nat) : (s.loseOut n).outDraw = s.outDraw + 1 := rfl
@[simp] theorem State.loseOut_extOn_val (n : Nat) : (s.loseOut n).extOn = s.extOn := rfl
@[simp] theorem State.loseOut_inSize_val (n : Nat) : (s.loseOut n).inSize = s.inSize := rfl
@[simp] theorem State.loseOut_outputSize_val (n : Nat) : (s.loseOut n).outputSize = s.outputSize := rfl
@[simp] theorem State.loseOut_blockSize_val (n : Nat) : (s.loseOut n).blockSize = s.blockSize := rfl

/-! ### withDec -/

@[simp] theorem State.withDec_build (d : DecRegs) : (s.withDec d).build = s.build := rfl
@[simp] theorem State.withDec_phase (d : DecRegs) : (s.withDec d).phase = s.phase := rfl
@[simp] theorem State.withDec_regs (d : DecRegs) : (s.withDec d).regs = s.regs := rfl
@[simp] theorem State.withDec_dec (d : DecRegs) : (s.withDec d).dec = d := rfl
@[simp] theorem State.withDec_enc (d : DecRegs) : (s.withDec d).enc = s.enc := rfl
@[simp] theorem State.withDec_ctx (d : DecRegs) : (s.withDec d).ctx = s.ctx := rfl
@[simp] theorem State.withDec_inMem (d : DecRegs) : (s.withDec d).inMem = s.inMem := rfl
@[simp] theorem State.withDec_outMem (d : DecRegs) : (s.withDec d).outMem = s.outMem := rfl
@[simp] theorem State.withDec_outDraw (d : DecRegs) : (s.withDec d).outDraw = s.outDraw := rfl
@[simp] theorem State.withDec_extOn_val (d : DecRegs) : (s.withDec d).extOn = s.extOn := rfl
@[simp] theorem State.withDec_inSize_val (d : DecRegs) : (s.withDec d).inSize = s.inSize := rfl
@[simp] theorem State.withDec_outputSize_val (d : DecRegs) : (s.withDec d).outputSize = s.outputSize := rfl
@[simp] theorem State.withDec_blockSize_val (d : DecRegs) : (s.withDec d).blockSize = s.blockSize := rfl

/-! ### withEnc -/

@[simp] theorem State.withEnc_build (e : EncRegs) : (s.withEnc e).build = s.build := rfl
@[simp] theorem State.withEnc_phase (e : EncRegs) : (s.withEnc e).phase = s.phase := rfl
@[simp] theorem State.withEnc_regs (e : EncRegs) : (s.withEnc e).regs = s.regs := rfl
@[simp] theorem State.withEnc_dec (e : EncRegs) : (s.withEnc e).dec = s.dec := rfl
@[simp] theorem State.withEnc_enc (e : EncRegs) : (s.withEnc e).enc = e := rfl
@[simp] theorem State.withEnc_ctx (e : EncRegs) : (s.withEnc e).ctx = s.ctx := rfl
@[simp] theorem State.withEnc_inMem (e : EncRegs) : (s.withEnc e).inMem = s.inMem := rfl
@[simp] theorem State.withEnc_outMem (e : EncRegs) : (s.withEnc e).outMem = s.outMem := rfl
@[simp] theorem State.withEnc_outDraw (e : EncRegs) : (s.withEnc e).outDraw = s.outDraw := rfl
@[simp] theorem State.withEnc_extOn_val (e : EncRegs) : (s.withEnc e).extOn = s.extOn := rfl
@[simp] theorem State.withEnc_inSize_val (e : EncRegs) : (s.withEnc e).inSize = s.inSize := rfl
@[simp] theorem State.withEnc_outputSize_val (e : EncRegs) : (s.withEnc e).outputSize = s.outputSize := rfl
@[simp] theorem State.withEnc_blockSize_val (e : EncRegs) : (s.withEnc e).blockSize = s.blockSize := rfl

/-! ### withCtx -/

@[simp] theorem State.withCtx_build (c : Ctx) : (s.withCtx c).build = s.build := rfl
@[simp] theorem State.withCtx_phase (c : Ctx) : (s.withCtx c).phase = s.phase := rfl
@[simp] theorem State.withCtx_regs (c : Ctx) : (s.withCtx c).regs = s.regs := rfl
@[simp] theorem State.withCtx_dec (c : Ctx) : (s.withCtx c).dec = s.dec := rfl
@[simp] theorem State.withCtx_enc (c : Ctx) : (s.withCtx c).enc = s.enc := rfl
@[simp] theorem State.withCtx_ctx (c : Ctx) : (s.withCtx c).ctx = c := rfl
@[simp] theorem State.withCtx_inMem (c : Ctx) : (s.withCtx c).inMem = s.inMem := rfl
@[simp] theorem State.withCtx_outMem (c : Ctx) : (s.withCtx c).outMem = s.outMem := rfl
@[simp] theorem State.withCtx_outDraw (c : Ctx) : (s.withCtx c).outDraw = s.outDraw := rfl
@[simp] theorem State.withCtx_extOn_val (c : Ctx) : (s.withCtx c).extOn = s.extOn := rfl
@[simp] theorem State.withCtx_inSize_val (c : Ctx) : (s.withCtx c).inSize = s.inSize := rfl
@[simp] theorem State.withCtx_outputSize_val (c : Ctx) : (s.withCtx c).outputSize = s.outputSize := rfl
@[simp] theorem State.withCtx_blockSize_val (c : Ctx) : (s.withCtx c).blockSize = s.blockSize := rfl

/-! ### withPhase -/

@[simp] theorem State.withPhase_build (p : Phase) : (s.withPhase p).build = s.build := rfl
@[simp] theorem State.withPhase_phase (p : Phase) : (s.withPhase p).phase = p := rfl
@[simp] theorem State.withPhase_regs (p : Phase) : (s.withPhase p).regs = s.regs := rfl
@[simp] theorem State.withPhase_dec (p : Phase) : (s.withPhase p).dec = s.dec := rfl
@[simp] theorem State.withPhase_enc (p : Phase) : (s.withPhase p).enc = s.enc := rfl
@[simp] theorem State.withPhase_ctx (p : Phase) : (s.withPhase p).ctx = s.ctx := rfl
@[simp] theorem State.withPhase_inMem (p : Phase) : (s.withPhase p).inMem = s.inMem := rfl
@[simp] theorem State.withPhase_outMem (p : Phase) : (s.withPhase p).outMem = s.outMem := rfl
@[simp] theorem State.withPhase_outDraw (p : Phase) : (s.withPhase p).outDraw = s.outDraw := rfl
@[simp] theorem State.withPhase_extOn_val (p : Phase) : (s.withPhase p).extOn = s.extOn := rfl
@[simp] theorem State.withPhase_inSize_val (p : Phase) : (s.withPhase p).inSize = s.inSize := rfl
@[simp] theorem State.withPhase_outputSize_val (p : Phase) : (s.withPhase p).outputSize = s.outputSize := rfl
@[simp] theorem State.withPhase_blockSize_val (p : Phase) : (s.withPhase p).blockSize = s.blockSize := rfl

/-! ### putOut -/

@[simp] theorem State.putOut_build (a : Nat) (bs : List Byte) : (s.putOut a bs).build = s.build := rfl
@[simp] theorem State.putOut_phase (a : Nat) (bs : List Byte) : (s.putOut a bs).phase = s.phase := rfl
@[simp] theorem State.putOut_regs (a : Nat) (bs : List Byte) : (s.putOut a bs).regs = s.regs := rfl
@[simp] theorem State.putOut_dec (a : Nat) (bs : List Byte) : (s.putOut a bs).dec = s.dec := rfl
@[simp] theorem State.putOut_enc (a : Nat) (bs : List Byte) : (s.putOut a bs).enc = s.enc := rfl
@[simp] theorem State.putOut_ctx (a : Nat) (bs : List Byte) : (s.putOut a bs).ctx = s.ctx := rfl
@[simp] theorem State.putOut_inMem (a : Nat) (bs : List Byte) : (s.putOut a bs).inMem = s.inMem := rfl
@[simp] theorem State.putOut_outMem (a : Nat) (bs : List Byte) : (s.putOut a bs).outMem = Memory.putRun s.outMem a bs := rfl
@[simp] theorem State.putOut_outDraw (a : Nat) (bs : List Byte) : (s.putOut a bs).outDraw = s.outDraw := rfl
@[simp] theorem State.putOut_extOn_val (a : Nat) (bs : List Byte) : (s.putOut a bs).extOn = s.extOn := rfl
@[simp] theorem State.putOut_inSize_val (a : Nat) (bs : List Byte) : (s.putOut a bs).inSize = s.inSize := rfl
@[simp] theorem State.putOut_outputSize_val (a : Nat) (bs : List Byte) : (s.putOut a bs).outputSize = s.outputSize := rfl
@[simp] theorem State.putOut_blockSize_val (a : Nat) (bs : List Byte) : (s.putOut a bs).blockSize = s.blockSize := rfl

end Sys2Proof.Machine
end

