-- ==== Sys2Proof/Laws/Memory.lean ====
section
/-! SUPPORT. The laws of IN and OUT: read after write, the canonical form and the bound kept, runs of bytes. -/

namespace Sys2Proof.Machine

/-! ### One byte -/

@[simp] theorem Memory.get?_put_same (m : Memory) (a : Nat) (b : Byte) : Memory.get? (Memory.put m a b) a = some b :=
  lookupKey_insertKey_same m a b

theorem Memory.get?_put_other (m : Memory) {a x : Nat} (b : Byte) (h : x ≠ a) :
    Memory.get? (Memory.put m a b) x = Memory.get? m x :=
  lookupKey_insertKey_other m b h

theorem Memory.wf_put {m : Memory} (a : Nat) (b : Byte) (h : Memory.wf m) : Memory.wf (Memory.put m a b) :=
  keysRising_insertKey a b h

theorem Memory.below_put {m : Memory} {n a : Nat} (b : Byte) (h : Memory.below m n) (ha : a < n) :
    Memory.below (Memory.put m a b) n := by
  intro c hc
  rcases mem_of_mem_insertKey hc with rfl | hc
  · exact ha
  · exact h c hc

/-! ### Runs of bytes -/

/-- Reading after a run was stored: the run's byte inside it, the old byte outside. -/
theorem Memory.get?_putRun (bs : List Byte) (m : Memory) (a x : Nat) :
    Memory.get? (Memory.putRun m a bs) x = if a ≤ x ∧ x < a + bs.length then bs[x - a]? else Memory.get? m x := by
  induction bs generalizing m a with
  | nil =>
    have : ¬ (a ≤ x ∧ x < a) := by omega
    simp [Memory.putRun, this]
  | cons b t ih =>
    simp only [Memory.putRun, ih, List.length_cons]
    by_cases hx : x = a
    · subst hx
      simp
    · rw [Memory.get?_put_other m b hx]
      by_cases h : a + 1 ≤ x ∧ x < a + 1 + t.length
      · have h2 : a ≤ x ∧ x < a + (t.length + 1) := by omega
        have h3 : x - a = (x - (a + 1)) + 1 := by omega
        rw [if_pos h, if_pos h2, h3, List.getElem?_cons_succ]
      · have h2 : ¬ (a ≤ x ∧ x < a + (t.length + 1)) := by omega
        rw [if_neg h, if_neg h2]

theorem Memory.wf_putRun (bs : List Byte) {m : Memory} (a : Nat) (h : Memory.wf m) : Memory.wf (Memory.putRun m a bs) := by
  induction bs generalizing m a with
  | nil => exact h
  | cons b t ih => exact ih (a + 1) (Memory.wf_put a b h)

theorem Memory.below_putRun (bs : List Byte) {m : Memory} {a n : Nat} (h : Memory.below m n)
    (ha : a + bs.length ≤ n) : Memory.below (Memory.putRun m a bs) n := by
  induction bs generalizing m a with
  | nil => exact h
  | cons b t ih =>
    simp only [List.length_cons] at ha
    exact ih (Memory.below_put b h (by omega)) (by omega)

/-- Storing one run after another stores the joined run. -/
theorem Memory.putRun_append (xs ys : List Byte) (m : Memory) (a : Nat) :
    Memory.putRun m a (xs ++ ys) = Memory.putRun (Memory.putRun m a xs) (a + xs.length) ys := by
  induction xs generalizing m a with
  | nil => rfl
  | cons b t ih =>
    have : a + 1 + t.length = a + (t.length + 1) := by omega
    simp [Memory.putRun, ih, this]

@[simp] theorem State.inRun_length (s : State) (a n : Nat) : (s.inRun a n).length = n := by simp [State.inRun]

@[simp] theorem State.outRun_length (s : State) (a n : Nat) : (s.outRun a n).length = n := by simp [State.outRun]

theorem State.inRun_getElem? (s : State) {a n k : Nat} (h : k < n) : (s.inRun a n)[k]? = some (s.inAt (a + k)) := by
  simp [State.inRun, h]

theorem State.outRun_getElem? (s : State) {a n k : Nat} (h : k < n) : (s.outRun a n)[k]? = some (s.outAt (a + k)) := by
  simp [State.outRun, h]

/-- OUT after a run was stored. -/
theorem State.outAt_putOut (s : State) (a : Nat) (bs : List Byte) (x : Nat) :
    (s.putOut a bs).outAt x = if a ≤ x ∧ x < a + bs.length then (bs[x - a]?).getD 0#8 else s.outAt x := by
  unfold State.outAt outByte
  rw [State.putOut_outMem, State.putOut_outDraw, Memory.get?_putRun]
  split
  · rename_i h
    have hl : x - a < bs.length := by omega
    simp [hl]
  · rfl

/-- A stored run is read back. -/
theorem State.outAt_putOut_inside (s : State) {a : Nat} {bs : List Byte} {k : Nat} (h : k < bs.length) :
    (s.putOut a bs).outAt (a + k) = bs[k] := by
  rw [State.outAt_putOut, if_pos (by omega)]
  simp [h]

/-- Outside a stored run OUT reads as before. -/
theorem State.outAt_putOut_outside (s : State) {a : Nat} {bs : List Byte} {x : Nat} (h : x < a ∨ a + bs.length ≤ x) :
    (s.putOut a bs).outAt x = s.outAt x := by
  rw [State.outAt_putOut, if_neg (by omega)]

@[simp] theorem State.inAt_putOut (s : State) (a : Nat) (bs : List Byte) (x : Nat) :
    (s.putOut a bs).inAt x = s.inAt x := rfl

/-! ### Bytes that become unspecified (R42) -/

/-- After `loseOut n` the bytes below `n` hold what they held and the others hold no specified byte. -/
theorem State.get?_loseOut (s : State) (n x : Nat) :
    Memory.get? (s.loseOut n).outMem x = if x < n then Memory.get? s.outMem x else none := by
  have := lookupKey_filter_key s.outMem (fun k => decide (k < n)) x
  simpa [Memory.get?] using this

/-- Below the bound a specified byte reads as before. -/
theorem State.outAt_loseOut (s : State) {n x : Nat} (h : x < n) (hs : (Memory.get? s.outMem x).isSome) :
    (s.loseOut n).outAt x = s.outAt x := by
  unfold State.outAt outByte
  rw [State.get?_loseOut, if_pos h]
  obtain ⟨b, hb⟩ := Option.isSome_iff_exists.1 hs
  simp [hb]

theorem State.wf_loseOut {s : State} (n : Nat) (h : Memory.wf s.outMem) : Memory.wf (s.loseOut n).outMem :=
  keysRising_filter _ h

theorem State.below_loseOut {s : State} {n b : Nat} (h : Memory.below s.outMem b) :
    Memory.below (s.loseOut n).outMem b := fun c hc => h c (List.mem_of_mem_filter hc)

@[simp] theorem State.rejectStream_outMem (s : State) (c : StatusCode) : (s.rejectStream c).outMem = [] := by
  simp [State.rejectStream, State.reject, State.endWith, State.setOutSize, State.loseOut]

/-! ### The checked accesses: what they can answer -/

theorem State.readIn?_eq_some {s : State} {a n : Nat} {bs : List Byte} (h : s.readIn? a n = some bs) :
    a + n ≤ s.outputSize ∧ bs = s.inRun a n := by
  unfold State.readIn? at h
  split at h
  · exact ⟨‹_›, (Option.some.inj h).symm⟩
  · cases h

theorem State.readOut?_eq_some {s : State} {a n : Nat} {bs : List Byte} (h : s.readOut? a n = some bs) :
    a + n ≤ s.outputSize ∧ bs = s.outRun a n := by
  unfold State.readOut? at h
  split at h
  · exact ⟨‹_›, (Option.some.inj h).symm⟩
  · cases h

theorem State.writeOut?_eq_some {s t : State} {a : Nat} {bs : List Byte} (h : s.writeOut? a bs = some t) :
    a + bs.length ≤ s.outputSize ∧ t = s.putOut a bs := by
  unfold State.writeOut? at h
  split at h
  · exact ⟨‹_›, (Option.some.inj h).symm⟩
  · cases h

end Sys2Proof.Machine
end

