-- ==== Sys2Proof/Laws/Ops.lean ====
section
/-! SUPPORT. The laws of the shared operations of Ops.lean: the index arrays, the pool, the sequencing of one command's
steps, the rejection in mid-stream. -/

namespace Sys2Proof.Machine

/-! ### Numbers in 32-bit registers -/

/-- A register of 32 bits holds a number below 2^32 as it is (R6). -/
theorem word_toNat {n : Nat} (h : n < 2 ^ 32) : (word n).toNat = n := by
  rw [BitVec.toNat_ofNat, Nat.mod_eq_of_lt h]

/-! ### Buckets and pool words: read after write -/

theorem fastAt_setFast (c : Ctx) (h g : Nat) (b : FastBucket) :
    fastAt (setFast c h b) g = if g = h then b else fastAt c g := getKey_setKey _ _ _ _ _

theorem multiAt_setMulti (c : Ctx) (h g : Nat) (b : MultiBucket) :
    multiAt (setMulti c h b) g = if g = h then b else multiAt c g := getKey_setKey _ _ _ _ _

/-- A pool word after a write: the written one below POOL_ENTRIES, the old one elsewhere (R19). -/
theorem poolAt_setPool (b : Build) (c : Ctx) (k x : Nat) (v : Word) :
    poolAt b (setPool b c k v) x = if x = k ∧ k < b.poolEntries.toNat then v else poolAt b c x := by
  unfold setPool
  by_cases hk : k < b.poolEntries.toNat
  · rw [if_pos hk]
    unfold poolAt
    by_cases hx : x = k
    · subst hx; simp [hk, getKey_setKey]
    · simp [hx, getKey_setKey]
  · simp [hk]

/-- What a write of a pool word can do: change the pool's words, and nothing else of the context. -/
theorem setPool_frame (b : Build) (c : Ctx) (k : Nat) (v : Word) :
    setPool b c k v = { c with pool := (setPool b c k v).pool } := by
  unfold setPool; split <;> rfl

@[simp] theorem setPool_fast (b : Build) (c : Ctx) (k : Nat) (v : Word) : (setPool b c k v).fast = c.fast := by
  rw [setPool_frame]
@[simp] theorem setPool_multi (b : Build) (c : Ctx) (k : Nat) (v : Word) : (setPool b c k v).multi = c.multi := by
  rw [setPool_frame]
@[simp] theorem setPool_poolCur (b : Build) (c : Ctx) (k : Nat) (v : Word) : (setPool b c k v).poolCur = c.poolCur := by
  rw [setPool_frame]
@[simp] theorem setPool_level (b : Build) (c : Ctx) (k : Nat) (v : Word) : (setPool b c k v).level = c.level := by
  rw [setPool_frame]
@[simp] theorem setPool_dirty (b : Build) (c : Ctx) (k : Nat) (v : Word) : (setPool b c k v).dirty = c.dirty := by
  rw [setPool_frame]

/-- A write of a pool word keeps the pool's form: keys rising, words below POOL_ENTRIES, no word of 0 (R19). -/
theorem pool_setPool (b : Build) (c : Ctx) (k : Nat) (v : Word) (hr : keysRising c.pool)
    (hw : ∀ p ∈ c.pool, p.1 < b.poolEntries.toNat ∧ p.2 ≠ 0#32) :
    keysRising (setPool b c k v).pool ∧ ∀ p ∈ (setPool b c k v).pool, p.1 < b.poolEntries.toNat ∧ p.2 ≠ 0#32 := by
  unfold setPool
  split
  · rename_i hk
    refine ⟨keysRising_setKey k v hr, fun p hp => ⟨?_, ?_⟩⟩
    · rcases mem_setKey hp with rfl | hp
      · exact hk
      · exact (hw p hp).1
    · exact setKey_no_default k v (fun q hq => (hw q hq).2) p hp
  · exact ⟨hr, hw⟩

@[simp] theorem fastAt_setMulti (c : Ctx) (h g : Nat) (b : MultiBucket) : fastAt (setMulti c h b) g = fastAt c g := rfl
@[simp] theorem poolAt_setMulti (bld : Build) (c : Ctx) (h k : Nat) (b : MultiBucket) :
    poolAt bld (setMulti c h b) k = poolAt bld c k := rfl
@[simp] theorem multiAt_setFast (c : Ctx) (h g : Nat) (b : FastBucket) : multiAt (setFast c h b) g = multiAt c g := rfl
@[simp] theorem poolAt_setFast (bld : Build) (c : Ctx) (h k : Nat) (b : FastBucket) :
    poolAt bld (setFast c h b) k = poolAt bld c k := rfl
@[simp] theorem fastAt_setPool (b : Build) (c : Ctx) (k g : Nat) (v : Word) :
    fastAt (setPool b c k v) g = fastAt c g := by simp [fastAt]
@[simp] theorem multiAt_setPool (b : Build) (c : Ctx) (k g : Nat) (v : Word) :
    multiAt (setPool b c k v) g = multiAt c g := by simp [multiAt]

/-- In a rising list a listed bucket is what its index reads. -/
theorem getKey_of_mem {α : Type} {d : α} {l : List (Nat × α)} (h : keysRising l) {a : Nat} {v : α} (hm : (a, v) ∈ l) :
    getKey d l a = v := by
  simp [getKey, lookupKey_of_mem h hm]

/-- What an index reads is the default or listed. -/
theorem getKey_eq_or_mem {α : Type} (d : α) (l : List (Nat × α)) (a : Nat) :
    getKey d l a = d ∨ (a, getKey d l a) ∈ l := by
  unfold getKey
  cases hl : lookupKey l a with
  | none => exact .inl rfl
  | some v => exact .inr (mem_of_lookupKey hl)

/-! ### Sequencing -/

@[simp] theorem andThen_next (s : State) (f : State → Host.Outcome State Fault Refusal) : andThen (.next s) f = f s := rfl

/-- A sequence answers a next state when both its parts do. -/
theorem andThen_eq_next {o : Host.Outcome State Fault Refusal} {f : State → Host.Outcome State Fault Refusal} {t : State} :
    andThen o f = .next t ↔ ∃ s, o = .next s ∧ f s = .next t := by
  cases o <;> simp [andThen]

/-! ### Rejections -/

/-- A rejection in mid-stream: what it writes, and that nothing else changes (R164, R165). -/
theorem State.rejectStream_cases (s : State) (c : StatusCode) :
    s.rejectStream c = { s with phase := .idle, outMem := [], outDraw := s.outDraw + 1,
                                regs := { s.regs with status := statusByte c, outSize := 0#32 } } := by
  have : (s.outMem.filter fun c => decide (c.1 < 0)) = [] := by simp
  simp [State.rejectStream, State.reject, State.endWith, State.setOutSize, State.loseOut]

/-! ### Reset of the index (R96) -/

/-- After IndexReset a FastRef bucket has count 0 and the entries it had. -/
theorem getKey_clearFast {l : List (Nat × FastBucket)} (hr : keysRising l) (h : Nat) :
    getKey FastBucket.fresh (clearFast l) h = { getKey FastBucket.fresh l h with count := 0#8 } := by
  induction l with
  | nil => rfl
  | cons p t ih =>
    obtain ⟨k, b⟩ := p
    have hq := List.pairwise_cons.1 hr
    have ih := ih hq.2
    unfold getKey clearFast at *
    by_cases hf : ({ b with count := 0#8 } : FastBucket) = FastBucket.fresh
    · simp only [List.filterMap_cons, hf, if_true]
      by_cases hk : h = k
      · subst hk
        have hn : lookupKey t h = none := by
          cases hl : lookupKey t h with
          | none => rfl
          | some x => exact absurd (hq.1 _ (mem_of_lookupKey hl)) (lt_irrefl _)
        rw [hn] at ih
        rw [lookupKey_cons, if_pos rfl, ih]
        exact hf.symm
      · rw [lookupKey_cons, if_neg hk]; exact ih
    · simp only [List.filterMap_cons, hf, if_false, lookupKey_cons]
      by_cases hk : h = k
      · simp [hk]
      · simpa [hk] using ih

/-- After IndexReset a MultiRef bucket has count 0 and the entries it had. -/
theorem getKey_clearMulti {l : List (Nat × MultiBucket)} (hr : keysRising l) (h : Nat) :
    getKey MultiBucket.fresh (clearMulti l) h = { getKey MultiBucket.fresh l h with count := 0#8 } := by
  induction l with
  | nil => rfl
  | cons p t ih =>
    obtain ⟨k, b⟩ := p
    have hq := List.pairwise_cons.1 hr
    have ih := ih hq.2
    unfold getKey clearMulti at *
    by_cases hf : ({ b with count := 0#8 } : MultiBucket) = MultiBucket.fresh
    · simp only [List.filterMap_cons, hf, if_true]
      by_cases hk : h = k
      · subst hk
        have hn : lookupKey t h = none := by
          cases hl : lookupKey t h with
          | none => rfl
          | some x => exact absurd (hq.1 _ (mem_of_lookupKey hl)) (lt_irrefl _)
        rw [hn] at ih
        rw [lookupKey_cons, if_pos rfl, ih]
        exact hf.symm
      · rw [lookupKey_cons, if_neg hk]; exact ih
    · simp only [List.filterMap_cons, hf, if_false, lookupKey_cons]
      by_cases hk : h = k
      · simp [hk]
      · simpa [hk] using ih

/-- Every bucket that IndexReset lists has count 0, is not the fresh one and stands under a key listed before. -/
theorem mem_clearFast {l : List (Nat × FastBucket)} {p : Nat × FastBucket} (h : p ∈ clearFast l) :
    p.2.count = 0#8 ∧ p.2 ≠ FastBucket.fresh ∧ ∃ q ∈ l, q.1 = p.1 := by
  obtain ⟨q, hq, hp⟩ := List.mem_filterMap.1 h
  split at hp
  · cases hp
  · obtain rfl := Option.some.inj hp
    exact ⟨rfl, ‹_›, q, hq, rfl⟩

/-- As `mem_clearFast`, for MultiRef. -/
theorem mem_clearMulti {l : List (Nat × MultiBucket)} {p : Nat × MultiBucket} (h : p ∈ clearMulti l) :
    p.2.count = 0#8 ∧ p.2 ≠ MultiBucket.fresh ∧ ∃ q ∈ l, q.1 = p.1 := by
  obtain ⟨q, hq, hp⟩ := List.mem_filterMap.1 h
  split at hp
  · cases hp
  · obtain rfl := Option.some.inj hp
    exact ⟨rfl, ‹_›, q, hq, rfl⟩

/-- IndexReset keeps the keys rising. -/
theorem keysRising_clearFast {l : List (Nat × FastBucket)} (h : keysRising l) : keysRising (clearFast l) := by
  refine List.Pairwise.filterMap _ ?_ h
  intro a a' hlt b hb b' hb'
  split at hb <;> split at hb' <;> simp_all
  subst hb hb'
  exact hlt

/-- As `keysRising_clearFast`, for MultiRef. -/
theorem keysRising_clearMulti {l : List (Nat × MultiBucket)} (h : keysRising l) : keysRising (clearMulti l) := by
  refine List.Pairwise.filterMap _ ?_ h
  intro a a' hlt b hb b' hb'
  split at hb <;> split at hb' <;> simp_all
  subst hb hb'
  exact hlt

end Sys2Proof.Machine
end

