-- ==== Sys2Proof/Laws/PackUnpack.lean ====
section
/-! SUPPORT. What a copy can do: its argument test, its frame, the bytes it leaves. -/

namespace Sys2Proof.Machine

theorem copyArgsOk_iff (s : State) (n : Nat) :
    copyArgsOk s n = true ↔
      s.regs.arg2.toNat ≤ 1 ∧ s.regs.arg0.toNat + n ≤ s.outputSize ∧ s.regs.arg1.toNat + n ≤ s.outputSize := by
  simp [copyArgsOk, and_assoc]

/-- OUTPUT_SIZE fits a 32-bit register. -/
theorem State.outputSize_lt (s : State) : s.outputSize < 2 ^ 32 := by
  unfold State.outputSize Machine.outputSize Machine.blockSize blockBits
  cases s.build.geometry <;> decide

/-- BLOCK_SIZE fits the 24-bit block header. -/
theorem State.blockSize_lt (s : State) : s.blockSize < 2 ^ 24 := by
  unfold State.blockSize Machine.blockSize blockBits
  cases s.build.geometry <;> decide

theorem State.blockSize_le_outputSize (s : State) : s.blockSize ≤ s.outputSize := by
  unfold State.outputSize Machine.outputSize State.blockSize; omega

/-- The byte a chunk leaves at an index: the source's as it was before, inside the chunk (R65). -/
theorem copyChunk_outAt (s : State) (fromOut : Bool) (dst src x : Nat) :
    (copyChunk s fromOut dst src).outAt x =
      if dst ≤ x ∧ x < dst + 16 then
        (if fromOut then s.outAt (src + (x - dst)) else s.inAt (src + (x - dst)))
      else s.outAt x := by
  unfold copyChunk
  cases fromOut <;> simp only [State.outAt_putOut, State.inRun_length, State.outRun_length, if_true, if_false,
    Bool.false_eq_true]
  · split
    · rw [State.inRun_getElem? _ (by omega)]; rfl
    · rfl
  · split
    · rw [State.outRun_getElem? _ (by omega)]; rfl
    · rfl

/-- Chunks write listed bytes of OUT and nothing else. -/
theorem copyChunks_frame (n : Nat) (s : State) (fromOut : Bool) (dst src : Nat) :
    copyChunks n s fromOut dst src = { s with outMem := (copyChunks n s fromOut dst src).outMem } := by
  induction n generalizing s dst src with
  | zero => rfl
  | succ n ih =>
    have h := ih (copyChunk s fromOut dst src) (dst + 16) (src + 16)
    simp only [copyChunks]
    generalize copyChunks n (copyChunk s fromOut dst src) fromOut (dst + 16) (src + 16) = t at h ⊢
    rw [h]
    rfl

/-- Chunks one after another (R66). -/
theorem copyChunks_add (n m : Nat) (s : State) (fromOut : Bool) (dst src : Nat) :
    copyChunks (n + m) s fromOut dst src =
      copyChunks m (copyChunks n s fromOut dst src) fromOut (dst + 16 * n) (src + 16 * n) := by
  induction n generalizing s dst src with
  | zero => simp [copyChunks]
  | succ n ih =>
    rw [show n + 1 + m = n + m + 1 by omega]
    simp only [copyChunks]
    rw [ih]
    congr 1 <;> omega

/-- The bytes chunks leave where source and destination are apart. -/
theorem copyChunks_outAt (n : Nat) (s : State) (fromOut : Bool) (dst src x : Nat)
    (h : fromOut = true → dst + 16 * n ≤ src ∨ src + 16 * n ≤ dst) :
    (copyChunks n s fromOut dst src).outAt x =
      if dst ≤ x ∧ x < dst + 16 * n then
        (if fromOut then s.outAt (src + (x - dst)) else s.inAt (src + (x - dst)))
      else s.outAt x := by
  induction n generalizing s dst src with
  | zero =>
    rw [if_neg (show ¬ (dst ≤ x ∧ x < dst + 16 * 0) by omega), copyChunks]
  | succ n ih =>
    simp only [copyChunks]
    rw [ih _ _ _ (fun hf => by have := h hf; omega)]
    by_cases h1 : dst + 16 ≤ x ∧ x < dst + 16 + 16 * n
    · rw [if_pos h1, if_pos (show dst ≤ x ∧ x < dst + 16 * (n + 1) by omega)]
      have e : src + 16 + (x - (dst + 16)) = src + (x - dst) := by omega
      rw [e]
      cases fromOut with
      | false => simp only [Bool.false_eq_true, if_false, copyChunk, State.inAt_putOut]
      | true =>
        have := h rfl
        simp only [if_true]
        rw [copyChunk_outAt, if_neg (by omega)]
    · rw [if_neg h1, copyChunk_outAt]
      by_cases h2 : dst ≤ x ∧ x < dst + 16
      · rw [if_pos h2, if_pos (show dst ≤ x ∧ x < dst + 16 * (n + 1) by omega)]
      · rw [if_neg h2, if_neg (by omega)]

/-- Chunks inside OUT keep the canonical form and the bound of OUT. -/
theorem copyChunks_wf (n : Nat) {s : State} (fromOut : Bool) (dst src : Nat) {bound : Nat} (hw : Memory.wf s.outMem)
    (hb : Memory.below s.outMem bound) (hd : dst + 16 * n ≤ bound) :
    Memory.wf (copyChunks n s fromOut dst src).outMem ∧ Memory.below (copyChunks n s fromOut dst src).outMem bound := by
  induction n generalizing s dst src with
  | zero => exact ⟨hw, hb⟩
  | succ n ih =>
    simp only [copyChunks]
    refine ih (s := copyChunk s fromOut dst src) _ _ (Memory.wf_putRun _ _ hw) (Memory.below_putRun _ hb ?_) (by omega)
    cases fromOut <;> simp <;> omega

/-- What a copy command can do: end OK with its chunks made, or be rejected with ERR_ARG (R65, R66). -/
theorem copyBytes_cases (n : Nat) (s : State) :
    (copyArgsOk s (16 * n) = true ∧ copyBytes n s =
      (copyChunks n s (decide (s.regs.arg2.toNat = 1)) s.regs.arg0.toNat s.regs.arg1.toNat).complete) ∨
    (copyArgsOk s (16 * n) = false ∧ copyBytes n s = s.reject .errArg) := by
  unfold copyBytes
  cases copyArgsOk s (16 * n) <;> simp

end Sys2Proof.Machine
end

