-- ==== Sys2Proof/Laws/Decoder.lean ====
section
/-! SUPPORT. What the decoder's parts can do: after a symbol, a literal, a back-reference; the symbol loop runs the
dispatched instructions; every step inside DECODE is the machine's own step. -/

namespace Sys2Proof.Machine

/-! ### After a symbol (R125, R128, R135, R136) -/

/-- After a symbol: the block ends, the next group is due, or the next symbol with its anchor. -/
theorem afterSymbol_cases (s : State) :
    (s.dec.size.toNat ≤ s.dec.j.toNat ∧ afterSymbol s = decodeFinish s) ∨
    (s.dec.j.toNat < s.dec.size.toNat ∧ s.dec.k = 7 ∧ afterSymbol s = s.withPhase .group) ∨
    (s.dec.j.toNat < s.dec.size.toNat ∧ s.dec.k ≠ 7 ∧ afterSymbol s =
      (s.withDec { s.dec with
        k := s.dec.k + 1,
        anchor := if (s.dec.k + 1).val % 2 = 0 then s.dec.j else s.dec.anchor }).withPhase .symbol) := by
  unfold afterSymbol decodedAll
  by_cases h : s.dec.size.toNat ≤ s.dec.j.toNat
  · exact .inl ⟨h, by simp [h]⟩
  · by_cases hk : s.dec.k = 7
    · exact .inr (.inl ⟨by omega, hk, by simp [h, hk]⟩)
    · exact .inr (.inr ⟨by omega, hk, by simp [h, hk]⟩)

/-- What the end of a block writes, and that nothing else changes (R136, R42). -/
theorem decodeFinish_cases (s : State) :
    decodeFinish s = { s with
      phase := .idle, outMem := s.outMem.filter (fun c => decide (c.1 < s.dec.size.toNat)), outDraw := s.outDraw + 1,
      regs := { s.regs with status := 0#8, outSize := BitVec.ofNat 32 s.dec.size.toNat } } := rfl

/-- A byte of OUT that the finished block keeps. -/
theorem outAt_decodeFinish {s : State} {x : Nat} (h : x < s.dec.size.toNat)
    (hs : (Memory.get? s.outMem x).isSome) : (decodeFinish s).outAt x = s.outAt x :=
  State.outAt_loseOut s h hs

/-! ### The symbols (R130, R131) -/

/-- What a literal can do, where the payload lies in IN and the block in OUT. -/
theorem literalRun_cases {len : Nat} {s : State} (hi : s.inSize ≤ s.outputSize)
    (hs : s.dec.size.toNat ≤ s.outputSize) :
    (s.inSize < s.dec.i.toNat + len ∧ literalRun len s = .next (s.rejectStream .errUnderrun)) ∨
    (s.dec.i.toNat + len ≤ s.inSize ∧ s.dec.size.toNat < s.dec.j.toNat + len ∧
      literalRun len s = .next (s.rejectStream .errOverrun)) ∨
    (s.dec.i.toNat + len ≤ s.inSize ∧ s.dec.j.toNat + len ≤ s.dec.size.toNat ∧
      literalRun len s = .next (afterSymbol ((s.putOut s.dec.j.toNat (s.inRun s.dec.i.toNat len)).withDec
        { s.dec with i := word (s.dec.i.toNat + len), j := word (s.dec.j.toNat + len) }))) := by
  unfold literalRun
  by_cases h1 : s.inSize < s.dec.i.toNat + len
  · exact .inl ⟨h1, by rw [if_pos h1]⟩
  · rw [if_neg h1]
    by_cases h2 : s.dec.size.toNat < s.dec.j.toNat + len
    · exact .inr (.inl ⟨by omega, h2, by rw [if_pos h2]⟩)
    · refine .inr (.inr ⟨by omega, by omega, ?_⟩)
      have hr : s.readIn? s.dec.i.toNat len = some (s.inRun s.dec.i.toNat len) := if_pos (by omega)
      have hw : s.writeOut? s.dec.j.toNat (s.inRun s.dec.i.toNat len) = some (s.putOut s.dec.j.toNat (s.inRun s.dec.i.toNat len)) :=
        if_pos (by rw [State.inRun_length]; omega)
      simp only [if_neg h2, hr, hw]

/-- What a back-reference can do, where the payload lies in IN, the block in OUT, and the anchor before the cursor. -/
theorem backReference_cases {len : Nat} {s : State} (hi : s.inSize ≤ s.outputSize)
    (hs : s.dec.size.toNat ≤ s.outputSize) (ha : s.dec.anchor.toNat ≤ s.dec.j.toNat) (off : Nat)
    (ho : off = le16 (s.inAt s.dec.i.toNat) (s.inAt (s.dec.i.toNat + 1))) (s1 : State)
    (h1 : s1 = s.withDec { s.dec with i := word (s.dec.i.toNat + 2) }) :
    (s.inSize < s.dec.i.toNat + 2 ∧ backReference len s = .next (s.rejectStream .errUnderrun)) ∨
    (s.dec.i.toNat + 2 ≤ s.inSize ∧ (off = 0 ∨ s.dec.anchor.toNat < off) ∧
      backReference len s = .next (s1.rejectStream .errOffset)) ∨
    (s.dec.i.toNat + 2 ≤ s.inSize ∧ 1 ≤ off ∧ off ≤ s.dec.anchor.toNat ∧ off < len ∧
      backReference len s = .next (s1.rejectStream .errOverlap)) ∨
    (s.dec.i.toNat + 2 ≤ s.inSize ∧ 1 ≤ off ∧ off ≤ s.dec.anchor.toNat ∧ len ≤ off ∧ s.dec.size.toNat < s.dec.j.toNat + len ∧
      backReference len s = .next (s1.rejectStream .errOverrun)) ∨
    (s.dec.i.toNat + 2 ≤ s.inSize ∧ 1 ≤ off ∧ off ≤ s.dec.anchor.toNat ∧ len ≤ off ∧ s.dec.j.toNat + len ≤ s.dec.size.toNat ∧
      backReference len s = .next (afterSymbol ((s1.putOut s.dec.j.toNat (s.outRun (s.dec.anchor.toNat - off) len)).withDec
        { s1.dec with j := word (s.dec.j.toNat + len) }))) := by
  subst ho h1
  unfold backReference
  by_cases h1 : s.inSize < s.dec.i.toNat + 2
  · exact .inl ⟨h1, by rw [if_pos h1]⟩
  · rw [if_neg h1, if_neg (show ¬ s.outputSize < s.dec.i.toNat + 2 by omega)]
    simp only
    generalize hoff : le16 (s.inAt s.dec.i.toNat) (s.inAt (s.dec.i.toNat + 1)) = off
    by_cases h2 : off = 0 ∨ s.dec.anchor.toNat < off
    · exact .inr (.inl ⟨by omega, h2, by rw [if_pos h2]⟩)
    · rw [if_neg h2]
      by_cases h3 : s.dec.anchor.toNat < s.dec.anchor.toNat - off + len
      · exact .inr (.inr (.inl ⟨by omega, by omega, by omega, by omega, by rw [if_pos h3]⟩))
      · rw [if_neg h3]
        by_cases h4 : s.dec.size.toNat < s.dec.j.toNat + len
        · exact .inr (.inr (.inr (.inl ⟨by omega, by omega, by omega, by omega, h4, by rw [if_pos h4]⟩)))
        · refine .inr (.inr (.inr (.inr ⟨by omega, by omega, by omega, by omega, by omega, ?_⟩)))
          rw [if_neg h4]
          generalize hs1 : s.withDec { s.dec with i := word (s.dec.i.toNat + 2) } = s1
          have ho1 : s1.outputSize = s.outputSize := by subst hs1; rfl
          have hr : s1.readOut? (s.dec.anchor.toNat - off) len = some (s1.outRun (s.dec.anchor.toNat - off) len) :=
            if_pos (by omega)
          have hr1 : s1.outRun (s.dec.anchor.toNat - off) len = s.outRun (s.dec.anchor.toNat - off) len := by subst hs1; rfl
          have hw : s1.writeOut? s.dec.j.toNat (s1.outRun (s.dec.anchor.toNat - off) len) =
              some (s1.putOut s.dec.j.toNat (s1.outRun (s.dec.anchor.toNat - off) len)) :=
            if_pos (by rw [State.outRun_length]; omega)
          simp only [hr]
          rw [hw, hr1]

/-- The back-reference instructions are one operation at their lengths (R131 to R134). -/
theorem exec_ref (nib : Nibble) (s : State) : exec (.ref nib) s = backReference (nib.toNat + 1) s := rfl
theorem exec_refx32 (s : State) : exec .refx32 s = backReference 32 s := rfl
theorem exec_refx48 (s : State) : exec .refx48 s = backReference 48 s := rfl
theorem exec_refx64 (s : State) : exec .refx64 s = backReference 64 s := rfl
theorem exec_refExt4 (s : State) : exec .refExt4 s = backReference 4 s := rfl
theorem exec_refExt5to8 (n : BitVec 2) (s : State) : exec (.refExt5to8 n) s = backReference (n.toNat + 5) s := rfl
theorem exec_refExt9to16 (n : BitVec 3) (s : State) : exec (.refExt9to16 n) s = backReference (n.toNat + 9) s := rfl

/-! ### The symbol loop and the step -/

/-- Reading a selector's fields back. -/
theorem selOf_fields (ext c : Bool) (nib : Nibble) :
    (selOf ext c nib).getLsbD 5 = ext ∧ (selOf ext c nib).getLsbD 4 = c ∧ (selOf ext c nib).extractLsb' 0 4 = nib := by
  revert ext c nib; decide +kernel

/-- ExecSymbol runs the instruction that the symbol's selector decodes to (R50, R129). -/
theorem execSymbol_eq_exec (s : State) : execSymbol s = exec (decodeSym (currentSel s)) s := by
  unfold execSymbol currentSel decodeSym
  obtain ⟨h1, h2, h3⟩ := selOf_fields s.extOn (unpackSymbol s.dec.ctrl s.dec.sz s.dec.k).1
    (unpackSymbol s.dec.ctrl s.dec.sz s.dec.k).2
  simp only [h1, h2, h3]
  repeat' split
  all_goals rfl

theorem inRun_three (s : State) (a : Nat) : s.inRun a 3 = [s.inAt a, s.inAt (a + 1), s.inAt (a + 2)] := by
  simp [State.inRun, List.range_succ]

theorem inRun_five (s : State) (a : Nat) :
    s.inRun a 5 = [s.inAt a, s.inAt (a + 1), s.inAt (a + 2), s.inAt (a + 3), s.inAt (a + 4)] := by
  simp [State.inRun, List.range_succ]

/-- Inside DECODE, or with nothing issued, the command's own step is the machine's step. -/
theorem streamStep_eq_step {s : State} (h : s.phase ≠ .issued) : streamStep s = step s := by
  unfold streamStep step fetch
  cases hp : s.phase with
  | idle => simp [noInstruction, hp]
  | issued => exact absurd hp h
  | header => simp [fetchHeader, headerBytes, inRun_three, decode, decoded]; rfl
  | group =>
    simp only [fetchGroup]
    by_cases hg : groupPresent s = true
    · simp [hg, groupHeaderBytes, inRun_five, decode, decoded]; rfl
    · simp [hg, noInstruction, hp, execGroup]
  | symbol => simp only [execSymbol_eq_exec]

end Sys2Proof.Machine
end

