-- ==== Sys2Proof/Laws/MatchIndex.lean ====
section
/-! SUPPORT. What the match index can do: the hash's range, the common prefix and the match length, the scan of a
bucket, the two probes. -/

namespace Sys2Proof.Machine

/-! ### The hash (R81, R82) -/

theorem foldHash_lt {b : Nat} (hb : b ≤ 32) (h16 : 16 ≤ b) (v : Word) : foldHash b v < 2 ^ b := by
  unfold foldHash
  refine Nat.xor_lt_two_pow ?_ ?_
  · rw [Nat.shiftRight_eq_div_pow]
    refine Nat.div_lt_of_lt_mul ?_
    have h1 := v.isLt
    have h2 : 2 ^ 32 ≤ 2 ^ (32 - b) * 2 ^ b := by
      rw [← Nat.pow_add]; exact Nat.pow_le_pow_right (by decide) (by omega)
    omega
  · exact Nat.and_lt_two_pow _ (by have := Nat.two_pow_pos b; omega)

theorem hashOf_lt (h : HashChoice) {b : Nat} (hb : b ≤ 32) (h16 : 16 ≤ b) (v : Word) : hashOf h b v < 2 ^ b := by
  cases h with
  | fold => exact foldHash_lt hb h16 v
  | other n => exact Nat.mod_lt _ (Nat.two_pow_pos b)

/-- HashF is in range (R81). -/
theorem hashF_lt (b : Build) (v : Word) : hashF b v < hashSz b.geometry := by
  unfold hashF hashSz
  exact hashOf_lt _ (by cases b.geometry <;> decide) (by cases b.geometry <;> decide) v

/-- HashM is in range (R82). -/
theorem hashM_lt (b : Build) (v : Word) : hashM b v < hashPlusSz b.geometry := by
  unfold hashM hashPlusSz
  exact hashOf_lt _ (by cases b.geometry <;> decide) (by cases b.geometry <;> decide) v

/-! ### Match length (R84, R85) -/

/-- The common prefix: within the cap, equal bytes below it, a differing byte at its end unless the cap ended it. -/
theorem commonPrefix_spec (m : Memory) (p q cap : Nat) :
    commonPrefix m p q cap ≤ cap ∧
    (∀ k < commonPrefix m p q cap, inByte m (p + k) = inByte m (q + k)) ∧
    (commonPrefix m p q cap < cap →
      inByte m (p + commonPrefix m p q cap) ≠ inByte m (q + commonPrefix m p q cap)) := by
  induction cap generalizing p q with
  | zero => simp [commonPrefix]
  | succ n ih =>
    unfold commonPrefix
    split
    · rename_i h
      obtain ⟨h1, h2, h3⟩ := ih (p + 1) (q + 1)
      refine ⟨by omega, ?_, ?_⟩
      · intro k hk
        cases k with
        | zero => exact h
        | succ k =>
          have := h2 k (by omega)
          rwa [show p + 1 + k = p + (k + 1) by omega, show q + 1 + k = q + (k + 1) by omega] at this
      · intro hlt
        have := h3 (by omega)
        rwa [show p + 1 + commonPrefix m (p + 1) (q + 1) n = p + (commonPrefix m (p + 1) (q + 1) n + 1) by omega,
          show q + 1 + commonPrefix m (p + 1) (q + 1) n = q + (commonPrefix m (p + 1) (q + 1) n + 1) by omega] at this
    · rename_i h
      exact ⟨by omega, fun k hk => absurd hk (Nat.not_lt_zero k), fun _ => h⟩

/-- A rounded length is not above the raw one and has an encoding if it is at least 4 (R85). -/
theorem encodableLength_spec (n : Nat) :
    encodableLength n ≤ n ∧ (encodableLength n ≤ 16 ∨ encodableLength n = 32 ∨ encodableLength n = 48 ∨
      encodableLength n = 64) := by
  unfold encodableLength
  split <;> [skip; split <;> [skip; split]] <;> omega

/-- What a match length of at least 4 says: where the run lies, that its bytes agree, that its length has an encoding. -/
theorem matchLen_run {m : Memory} {first second anchor size : Nat} {ext : Bool}
    (h : 4 ≤ matchLen m first second anchor size ext) :
    first < anchor ∧ anchor ≤ second ∧
    first + matchLen m first second anchor size ext ≤ anchor ∧
    second + matchLen m first second anchor size ext ≤ size ∧
    (∀ k < matchLen m first second anchor size ext, inByte m (first + k) = inByte m (second + k)) ∧
    (matchLen m first second anchor size ext ≤ 16 ∨
      (ext = true ∧ (matchLen m first second anchor size ext = 32 ∨ matchLen m first second anchor size ext = 48 ∨
        matchLen m first second anchor size ext = 64))) := by
  unfold matchLen at h ⊢
  split at h
  · rename_i hg
    rw [if_pos hg]
    simp only at h ⊢
    obtain ⟨h1, h2, -⟩ := commonPrefix_spec m first second
      (min (min (if ext then maxMatchExt else maxMatch) (anchor - first)) (min (size - second) (second - first)))
    generalize commonPrefix m first second _ = n at *
    have hq := encodableLength_spec n
    cases ext with
    | true =>
      simp only [if_true] at *
      split at h
      · rename_i hm
        rw [if_pos hm]
        refine ⟨hg.2.1, hg.2.2.1, by omega, by omega, fun k hk => h2 k (by omega), ?_⟩
        rcases hq.2 with hq | hq
        · exact .inl hq
        · exact .inr ⟨trivial, hq⟩
      · omega
    | false =>
      simp only [if_false, Bool.false_eq_true] at *
      split at h
      · rename_i hm
        rw [if_pos hm]
        have : maxMatch = 16 := rfl
        exact ⟨hg.2.1, hg.2.2.1, by omega, by omega, h2, .inl (by omega)⟩
      · omega
  · omega

/-! ### The scan of a bucket (R88, R91) -/

theorem find?_fin4 (p : Fin 4 → Bool) :
    (∀ e, [0, 1, 2, 3].find? p = some e ↔ p e = true ∧ ∀ f : Fin 4, f.val < e.val → p f = false) ∧
    ([0, 1, 2, 3].find? p = none ↔ ∀ e, p e = false) := by
  simp only [List.find?]
  constructor
  · intro e
    cases h0 : p 0 <;> cases h1 : p 1 <;> cases h2 : p 2 <;> cases h3 : p 3 <;> revert e <;>
      simp [Fin.forall_fin_succ, h0, h1, h2, h3]
  · cases h0 : p 0 <;> cases h1 : p 1 <;> cases h2 : p 2 <;> cases h3 : p 3 <;>
      simp [Fin.forall_fin_succ, h0, h1, h2, h3]

/-- The entry a FastRef scan finds: live, of the symbol, the first such (R88). -/
theorem findFast_eq_some {b : FastBucket} {sym : Word} {e : Fin 4} :
    findFast b sym = some e ↔
      (e.val < b.count.toNat ∧ (b.entry[e]).sym = sym) ∧
        ∀ f : Fin 4, f.val < e.val → f.val < b.count.toNat → (b.entry[f]).sym ≠ sym := by
  unfold findFast
  rw [(find?_fin4 _).1 e]
  simp

/-- A FastRef scan finds nothing: no live entry holds the symbol (R88). -/
theorem findFast_eq_none {b : FastBucket} {sym : Word} :
    findFast b sym = none ↔ ∀ f : Fin 4, f.val < b.count.toNat → (b.entry[f]).sym ≠ sym := by
  unfold findFast
  rw [(find?_fin4 _).2]
  simp

/-- The entry a MultiRef scan finds: live, of the symbol, the first such (R91). -/
theorem findMulti_eq_some {b : MultiBucket} {sym : Word} {e : Fin 4} :
    findMulti b sym = some e ↔
      (e.val < b.count.toNat ∧ (b.entry[e]).sym = sym) ∧
        ∀ f : Fin 4, f.val < e.val → f.val < b.count.toNat → (b.entry[f]).sym ≠ sym := by
  unfold findMulti
  rw [(find?_fin4 _).1 e]
  simp

/-- A MultiRef scan finds nothing: no live entry holds the symbol (R91). -/
theorem findMulti_eq_none {b : MultiBucket} {sym : Word} :
    findMulti b sym = none ↔ ∀ f : Fin 4, f.val < b.count.toNat → (b.entry[f]).sym ≠ sym := by
  unfold findMulti
  rw [(find?_fin4 _).2]
  simp

/-! ### The probes (R87 to R94) -/

/-- What ProbeFast can do: a hit that refreshes an entry, an append, or nothing (R88 to R90). `h` and `b` name the
bucket of the symbol. -/
theorem probeFast_cases (bld : Build) (m : Memory) (c : Ctx) (sym : Word) (i anchor size : Nat) (ext : Bool)
    (h : Nat) (b : FastBucket) (hh : h = hashF bld sym) (hb : b = fastAt c h) :
    (∃ e : Fin 4, findFast b sym = some e ∧ 4 ≤ matchLen m (b.entry[e]).pos.toNat i anchor size ext ∧
      probeFast bld m c sym i anchor size ext =
        (some (matchLen m (b.entry[e]).pos.toNat i anchor size ext, (b.entry[e]).pos.toNat),
          setFast c h { b with entry := b.entry.set e.val ⟨(b.entry[e]).sym, word i⟩ })) ∨
    (∃ hc : b.count.toNat < 4, findFast b sym = none ∧
      probeFast bld m c sym i anchor size ext =
        (none, setFast c h { count := b.count + 1#8, entry := b.entry.set b.count.toNat ⟨sym, word i⟩ })) ∨
    probeFast bld m c sym i anchor size ext = (none, c) := by
  subst hb hh
  unfold probeFast
  simp only
  cases hf : findFast (fastAt c (hashF bld sym)) sym with
  | some e =>
    simp only
    by_cases hm : minMatch ≤ matchLen m ((fastAt c (hashF bld sym)).entry[e]).pos.toNat i anchor size ext
    · exact .inl ⟨e, rfl, hm, by rw [if_pos hm]⟩
    · exact .inr (.inr (by rw [if_neg hm]))
  | none =>
    simp only
    by_cases hc : (fastAt c (hashF bld sym)).count.toNat < 4
    · exact .inr (.inl ⟨hc, trivial, by rw [dif_pos hc]⟩)
    · exact .inr (.inr (by rw [dif_neg hc]))

/-- A probe sets DIRTY and leaves CTX_LEVEL; it writes FastRef at level 0 only, MultiRef and the pool at the other
levels only (R80, R87). -/
theorem probeIndex_frame (bld : Build) (m : Memory) (c : Ctx) (i anchor size : Nat) (ext : Bool) :
    (probeIndex bld m c i anchor size ext).2.dirty = true ∧
    (probeIndex bld m c i anchor size ext).2.level = c.level ∧
    (c.level = 0#4 → (probeIndex bld m c i anchor size ext).2.multi = c.multi ∧
      (probeIndex bld m c i anchor size ext).2.pool = c.pool ∧
      (probeIndex bld m c i anchor size ext).2.poolCur = c.poolCur) ∧
    (c.level ≠ 0#4 → (probeIndex bld m c i anchor size ext).2.fast = c.fast) := by
  unfold probeIndex
  simp only
  split
  · simp
  · split
    · rename_i hl
      rcases probeFast_cases bld m { c with dirty := true } (symAt m i) i anchor size ext _ _ rfl rfl with
        ⟨e, -, -, h⟩ | ⟨_, -, h⟩ | h <;> rw [h] <;> simp [setFast, hl]
    · rename_i hl
      unfold probeMulti probeMultiOnce probeMultiAgain
      simp only
      repeat' split
      all_goals simp [setMulti, hl]

/-- One candidate leaves a better result: an old one stays unless the candidate beats it. -/
theorem considerCandidate_cases (m : Memory) (i anchor size : Nat) (ext : Bool) (best : ProbeResult) (cand : Nat) :
    considerCandidate m i anchor size ext best cand = best ∨
    (4 ≤ matchLen m cand i anchor size ext ∧ anchor - cand < 65504 ∧
      considerCandidate m i anchor size ext best cand = some (matchLen m cand i anchor size ext, cand)) := by
  unfold considerCandidate betterOf
  simp only
  split
  · rename_i h
    cases best with
    | none => exact .inr ⟨h.1, h.2, rfl⟩
    | some b =>
      obtain ⟨bl, bc⟩ := b
      simp only
      split
      · exact .inr ⟨h.1, h.2, rfl⟩
      · exact .inl rfl
  · exact .inl rfl

/-- The best candidate, if there is one, is an eligible slot word (R93). -/
theorem bestCandidate_eligible {bld : Build} {m : Memory} {c : Ctx} {base cnt i anchor size : Nat} {ext : Bool}
    {r : Nat × Nat} (h : bestCandidate bld m c base cnt i anchor size ext = some r) :
    ∃ k < cnt, r = (matchLen m (poolAt bld c (base + k)).toNat i anchor size ext, (poolAt bld c (base + k)).toNat) ∧
      4 ≤ r.1 ∧ anchor - r.2 < 65504 := by
  unfold bestCandidate at h
  induction cnt generalizing r with
  | zero => simp at h
  | succ n ih =>
    rw [List.range_succ, List.foldl_append] at h
    simp only [List.foldl_cons, List.foldl_nil] at h
    rcases considerCandidate_cases m i anchor size ext
      ((List.range n).foldl (fun best k => considerCandidate m i anchor size ext best (poolAt bld c (base + k)).toNat)
        none)
      (poolAt bld c (base + n)).toNat with h' | ⟨h4, hd, h'⟩
    · rw [h'] at h
      obtain ⟨k, hk, hr⟩ := ih h
      exact ⟨k, by omega, hr⟩
    · rw [h'] at h
      obtain rfl := Option.some.inj h
      exact ⟨n, by omega, rfl, h4, hd⟩

/-- The best candidate: there is none when no slot word is eligible, and no eligible slot word beats it in length, or in
position at its length (R93). -/
theorem bestCandidate_spec (bld : Build) (m : Memory) (c : Ctx) (base cnt i anchor size : Nat) (ext : Bool)
    (pos : Nat → Nat) (hp : ∀ k, pos k = (poolAt bld c (base + k)).toNat) :
    (bestCandidate bld m c base cnt i anchor size ext = none →
      ∀ k < cnt, ¬ (4 ≤ matchLen m (pos k) i anchor size ext ∧ anchor - pos k < 65504)) ∧
    (∀ r, bestCandidate bld m c base cnt i anchor size ext = some r →
      ∀ k < cnt, 4 ≤ matchLen m (pos k) i anchor size ext → anchor - pos k < 65504 →
        matchLen m (pos k) i anchor size ext < r.1 ∨
          (matchLen m (pos k) i anchor size ext = r.1 ∧ pos k ≤ r.2)) := by
  unfold bestCandidate
  simp only [← hp]
  induction cnt with
  | zero => simp
  | succ n ih =>
    rw [List.range_succ, List.foldl_append]
    simp only [List.foldl_cons, List.foldl_nil]
    generalize (List.range n).foldl _ none = best at *
    unfold considerCandidate betterOf
    simp only [minMatch, multiMaxDist]
    generalize hc : pos n = cand
    by_cases hel : 4 ≤ matchLen m cand i anchor size ext ∧ anchor - cand < 65504
    · simp only [hel.1, hel.2, and_self, if_true]
      cases best with
      | none =>
        refine ⟨by simp, ?_⟩
        intro r hr k hk h1 h2
        obtain rfl := Option.some.inj hr
        by_cases hkn : k = n
        · subst hkn; rw [hc]; exact .inr ⟨rfl, le_refl _⟩
        · exact absurd ⟨h1, h2⟩ (ih.1 rfl k (by omega))
      | some b =>
        obtain ⟨bl, bc⟩ := b
        simp only
        have ih2 := ih.2 _ rfl
        simp only at ih2
        split
        · rename_i hb
          refine ⟨by simp, ?_⟩
          intro r hr k hk h1 h2
          obtain rfl := Option.some.inj hr
          by_cases hkn : k = n
          · subst hkn; rw [hc]; exact .inr ⟨rfl, le_refl _⟩
          · have := ih2 k (by omega) h1 h2; simp only; omega
        · rename_i hb
          refine ⟨by simp, ?_⟩
          intro r hr k hk h1 h2
          obtain rfl := Option.some.inj hr
          by_cases hkn : k = n
          · subst hkn; rw [hc]; simp only; omega
          · exact ih2 k (by omega) h1 h2
    · simp only [hel, if_false]
      constructor
      · intro hb k hk
        by_cases hkn : k = n
        · subst hkn; rw [hc]; exact hel
        · exact ih.1 hb k (by omega)
      · intro r hr k hk h1 h2
        by_cases hkn : k = n
        · subst hkn; rw [hc] at h1 h2; exact absurd ⟨h1,h2⟩ hel
        · exact ih.2 r hr k (by omega) h1 h2

/-- `M_OCC` after one more occurrence, where 32 bits hold it (R93). -/
theorem oneMore_toNat {occ : Word} (h : occ.toNat + 1 < 2 ^ 32) : (oneMore occ).toNat = occ.toNat + 1 := by
  rw [oneMore, if_pos h, word_toNat h]

/-- What ProbeMulti can do: take a slot for a symbol seen once, ring in a position for one seen more often, append, or
nothing (R91 to R94). -/
theorem probeMulti_cases (bld : Build) (m : Memory) (c : Ctx) (sym : Word) (i anchor size : Nat) (ext : Bool)
    (h : Nat) (b : MultiBucket) (hh : h = hashM bld sym) (hb : b = multiAt c h) :
    (∃ e : Fin 4, findMulti b sym = some e ∧ (b.entry[e]).occ = 1#32 ∧
      4 ≤ matchLen m (b.entry[e]).pos.toNat i anchor size ext ∧
      c.poolCur.toNat + slotWidth c.level ≤ bld.poolEntries.toNat ∧
      probeMulti bld m c sym i anchor size ext =
        (some (matchLen m (b.entry[e]).pos.toNat i anchor size ext, (b.entry[e]).pos.toNat),
          setMulti (setPool bld (setPool bld { c with poolCur := word (c.poolCur.toNat + slotWidth c.level) }
            c.poolCur.toNat (b.entry[e]).pos) (c.poolCur.toNat + 1) (word i)) h
            { b with entry := b.entry.set e.val ⟨(b.entry[e]).sym, c.poolCur, 2#32⟩ })) ∨
    (∃ (e : Fin 4) (r : Nat × Nat), findMulti b sym = some e ∧ (b.entry[e]).occ ≠ 1#32 ∧
      bestCandidate bld m c (b.entry[e]).pos.toNat (min (b.entry[e]).occ.toNat (slotWidth c.level)) i anchor size ext =
        some r ∧
      probeMulti bld m c sym i anchor size ext =
        (some r, setMulti
          (setPool bld c ((b.entry[e]).pos.toNat + (b.entry[e]).occ.toNat % slotWidth c.level) (word i)) h
            { b with
              entry := b.entry.set e.val ⟨(b.entry[e]).sym, (b.entry[e]).pos, oneMore (b.entry[e]).occ⟩ })) ∨
    (∃ hc : b.count.toNat < 4, findMulti b sym = none ∧
      probeMulti bld m c sym i anchor size ext =
        (none, setMulti c h { count := b.count + 1#8, entry := b.entry.set b.count.toNat ⟨sym, word i, 1#32⟩ })) ∨
    probeMulti bld m c sym i anchor size ext = (none, c) := by
  subst hb hh
  unfold probeMulti
  simp only
  cases hf : findMulti (multiAt c (hashM bld sym)) sym with
  | some e =>
    simp only
    by_cases ho : ((multiAt c (hashM bld sym)).entry[e]).occ = 1#32
    · rw [if_pos ho]
      unfold probeMultiOnce
      simp only
      by_cases hm : matchLen m ((multiAt c (hashM bld sym)).entry[e]).pos.toNat i anchor size ext < minMatch
      · exact .inr (.inr (.inr (by rw [if_pos hm])))
      · rw [if_neg hm]
        by_cases hp : bld.poolEntries.toNat < c.poolCur.toNat + slotWidth c.level
        · exact .inr (.inr (.inr (by rw [if_pos hp])))
        · exact .inl ⟨e, rfl, ho, by simpa [minMatch] using hm, by omega, by rw [if_neg hp]⟩
    · rw [if_neg ho]
      unfold probeMultiAgain
      simp only
      cases hr : bestCandidate bld m c ((multiAt c (hashM bld sym)).entry[e]).pos.toNat
          (min ((multiAt c (hashM bld sym)).entry[e]).occ.toNat (slotWidth c.level)) i anchor size ext with
      | none => exact .inr (.inr (.inr rfl))
      | some r => exact .inr (.inl ⟨e, r, rfl, ho, hr, rfl⟩)
  | none =>
    simp only
    by_cases hc : (multiAt c (hashM bld sym)).count.toNat < 4
    · exact .inr (.inr (.inl ⟨hc, trivial, by rw [dif_pos hc]⟩))
    · exact .inr (.inr (.inr (by rw [dif_neg hc])))

/-- A probe's result is a match length of at least 4 at the position it names, whatever the index contains (R84, R85, R89,
R92, R93). -/
theorem probeIndex_eq_some {bld : Build} {m : Memory} {c : Ctx} {i anchor size len pos : Nat} {ext : Bool}
    (h : (probeIndex bld m c i anchor size ext).1 = some (len, pos)) :
    4 ≤ len ∧ len = matchLen m pos i anchor size ext := by
  unfold probeIndex at h
  simp only at h
  split at h
  · cases h
  · split at h
    · rcases probeFast_cases bld m { c with dirty := true } (symAt m i) i anchor size ext _ _ rfl rfl with
        ⟨e, -, h4, h'⟩ | ⟨_, -, h'⟩ | h' <;> rw [h'] at h
      · simp only [Option.some.injEq, Prod.mk.injEq] at h
        obtain ⟨rfl, rfl⟩ := h
        exact ⟨h4, rfl⟩
      · cases h
      · cases h
    · rcases probeMulti_cases bld m { c with dirty := true } (symAt m i) i anchor size ext _ _ rfl rfl with
        ⟨e, -, -, h4, -, h'⟩ | ⟨e, r, -, -, hr, h'⟩ | ⟨_, -, h'⟩ | h' <;> rw [h'] at h
      · simp only [Option.some.injEq, Prod.mk.injEq] at h
        obtain ⟨rfl, rfl⟩ := h
        exact ⟨h4, rfl⟩
      · obtain ⟨k, -, hk, h4, -⟩ := bestCandidate_eligible hr
        simp only [Option.some.injEq] at h
        subst h
        rw [Prod.mk.injEq] at hk
        exact ⟨h4, by rw [hk.1, hk.2]⟩
      · cases h
      · cases h

end Sys2Proof.Machine
end

