-- ==== Sys2Proof/Laws/Encoder.lean ====
section
/-! SUPPORT. What the encoder's parts can do: the accepted candidate, the group buffer, a flush, one scan iteration. -/

namespace Sys2Proof.Machine

/-! ### Acceptance (R109) -/

/-- The encoder takes the probe's own candidate, strictly before the anchor and within reach, or none. -/
theorem acceptCandidate_eq_some {r : ProbeResult} {a len pos : Nat} :
    acceptCandidate r a = some (len, pos) ↔
      r = some (len, pos) ∧ 1 ≤ a - pos ∧ a - pos ≤ 65531 ∧ pos + len < a := by
  unfold acceptCandidate maxOffset
  rcases r with - | ⟨l, p⟩
  · simp
  · simp only
    split
    · rename_i h
      constructor
      · intro he
        obtain ⟨rfl, rfl⟩ := Prod.mk.inj (Option.some.inj he)
        exact ⟨rfl, h⟩
      · intro he; exact he.1
    · rename_i h
      constructor
      · intro he; cases he
      · rintro ⟨he, h'⟩
        obtain ⟨rfl, rfl⟩ := Prod.mk.inj (Option.some.inj he)
        exact absurd h' h

/-! ### The group buffer (R15, R112) -/

@[simp] theorem EncRegs.held_length (e : EncRegs) : e.held.length = e.gn.val := by
  have := e.gn.isLt
  simp [EncRegs.held]; omega

/-- A symbol pushed with a place free is the last one held. -/
theorem EncRegs.held_push (e : EncRegs) (d : Desc) (h : e.gn.val < 9) :
    (e.push d).held = e.held ++ [d] := by
  obtain ⟨i, lit, n, pa, o, ⟨⟨l⟩, hl⟩, gn⟩ := e
  replace hl : l.length = 9 := by simpa using hl
  replace h : gn.val < 9 := h
  have hm : min gbufDepth (gn.val + 1) = gn.val + 1 := Nat.min_eq_right h
  simp only [EncRegs.held, EncRegs.push, hm]
  simp only [Vector.toList, Vector.setIfInBounds_mk, List.setIfInBounds_toArray, List.take_succ_eq_append_getElem,
    List.length_set, hl, h, List.take_set_of_le (Nat.le_refl _), List.getElem_set_self]

/-- After a flush of eight symbols the rest is held. -/
theorem EncRegs.held_dropGroup (e : EncRegs) (h : 8 ≤ e.gn.val) : e.dropGroup.held = e.held.drop 8 := by
  obtain ⟨i, lit, n, pa, o, ⟨⟨l⟩, hl⟩, gn⟩ := e
  have h10 : gn.val < 10 := gn.isLt
  replace hl : l.length = 9 := by simpa using hl
  obtain ⟨a0, a1, a2, a3, a4, a5, a6, a7, a8, rfl⟩ :
      ∃ a0 a1 a2 a3 a4 a5 a6 a7 a8, l = [a0, a1, a2, a3, a4, a5, a6, a7, a8] := by
    match l, hl with
    | [a0, a1, a2, a3, a4, a5, a6, a7, a8], _ => exact ⟨_, _, _, _, _, _, _, _, _, rfl⟩
  obtain hg | hg : gn.val = 8 ∨ gn.val = 9 := by change 8 ≤ gn.val at h; omega
  all_goals simp [EncRegs.held, EncRegs.dropGroup, hg, groupSyms]

@[simp] theorem EncRegs.push_i (e : EncRegs) (d : Desc) : (e.push d).i = e.i := rfl
@[simp] theorem EncRegs.push_lit (e : EncRegs) (d : Desc) : (e.push d).lit = e.lit := rfl
@[simp] theorem EncRegs.push_n (e : EncRegs) (d : Desc) : (e.push d).n = e.n := rfl
@[simp] theorem EncRegs.push_pa (e : EncRegs) (d : Desc) : (e.push d).pa = e.pa := rfl
@[simp] theorem EncRegs.push_o (e : EncRegs) (d : Desc) : (e.push d).o = e.o := rfl
theorem EncRegs.push_gn (e : EncRegs) (d : Desc) (h : e.gn.val < 9) : (e.push d).gn.val = e.gn.val + 1 := by
  exact Nat.min_eq_right h
@[simp] theorem EncRegs.dropGroup_i (e : EncRegs) : e.dropGroup.i = e.i := rfl
@[simp] theorem EncRegs.dropGroup_lit (e : EncRegs) : e.dropGroup.lit = e.lit := rfl
@[simp] theorem EncRegs.dropGroup_n (e : EncRegs) : e.dropGroup.n = e.n := rfl
@[simp] theorem EncRegs.dropGroup_pa (e : EncRegs) : e.dropGroup.pa = e.pa := rfl
@[simp] theorem EncRegs.dropGroup_o (e : EncRegs) : e.dropGroup.o = e.o := rfl

/-! ### Emit (R112) -/

@[simp] theorem emit_i (e : EncRegs) (d : Desc) (start : Word) : (emit e d start).i = e.i := rfl
@[simp] theorem emit_lit (e : EncRegs) (d : Desc) (start : Word) : (emit e d start).lit = e.lit := rfl
@[simp] theorem emit_o (e : EncRegs) (d : Desc) (start : Word) : (emit e d start).o = e.o := rfl
@[simp] theorem emit_pa (e : EncRegs) (d : Desc) (start : Word) :
    (emit e d start).pa = if e.n.toNat % 2 = 0 then start else e.pa := rfl
@[simp] theorem emit_n (e : EncRegs) (d : Desc) (start : Word) : (emit e d start).n = e.n + 1#32 := by
  apply BitVec.eq_of_toNat_eq; simp [emit, BitVec.toNat_add]

theorem emit_gn (e : EncRegs) (d : Desc) (start : Word) (h : e.gn.val < 9) :
    (emit e d start).gn.val = e.gn.val + 1 := EncRegs.push_gn _ _ h

/-- Emit appends its descriptor; a literal's anchor is the anchor of its pair. -/
theorem emit_held (e : EncRegs) (d : Desc) (start : Word) (h : e.gn.val < 9) :
    (emit e d start).held = e.held ++ [if d.literal then
      { d with anchor := if e.n.toNat % 2 = 0 then start else e.pa } else d] :=
  EncRegs.held_push _ _ h

/-! ### Sizes of a group (R113) -/

@[simp] theorem packSlots_length (slots : List (Bool × Nibble)) : (packSlots slots).length = 5 := rfl

@[simp] theorem packHeader_length (ds : List Desc) (ext : Bool) : (packHeader ds ext).length = 5 := rfl

/-- A descriptor's payload: its literal bytes, or two offset bytes. -/
theorem payloadOf_length (s : State) (d : Desc) :
    (payloadOf s d).length = if d.literal then d.length.toNat else 2 := by
  unfold payloadOf
  split
  · simp
  · rfl

/-- The payload of a packable descriptor is at most 16 bytes (R54, R113). -/
theorem payloadOf_length_le {s : State} {d : Desc} {ext : Bool} (h : d.packable ext = true) :
    (payloadOf s d).length ≤ 16 := by
  rw [payloadOf_length]
  split
  · rename_i hl
    simp only [Desc.packable, nibbleOf, hl, if_true] at h
    split at h
    · omega
    · cases h
  · omega

/-- A group of packable descriptors: five header bytes, and at most 16 for each. -/
theorem groupBytes_length_le {s : State} {ds : List Desc} {ext : Bool} (h : ds.all (Desc.packable ext) = true) :
    (groupBytes s ds).length ≤ 5 + 16 * ds.length := by
  have : (ds.flatMap (payloadOf s)).length ≤ 16 * ds.length := by
    induction ds with
    | nil => simp
    | cons d t ih =>
      simp only [List.all_cons, Bool.and_eq_true] at h
      have h1 := payloadOf_length_le (s := s) h.1
      have h2 := ih h.2
      simp only [List.flatMap_cons, List.length_append, List.length_cons]
      omega
  simp only [groupBytes, List.length_append, packHeader_length]
  omega

/-! ### The flush (R112, R113) -/

/-- What FlushGroup can do: write the group's bytes at `e_o`, or stop where a descriptor or the memory has no room. -/
theorem flushGroup_cases (s : State) (ds : List Desc) :
    (ds.all (Desc.packable s.extOn) = true ∧ s.enc.o.toNat + (groupBytes s ds).length ≤ s.outputSize ∧
      flushGroup s ds = .next ((s.putOut s.enc.o.toNat (groupBytes s ds)).withEnc
        { s.enc with o := word (s.enc.o.toNat + (groupBytes s ds).length) })) ∨
    (ds.all (Desc.packable s.extOn) = true ∧ s.outputSize < s.enc.o.toNat + (groupBytes s ds).length ∧
      flushGroup s ds = .fault .outOutside) ∨
    (ds.all (Desc.packable s.extOn) = false ∧ flushGroup s ds = .fault .badDescriptor) := by
  unfold flushGroup
  cases hp : ds.all (Desc.packable s.extOn) with
  | false => exact .inr (.inr ⟨rfl, rfl⟩)
  | true =>
    by_cases ho : s.enc.o.toNat + (groupBytes s ds).length ≤ s.outputSize
    · have hw : s.writeOut? s.enc.o.toNat (groupBytes s ds) = some (s.putOut s.enc.o.toNat (groupBytes s ds)) :=
        if_pos ho
      exact .inl ⟨rfl, ho, by simp [hw]⟩
    · have hw : s.writeOut? s.enc.o.toNat (groupBytes s ds) = none := if_neg ho
      exact .inr (.inl ⟨rfl, by omega, by simp [hw]⟩)

/-- A flush touches `e_o` and OUT and nothing else. -/
theorem flushGroup_frame {s t : State} {ds : List Desc} (h : flushGroup s ds = .next t) :
    t = { s with outMem := t.outMem,
                 enc := { s.enc with o := word (s.enc.o.toNat + (groupBytes s ds).length) } } := by
  rcases flushGroup_cases s ds with ⟨-, -, h'⟩ | ⟨-, -, h'⟩ | ⟨-, h'⟩ <;> rw [h'] at h
  · obtain rfl := Host.Outcome.next.inj h
    rfl
  · cases h
  · cases h

/-- What the flush of a full group can do. -/
theorem flushFull_cases {s t : State} (h : flushFull s = .next t) :
    (s.enc.gn.val < 8 ∧ t = s) ∨
    (8 ≤ s.enc.gn.val ∧ ∃ u, flushGroup s (s.enc.held.take 8) = .next u ∧ t = u.withEnc u.enc.dropGroup) := by
  unfold flushFull groupSyms at h
  split at h
  · obtain ⟨u, hu, ht⟩ := andThen_eq_next.1 h
    exact .inr ⟨‹_›, u, hu, (Host.Outcome.next.inj ht).symm⟩
  · exact .inl ⟨by omega, (Host.Outcome.next.inj h).symm⟩

/-- A full-group flush leaves all but OUT, `e_o` and the group buffer. -/
theorem flushFull_frame {s t : State} (h : flushFull s = .next t) :
    t = { s with outMem := t.outMem, enc := { s.enc with o := t.enc.o, gbuf := t.enc.gbuf, gn := t.enc.gn } } := by
  rcases flushFull_cases h with ⟨-, rfl⟩ | ⟨-, u, hu, rfl⟩
  · rfl
  · have := flushGroup_frame hu
    rw [this]
    rfl

/-! ### The scan (R107 to R112) -/

/-- Every iteration moves the cursor on: by one byte without a match, by the match's length with one. -/
theorem scanRegs_i (e : EncRegs) (accepted : ProbeResult) (a : Word) :
    (scanRegs e accepted a).i = word (e.i.toNat + (match accepted with | some r => r.1 | none => 1)) := by
  unfold scanRegs
  rcases accepted with - | ⟨len, pos⟩
  · simp only [addLiteralByte]
    split <;> simp [emitLiteral]
  · simp only [addMatch]

/-- One iteration leaves the build, the registers of the host, the decoder registers, IN, CTX_LEVEL and `outDraw`. -/
theorem scanStep_frame {size : Nat} {s t : State} (h : scanStep size s = .next t) :
    t.build = s.build ∧ t.phase = s.phase ∧ t.regs = s.regs ∧ t.dec = s.dec ∧ t.inMem = s.inMem ∧
      t.outDraw = s.outDraw ∧ t.ctx.dirty = true ∧ t.ctx.level = s.ctx.level := by
  unfold scanStep at h
  simp only at h
  have hf := flushFull_frame h
  have hp := probeIndex_frame s.build s.inMem s.ctx s.enc.i.toNat (positionAnchor s.enc).toNat size s.extOn
  rw [hf]
  exact ⟨rfl, rfl, rfl, rfl, rfl, rfl, hp.1, hp.2.1⟩

end Sys2Proof.Machine
end

