-- ==== Sys2Proof/Laws/HostPort.lean ====
section
/-! SUPPORT. What the host's accesses can do: a loaded IN stays in its canonical form and inside OUTPUT_SIZE. -/

namespace Sys2Proof.Machine

/-- A host load of bytes that have a place keeps IN's form and bound (R21, R30). -/
theorem State.inMem_putIn {s : State} {a : Nat} {bytes : List Byte} (hw : Memory.wf s.inMem)
    (hb : Memory.below s.inMem s.outputSize) (h : a + bytes.length ≤ s.outputSize) :
    Memory.wf (s.putIn a bytes).inMem ∧ Memory.below (s.putIn a bytes).inMem s.outputSize :=
  ⟨Memory.wf_putRun bytes a hw, Memory.below_putRun bytes hb h⟩

/-- A facade call keeps IN's form and bound, whatever the length of its input (R150; log 27). -/
theorem State.inMem_called {s : State} (code : Byte) (input : List Byte) (ext : Bool) (hw : Memory.wf s.inMem)
    (hb : Memory.below s.inMem s.outputSize) :
    Memory.wf (s.called code input ext).inMem ∧ Memory.below (s.called code input ext).inMem s.outputSize :=
  State.inMem_putIn (a := 0) hw hb (by rw [List.length_take]; omega)

end Sys2Proof.Machine
end

