-- ==== Sys2Proof/Laws/PerInstr.lean ====
section
/-! SUPPORT. The per-instruction family: the encoded word of an instruction fits its own opcode-table row, and no other
row of its format. -/

/-- The word of an instruction as one number, byte 0 least significant. -/
def Sys2Proof.Laws.wordOf (bytes : List Sys2Proof.Byte) : Nat :=
  match bytes with
  | [] => 0
  | b :: rest => b.toNat + 256 * Sys2Proof.Laws.wordOf rest

/-- The rows that the word of an instruction fits are its own row alone (30_encoding.md R50, R59). -/
def Sys2Proof.Laws.FitsRow.Statement (i : Sys2Proof.Instr) : Prop :=
  Sys2Proof.opcodeRows.filter
      (fun r => r.fits (Sys2Proof.encode i).1 (Sys2Proof.Laws.wordOf (Sys2Proof.encode i).2)) =
    (Sys2Proof.opcodeRows[Sys2Proof.rowIndex i]?).toList

open Sys2Proof

theorem Sys2Proof.Laws.FitsRow.blkhdr (size : BitVec 24) : Sys2Proof.Laws.FitsRow.Statement (.blkhdr size) := by
  simp [Sys2Proof.Laws.FitsRow.Statement, Sys2Proof.encode, Sys2Proof.rowIndex, opcodeRows, OpcodeRow.fits]

theorem Sys2Proof.Laws.FitsRow.group (ctrl sz0 sz1 sz2 sz3 : Byte) :
    Sys2Proof.Laws.FitsRow.Statement (.group ctrl sz0 sz1 sz2 sz3) := by
  simp [Sys2Proof.Laws.FitsRow.Statement, Sys2Proof.encode, Sys2Proof.rowIndex, opcodeRows, OpcodeRow.fits]

theorem Sys2Proof.Laws.FitsRow.lit (nib : Nibble) : Sys2Proof.Laws.FitsRow.Statement (.lit nib) := by
  revert nib; unfold Sys2Proof.Laws.FitsRow.Statement; decide +kernel

theorem Sys2Proof.Laws.FitsRow.ref (nib : Nibble) : Sys2Proof.Laws.FitsRow.Statement (.ref nib) := by
  revert nib; unfold Sys2Proof.Laws.FitsRow.Statement; decide +kernel

theorem Sys2Proof.Laws.FitsRow.refx32 : Sys2Proof.Laws.FitsRow.Statement .refx32 := rfl
theorem Sys2Proof.Laws.FitsRow.refx48 : Sys2Proof.Laws.FitsRow.Statement .refx48 := rfl
theorem Sys2Proof.Laws.FitsRow.refx64 : Sys2Proof.Laws.FitsRow.Statement .refx64 := rfl
theorem Sys2Proof.Laws.FitsRow.refExt4 : Sys2Proof.Laws.FitsRow.Statement .refExt4 := rfl

theorem Sys2Proof.Laws.FitsRow.refExt5to8 (n : BitVec 2) : Sys2Proof.Laws.FitsRow.Statement (.refExt5to8 n) := by
  revert n; unfold Sys2Proof.Laws.FitsRow.Statement; decide +kernel

theorem Sys2Proof.Laws.FitsRow.refExt9to16 (n : BitVec 3) : Sys2Proof.Laws.FitsRow.Statement (.refExt9to16 n) := by
  revert n; unfold Sys2Proof.Laws.FitsRow.Statement; decide +kernel

theorem Sys2Proof.Laws.FitsRow.nop : Sys2Proof.Laws.FitsRow.Statement .nop := rfl
theorem Sys2Proof.Laws.FitsRow.ctxReset : Sys2Proof.Laws.FitsRow.Statement .ctxReset := rfl
theorem Sys2Proof.Laws.FitsRow.encode : Sys2Proof.Laws.FitsRow.Statement .encode := rfl
theorem Sys2Proof.Laws.FitsRow.decode : Sys2Proof.Laws.FitsRow.Statement .decode := rfl
theorem Sys2Proof.Laws.FitsRow.copy16 : Sys2Proof.Laws.FitsRow.Statement .copy16 := rfl
theorem Sys2Proof.Laws.FitsRow.copy32 : Sys2Proof.Laws.FitsRow.Statement .copy32 := rfl
theorem Sys2Proof.Laws.FitsRow.copy48 : Sys2Proof.Laws.FitsRow.Statement .copy48 := rfl
theorem Sys2Proof.Laws.FitsRow.copy64 : Sys2Proof.Laws.FitsRow.Statement .copy64 := rfl
theorem Sys2Proof.Laws.FitsRow.rd16le : Sys2Proof.Laws.FitsRow.Statement .rd16le := rfl
theorem Sys2Proof.Laws.FitsRow.wr16le : Sys2Proof.Laws.FitsRow.Statement .wr16le := rfl
theorem Sys2Proof.Laws.FitsRow.hash4 : Sys2Proof.Laws.FitsRow.Statement .hash4 := rfl
theorem Sys2Proof.Laws.FitsRow.matchlen : Sys2Proof.Laws.FitsRow.Statement .matchlen := rfl
theorem Sys2Proof.Laws.FitsRow.probe : Sys2Proof.Laws.FitsRow.Statement .probe := rfl
end

