-- ==== Sys2Proof/Tests/Slice0.lean ====
section
/-! SUPPORT. The model's own tests: the WellFormed smoke, a word of each constructor, one step of each instruction with
the values of 95_test_vectors.md, and for every statement with hypotheses a state and operands that meet them. -/

namespace Sys2Proof.Tests

open Sys2Proof Sys2Proof.Machine

set_option Elab.async false

/-! ### Helpers -/

/-- Bytes from numbers. -/
def bytes (l : List Nat) : List Byte := l.map (BitVec.ofNat 8)

/-- "abcdefghijklmnop" twice (vectors E1, P7). -/
def text32 : List Byte := (bytes (List.range' 0x61 16)) ++ bytes (List.range' 0x61 16)

/-- The payload of vector E1. -/
def payloadE1 : List Byte :=
  bytes ([0x20, 0, 0, 0xDF, 0xF0, 0xE0, 0, 0] ++ List.range' 0x61 16 ++ [0x61, 0x10, 0])

/-- After power-on, with bytes in IN and the argument registers set. -/
def unit (input : List Byte) (a0 a1 a2 a3 : Nat) : State :=
  let s := State.reset.putIn 0 input
  { s with regs := { s.regs with inSize := BitVec.ofNat 32 input.length, arg0 := BitVec.ofNat 32 a0,
                                 arg1 := BitVec.ofNat 32 a1, arg2 := BitVec.ofNat 32 a2,
                                 arg3 := BitVec.ofNat 32 a3 } }

/-- The unit with `n` bytes in OUT as well. -/
def unitOut (out : List Byte) (a0 a1 a2 : Nat) : State := (unit [] a0 a1 a2 0).putOut 0 out

/-- DECODE standing at symbol `k` of a group whose payload is at index 8, in a block of `size` bytes of which `out` is
decoded, with the anchor `anchor`. -/
def atSymbol (payload out : List Byte) (size anchor : Nat) (k : Fin 8) : State :=
  let s := (unit (List.replicate 8 0#8 ++ payload) 0 0 0 0).putOut 0 out
  { s with phase := .symbol,
           dec := { s.dec with i := 8, j := word out.length, anchor := word anchor, size := BitVec.ofNat 24 size, k := k } }

/-- What holds of the next state; false at a stop. -/
def after (o : Host.Outcome State Fault Refusal) (f : State → Bool) : Bool :=
  match o with
  | .next t => f t
  | .fault _ => false
  | .refused _ => false

/-- One step with a command code in CMD, issued. -/
def command (code : Byte) (s : State) : Host.Outcome State Fault Refusal := step (s.placeCommand code)

/-- STATUS and OUT_SIZE. -/
def ended (status outSize : Nat) (t : State) : Bool :=
  decide (t.regs.status.toNat = status ∧ t.regs.outSize.toNat = outSize ∧ t.phase = .idle)

/-! ### WellFormed: each check refuses an ill-formed term -/

theorem test_wf_blkhdr_too_long : Instr.wf .bits18 (.blkhdr 262145#24) = false := by decide
theorem test_wf_blkhdr_longest : Instr.wf .bits18 (.blkhdr 262144#24) = true := by decide
theorem test_wf_lit_empty : Sym.wf false (.lit []) = false := by decide
theorem test_wf_lit_too_long : Sym.wf false (.lit (List.replicate 17 0#8)) = false := by decide
theorem test_wf_ref_offset_zero : Sym.wf false (.ref 0 4) = false := by decide
theorem test_wf_ref_offset_too_big : Sym.wf false (.ref 65536 4) = false := by decide
theorem test_wf_ref_no_length : Sym.wf false (.ref 1 0) = false := by decide
theorem test_wf_ref_too_long : Sym.wf false (.ref 1 17) = false := by decide
theorem test_wf_ref_short_with_ext : Sym.wf true (.ref 1 3) = false := by decide
theorem test_wf_refx_without_ext : Sym.wf false (.refx 32 32) = false := by decide
theorem test_wf_refx_other_length : Sym.wf true (.refx 40 40) = false := by decide
theorem test_wf_refx_offset_zero : Sym.wf true (.refx 0 32) = false := by decide
theorem test_wf_listing_bad_symbol : Listing.wf .bits18 ⟨1, false, [.ref 0 1]⟩ = false := by decide
theorem test_wf_listing_wrong_sum : Listing.wf .bits18 ⟨2, false, [.lit [0#8]]⟩ = false := by decide
theorem test_wf_listing_too_long : Listing.wf .bits18 ⟨262145, true, [.refx 1 262145]⟩ = false := by decide

/-! ### A word of each constructor, written out from 30_encoding.md -/

/-- R46: bytes 0, 1, 2 are size[7:0], size[15:8], size[23:16]. -/
theorem test_decode_blkhdr : decode .blkhdr (bytes [0x56, 0x34, 0x12]) = .ok (.blkhdr 0x123456#24, []) := by decide
/-- R47: control byte, then the four size bytes. -/
theorem test_decode_group :
    decode .group (bytes [0xDF, 0xF0, 0xE0, 0x01, 0x02, 0x61]) =
      .ok (.group 0xDF#8 0xF0#8 0xE0#8 0x01#8 0x02#8, [0x61#8]) := by decide
/-- R50: x1nnnn. -/
theorem test_decode_lit : decode .sym [0b110101#8] = .ok (.lit 5#4, []) := by decide
/-- R50: 00nnnn. -/
theorem test_decode_ref : decode .sym [0b001010#8] = .ok (.ref 10#4, []) := by decide
/-- R50: 100000. -/
theorem test_decode_refx32 : decode .sym [0b100000#8] = .ok (.refx32, []) := by decide
/-- R50: 100001. -/
theorem test_decode_refx48 : decode .sym [0b100001#8] = .ok (.refx48, []) := by decide
/-- R50: 100010. -/
theorem test_decode_refx64 : decode .sym [0b100010#8] = .ok (.refx64, []) := by decide
/-- R50: 100011. -/
theorem test_decode_refExt4 : decode .sym [0b100011#8] = .ok (.refExt4, []) := by decide
/-- R50: 1001nn. -/
theorem test_decode_refExt5to8 : decode .sym [0b100111#8] = .ok (.refExt5to8 3#2, []) := by decide
/-- R50: 101nnn. -/
theorem test_decode_refExt9to16 : decode .sym [0b101100#8] = .ok (.refExt9to16 4#3, []) := by decide
/-- R59: the codes of the four general commands. -/
theorem test_decode_general :
    decode .cmd8 [0x00#8] = .ok (.nop, []) ∧ decode .cmd8 [0x01#8] = .ok (.ctxReset, []) ∧
    decode .cmd8 [0x02#8] = .ok (.encode, []) ∧ decode .cmd8 [0x03#8] = .ok (.decode, []) := by decide
/-- R59: the codes of the bit packer. -/
theorem test_decode_packer :
    decode .cmd8 [0x10#8] = .ok (.copy16, []) ∧ decode .cmd8 [0x11#8] = .ok (.copy32, []) ∧
    decode .cmd8 [0x12#8] = .ok (.copy48, []) ∧ decode .cmd8 [0x13#8] = .ok (.copy64, []) ∧
    decode .cmd8 [0x18#8] = .ok (.rd16le, []) ∧ decode .cmd8 [0x19#8] = .ok (.wr16le, []) := by decide
/-- R59: the codes of the match index. -/
theorem test_decode_index :
    decode .cmd8 [0x20#8] = .ok (.hash4, []) ∧ decode .cmd8 [0x21#8] = .ok (.matchlen, []) ∧
    decode .cmd8 [0x22#8] = .ok (.probe, []) := by decide
/-- R60: a reserved code; R50: a byte that is no selector; too few bytes. -/
theorem test_decode_refuses :
    decode .cmd8 [0x04#8] = .error (.reservedCommand 0x04#8) ∧ decode .sym [0x40#8] = .error (.notASelector 0x40#8) ∧
    decode .group (bytes [1, 2, 3, 4]) = .error (.cutShort .group) := by decide
theorem test_decodeTableWord :
    decodeTableWord 24 0x123456 = some (.blkhdr 0x123456#24) ∧
    decodeTableWord 40 0x0201E0F0DF = some (.group 0xDF#8 0xF0#8 0xE0#8 0x01#8 0x02#8) ∧
    decodeTableWord 8 0x22 = some .probe ∧ decodeTableWord 8 0x3A = some (.lit 10#4) := by decide

/-! ### One step of each instruction -/

/-- Vector E5's header: an empty block ends OK. -/
theorem test_blkhdr_empty : after (exec (.blkhdr 0#24) (unit [] 0 0 0 0)) (ended 0 0) = true := by decide +kernel
/-- Vector F2: 262 145 is announced, BLOCK_BITS = 18. -/
theorem test_blkhdr_too_long : after (exec (.blkhdr 0x040001#24) (unit [] 0 0 0 0)) (ended 2 0) = true := by
  decide +kernel
/-- R127: the group header of E1 is taken and `d_i` moves from 3 to 8. -/
theorem test_group :
    after (step ((unit payloadE1 0 0 0 0).withDec ⟨3, 0, 9, 32#24, 0#8, #v[0#8, 0#8, 0#8, 0#8], 0, 5⟩ |>.withPhase .group))
      (fun t => decide (t.dec = ⟨8, 0, 0, 32#24, 0xDF#8, #v[0xF0#8, 0xE0#8, 0#8, 0#8], 0, 0⟩ ∧ t.phase = .symbol)) =
      true := by decide +kernel
/-- Vector F3: 4 bytes of a group header. -/
theorem test_group_underrun :
    after (step ((unit (bytes [1, 0, 0, 0xFF, 0, 0, 0]) 0 0 0 0).withDec
      ⟨3, 0, 0, 1#24, 0#8, #v[0#8, 0#8, 0#8, 0#8], 0, 0⟩ |>.withPhase .group)) (ended 4 0) = true := by decide +kernel
/-- R130: three bytes at `d_j` = 2; `d_i` moves by 3. -/
theorem test_lit :
    after (exec (.lit 2#4) (atSymbol (bytes [7, 8, 9]) (bytes [1, 2]) 20 0 0))
      (fun t => decide (t.outRun 0 5 = bytes [1, 2, 7, 8, 9] ∧ t.dec.i = 11 ∧ t.dec.j = 5 ∧ t.dec.k = 1)) = true := by
  decide +kernel
/-- Vector F9b: announced 1, LIT 2. -/
theorem test_lit_overrun : after (exec (.lit 1#4) (atSymbol (bytes [0x41, 0x42]) [] 1 0 0)) (ended 7 0) = true := by
  decide +kernel
/-- Vector V2: REF len 4 off 17 at anchor 17 copies from 0; the block ends. -/
theorem test_ref :
    after (exec (.ref 3#4) (atSymbol (bytes [17, 0]) (bytes (List.range' 0x41 17)) 21 17 2))
      (fun t => ended 0 21 t && decide (t.result = bytes (List.range' 0x41 17 ++ [0x41, 0x42, 0x43, 0x44]))) = true := by
  decide +kernel
/-- Vector F8: off 3, len 4. -/
theorem test_ref_overlap :
    after (exec (.ref 3#4) (atSymbol (bytes [3, 0]) (bytes (List.range' 0x41 17)) 21 17 2)) (ended 6 0) = true := by
  decide +kernel
/-- Program P2: REFX off=32 len=32 at anchor 32. -/
theorem test_refx32 :
    after (exec .refx32 (atSymbol (bytes [32, 0]) (bytes (List.range 32)) 64 32 2))
      (fun t => ended 0 64 t && decide (t.result = bytes (List.range 32 ++ List.range 32))) = true := by decide +kernel
/-- Vector V7: REFX48 off 49 at anchor 49. -/
theorem test_refx48 :
    after (exec .refx48 (atSymbol (bytes [49, 0]) (bytes (List.range 49)) 97 49 4))
      (fun t => ended 0 97 t && decide (t.result = bytes (List.range 49 ++ List.range 48))) = true := by decide +kernel
/-- Vector V8: REFX64 off 64 at anchor 64. -/
theorem test_refx64 :
    after (exec .refx64 (atSymbol (bytes [64, 0]) (bytes (List.range 64)) 128 64 4))
      (fun t => ended 0 128 t && decide (t.result = bytes (List.range 64 ++ List.range 64))) = true := by decide +kernel
/-- Program P3's anchor: the odd symbol counts from the pair's start (20), not from its own (22). -/
theorem test_refExt4 :
    after (exec .refExt4 (atSymbol (bytes [20, 0]) (bytes (List.range 22)) 26 20 3))
      (fun t => decide (t.outRun 22 4 = bytes [0, 1, 2, 3])) = true := by decide +kernel
/-- R50: length 8; an offset beyond the anchor is ERR_OFFSET (vector F7). -/
theorem test_refExt5to8 :
    after (exec (.refExt5to8 3#2) (atSymbol (bytes [10, 0]) (bytes (List.range 10)) 40 10 1))
      (fun t => decide (t.outRun 10 8 = bytes (List.range 8) ∧ t.dec.j = 18 ∧ t.dec.anchor = 18)) = true := by
  decide +kernel
theorem test_refExt9to16_offset :
    after (exec (.refExt9to16 0#3) (atSymbol (bytes [18, 0]) (bytes (List.range 17)) 40 17 1)) (ended 5 0) = true := by
  decide +kernel
/-- R50: length 9 + 7 = 16; symbol 7 is followed by a group header. -/
theorem test_refExt9to16 :
    after (exec (.refExt9to16 7#3) (atSymbol (bytes [16, 0]) (bytes (List.range 16)) 40 16 7))
      (fun t => decide (t.outRun 16 16 = bytes (List.range 16) ∧ t.phase = .group)) = true := by decide +kernel
/-- Vector C2: OUT_SIZE stays. -/
theorem test_nop : after (command 0x00#8 ((unit [] 0 0 0 0).setOutSize 32)) (ended 0 32) = true := by decide +kernel
/-- Vectors C3 and C4. -/
theorem test_reserved :
    after (command 0x04#8 ((unit [] 0 0 0 0).setOutSize 32)) (ended 1 0) = true ∧
    after (command 0xFF#8 (unit [] 0 0 0 0)) (ended 1 0) = true := by decide +kernel
/-- Vector C5. -/
theorem test_ctxReset :
    after (command 0x01#8 (((unit [] 0 0 0 0).writeReg .level 2).withCtx
        ⟨[(5, ⟨3, Vector.replicate 4 ⟨9#32, 1⟩⟩)], [], [], 40, 0#4, true⟩))
      (fun t => ended 0 0 t && decide (t.ctx = ⟨[(5, ⟨0, Vector.replicate 4 ⟨9#32, 1⟩⟩)], [], [], 0, 2#4, false⟩)) =
      true := by decide +kernel
/-- Vector E1. -/
theorem test_encode :
    after (callEncode (unit [] 0 0 0 0) text32 false) (fun t => ended 0 27 t && decide (t.result = payloadE1)) = true := by
  decide +kernel
/-- ENCODE without CTX_RESET after another (end of 2.3): ERR_NOT_RESET. -/
theorem test_encode_not_reset :
    after (command 0x02#8 ((unit text32 0 0 0 0).withCtx ⟨[], [], [], 0, 0#4, true⟩)) (ended 8 0) = true := by
  decide +kernel
/-- Vector V1. -/
theorem test_decode_block :
    after (callDecode (unit [] 0 0 0 0) payloadE1 false) (fun t => ended 0 32 t && decide (t.result = text32)) = true := by
  decide +kernel
/-- Vector V3: a source that ends at the anchor is accepted. -/
theorem test_decode_source_to_anchor :
    after (callDecode (unit [] 0 0 0 0)
        (bytes ([0x15, 0, 0, 0xDF, 0xF0, 0x30, 0, 0] ++ List.range' 0x41 17 ++ [4, 0])) false)
      (fun t => ended 0 21 t && decide (t.outRun 17 4 = bytes [0x4E, 0x4F, 0x50, 0x51])) = true := by decide +kernel
/-- Vector K1: overlapping ranges, all 16 bytes are read first. -/
theorem test_copy16 :
    after (command 0x10#8 (unitOut (bytes (List.range 16)) 4 0 1))
      (fun t => ended 0 0 t && decide (t.outRun 0 20 = bytes ([0, 1, 2, 3] ++ List.range 16))) = true := by decide +kernel
/-- Vector K9. -/
theorem test_copy16_selector : after (command 0x10#8 (unitOut [] 0 0 2)) (ended 9 0) = true := by decide +kernel
/-- Vector K3: the second chunk reads what the first wrote. -/
theorem test_copy32 :
    after (command 0x11#8 (unitOut (bytes (List.range 40)) 8 0 1))
      (fun t => decide (t.outRun 0 40 =
        bytes (List.range 8 ++ List.range 16 ++ List.range' 8 8 ++ List.range' 0x18 8))) = true := by decide +kernel
/-- Vector K5. -/
theorem test_copy48 :
    after (command 0x12#8 (unit (bytes (List.range 48)) 200 0 0 0))
      (fun t => decide (t.outRun 200 48 = bytes (List.range 48))) = true := by decide +kernel
/-- Vector K6. -/
theorem test_copy64 :
    after (command 0x13#8 (unitOut (bytes (List.range 64)) 64 0 1))
      (fun t => decide (t.outRun 0 128 = bytes (List.range 64 ++ List.range 64))) = true := by decide +kernel
/-- Vectors K7 and K8: the last place that has room, and the first that has not. -/
theorem test_copy64_bounds :
    after (command 0x13#8 (unit [] 327616 0 0 0)) (ended 0 0) = true ∧
    after (command 0x13#8 (unit [] 327617 0 0 0)) (ended 9 0) = true := by decide +kernel
/-- Vector K11. -/
theorem test_rd16le :
    after (command 0x18#8 (unit (bytes [0, 0, 0, 0, 0, 0, 0, 0xFB, 0xFF]) 7 0 0 0))
      (fun t => decide (t.regs.res0 = 65531#32)) = true := by decide +kernel
/-- Vector K12. -/
theorem test_rd16le_bound : after (command 0x18#8 (unit [] 327679 0 0 0)) (ended 9 0) = true := by decide +kernel
/-- Vector K14. -/
theorem test_wr16le :
    after (command 0x19#8 (unit [] 10 0xFFFB 0 0)) (fun t => decide (t.outRun 10 2 = bytes [0xFB, 0xFF])) = true := by
  decide +kernel
/-- Vector K15. -/
theorem test_wr16le_value : after (command 0x19#8 (unit [] 10 65536 0 0)) (ended 9 0) = true := by decide +kernel
/-- The HASH4 table of 2.2. -/
theorem test_hash4 :
    after (command 0x20#8 (unit [] 0x64636261 0 0 0)) (fun t => decide (t.regs.res0 = 0x1AAA7#32)) = true ∧
    after (command 0x20#8 (unit [] 0x64636261 1 0 0)) (fun t => decide (t.regs.res0 = 0x2F3EC#32)) = true := by
  decide +kernel
/-- The HASH4 table of 2.2: ARG1 = 2. -/
theorem test_hash4_selector : after (command 0x20#8 (unit [] 0 2 0 0)) (ended 9 0) = true := by decide +kernel
/-- The MATCHLEN table of 2.2: (0, 17, 17, 100) gives 16, (0, 3, 3, 200) gives 0. -/
theorem test_matchlen :
    after (command 0x21#8 (unit (List.replicate 100 0#8) 0 17 17 100)) (fun t => decide (t.regs.res0 = 16#32)) = true ∧
    after (command 0x21#8 (unit (List.replicate 100 0#8) 0 3 3 200)) (fun t => decide (t.regs.res0 = 0#32)) = true := by
  decide +kernel
/-- The MATCHLEN table of 2.2 under EXT: (0, 100, 100, 133) gives 32. -/
theorem test_matchlen_ext :
    after (command 0x21#8 ((unit (List.replicate 140 0#8) 0 100 100 133).writeReg .ext 1))
      (fun t => decide (t.regs.res0 = 32#32)) = true := by decide +kernel
/-- Program P7: a miss is inserted, then the symbol is found at 0 with 16 bytes. -/
theorem test_probe :
    after (command 0x22#8 (unit text32 0 0 32 0)) (fun t =>
      decide (t.regs.res0 = 0#32 ∧ t.ctx.dirty = true) &&
        after (command 0x22#8 ((t.writeReg .arg0 16).writeReg .arg1 16))
          (fun u => decide (u.regs.res0 = 16#32 ∧ u.regs.res1 = 0#32))) = true := by decide +kernel
/-- Vector Q5. -/
theorem test_probe_size : after (command 0x22#8 (unit [] 0 0 262145 0)) (ended 9 0) = true := by decide +kernel

/-! ### `withFetchWord`: the very next step runs the word -/

theorem test_withFetchWord_command :
    after (step (State.reset.withFetchWord 8 0x00)) (ended 0 0) = true ∧
    after (step (State.reset.withFetchWord 8 0x04)) (ended 5 0) = true := by decide +kernel
theorem test_withFetchWord_stream :
    after (step (State.reset.withFetchWord 24 5)) (fun t => decide (t.dec.size = 5#24 ∧ t.phase = .group)) = true ∧
    after (step (State.reset.withFetchWord 40 0xDF)) (fun t => decide (t.dec.ctrl = 0xDF#8 ∧ t.phase = .symbol)) = true ∧
    after (step (State.reset.withFetchWord 8 0x3F)) (fun t => decide (t.dec.j = 16 ∧ t.dec.i = 24)) = true := by
  decide +kernel

/-! ### Witnesses: for every statement with hypotheses, a state and operands that meet them, clause by clause -/

theorem witness_LengthFunctions :
    (false = false ∧ true = true ∧ (2#4).toNat ≤ 2) ∧ 2 < (3#4).toNat ∧ (1 ≤ 16 ∧ 16 ≤ 16) ∧
    (4 ≤ 4 ∧ 4 ≤ 16) ∧ (0 = 0 ∨ 16 < 0) ∧ (16 < 17) ∧ (3 ≠ 32 ∧ 3 ≠ 48 ∧ 3 ≠ 64 ∧ 3 < 4) ∧
    nibbleOf false 64 true = some 2#4 := by decide

theorem witness_UnpackUndoesPackHeader :
    let ds : List Desc := [⟨true, 16, 0, 0⟩, ⟨true, 1, 16, 0⟩, ⟨false, 15, 1, 17⟩]
    ds.length ≤ 8 ∧ packHeader ds false = [0xDF#8, 0xF0#8, 0xE0#8, 0#8, 0#8] ∧
    ds[2]? = some ⟨false, 15, 1, 17⟩ ∧ nibbleOf false 15 false = some 14#4 ∧ ds.length ≤ 3 := by decide

theorem witness_StepRunsTheDecodedInstruction :
    ((State.reset.placeCommand 0x22#8).phase = .issued ∧
      decodeCmd (State.reset.placeCommand 0x22#8).regs.cmd = .ok .probe) ∧
    (let s := State.reset.placeHeader 5#24
     s.phase = .header ∧ decode .blkhdr [s.inAt 0, s.inAt 1, s.inAt 2] = .ok (.blkhdr 5#24, [])) ∧
    (let s := (State.reset.placeGroup 1#8 2#8 3#8 4#8 5#8).writeReg .inSize 8
     s.phase = .group ∧ s.dec.i.toNat + 5 ≤ s.inSize ∧
       decode .group [s.inAt s.dec.i.toNat, s.inAt (s.dec.i.toNat + 1), s.inAt (s.dec.i.toNat + 2),
         s.inAt (s.dec.i.toNat + 3), s.inAt (s.dec.i.toNat + 4)] = .ok (.group 1#8 2#8 3#8 4#8 5#8, [])) ∧
    (let s := (State.reset.placeGroup 1#8 2#8 3#8 4#8 5#8).writeReg .inSize 7
     s.phase = .group ∧ s.inSize < s.dec.i.toNat + 5) ∧
    (let s := State.reset.placeSymbol 0b100110#6
     s.phase = .symbol ∧ unpackSymbol s.dec.ctrl s.dec.sz s.dec.k = (false, 6#4) ∧
       decodeSym (selOf s.extOn false 6#4) = .refExt5to8 2#2) := by decide +kernel

theorem witness_ReservedCommandRejected :
    ∀ c ∈ [0x04#8, 0x0F#8, 0x14#8, 0x17#8, 0x1A#8, 0x1F#8, 0x23#8, 0xFF#8],
      (State.reset.placeCommand c).phase = .issued ∧
      (let s := State.reset.placeCommand c
       (0x04 ≤ s.regs.cmd.toNat ∧ s.regs.cmd.toNat ≤ 0x0F) ∨ (0x14 ≤ s.regs.cmd.toNat ∧ s.regs.cmd.toNat ≤ 0x17) ∨
       (0x1A ≤ s.regs.cmd.toNat ∧ s.regs.cmd.toNat ≤ 0x1F) ∨ (0x23 ≤ s.regs.cmd.toNat ∧ s.regs.cmd.toNat ≤ 0xFF)) := by
  decide

theorem witness_NothingRunsUnissued : State.reset.phase = .idle := rfl

/-- A context with live entries in both indexes. -/
def usedCtx : Ctx :=
  ⟨[(3, ⟨1, Vector.replicate 4 ⟨7#32, 0⟩⟩), (9, ⟨2, Vector.replicate 4 ⟨8#32, 1⟩⟩)],
   [(4, ⟨1, Vector.replicate 4 ⟨7#32, 0, 1⟩⟩)], [], 4, 1#4, true⟩

theorem witness_CtxResetClearsTheContext : keysRising usedCtx.fast ∧ keysRising usedCtx.multi := by decide

theorem witness_Copy16MovesSixteenBytes :
    (let s := unit [] 327664 327664 1 0
     s.regs.arg2.toNat ≤ 1 ∧ s.regs.arg0.toNat + 16 ≤ s.outputSize ∧ s.regs.arg1.toNat + 16 ≤ s.outputSize) ∧
    1 < (unit [] 0 0 2 0).regs.arg2.toNat ∧
    (unit [] 0 0 0 0).outputSize < (unit [] 327665 0 0 0).regs.arg0.toNat + 16 ∧
    (unit [] 0 0 0 0).outputSize < (unit [] 0 327665 0 0).regs.arg1.toNat + 16 := by decide +kernel

theorem witness_WideCopiesMoveTheirBytes :
    ∀ q ∈ [(Instr.copy32, 32), (Instr.copy48, 48), (Instr.copy64, 64)],
      let s := unit [] q.2 0 1 0
      s.regs.arg2.toNat ≤ 1 ∧ s.regs.arg0.toNat + q.2 ≤ s.outputSize ∧ s.regs.arg1.toNat + q.2 ≤ s.outputSize ∧
      (s.regs.arg2 = 0#32 ∨ s.regs.arg0.toNat + q.2 ≤ s.regs.arg1.toNat ∨ s.regs.arg1.toNat + q.2 ≤ s.regs.arg0.toNat) := by
  decide +kernel

theorem witness_WideCopiesAreChunksInOrder :
    ∀ q ∈ [(Instr.copy32, Instr.copy16, 16), (Instr.copy48, Instr.copy32, 32), (Instr.copy64, Instr.copy48, 48)],
      let s := unit [] 8 0 1 0
      s.regs.arg2.toNat ≤ 1 ∧ s.regs.arg0.toNat + (q.2.2 + 16) ≤ s.outputSize ∧
      s.regs.arg1.toNat + (q.2.2 + 16) ≤ s.outputSize := by decide +kernel

theorem witness_WideCopiesRejectBadArguments :
    ∀ q ∈ [(Instr.copy32, 32), (Instr.copy48, 48), (Instr.copy64, 64)],
      1 < (unit [] 0 0 2 0).regs.arg2.toNat ∧
      (unit [] 0 0 0 0).outputSize < (unit [] (327681 - q.2) 0 0 0).regs.arg0.toNat + q.2 ∧
      (unit [] 0 0 0 0).outputSize < (unit [] 0 (327681 - q.2) 0 0).regs.arg1.toNat + q.2 := by decide +kernel

theorem witness_Rd16leReadsTheLittleEndianWord :
    (unit [] 327678 0 0 0).regs.arg0.toNat + 2 ≤ (unit [] 327678 0 0 0).outputSize ∧
    (unit [] 327679 0 0 0).outputSize < (unit [] 327679 0 0 0).regs.arg0.toNat + 2 := by decide +kernel

theorem witness_Wr16leStoresTheLittleEndianWord :
    (let s := unit [] 327678 65535 0 0
     s.regs.arg0.toNat + 2 ≤ s.outputSize ∧ s.regs.arg1.toNat ≤ 65535) ∧
    (unit [] 327679 0 0 0).outputSize < (unit [] 327679 0 0 0).regs.arg0.toNat + 2 ∧
    65535 < (unit [] 0 65536 0 0).regs.arg1.toNat := by decide +kernel

theorem witness_Hash4FoldsTheSymbol :
    (unit [] 5 0 0 0).regs.arg1 = 0#32 ∧ (unit [] 5 0 0 0).build.hashF = .fold ∧
    (unit [] 5 1 0 0).regs.arg1 = 1#32 ∧ (unit [] 5 1 0 0).build.hashM = .fold ∧
    1 < (unit [] 5 2 0 0).regs.arg1.toNat := by decide +kernel

theorem witness_Hash4StaysInTheTable :
    (unit [] 5 0 0 0).regs.arg1.toNat ≤ 1 ∧ (unit [] 5 1 0 0).regs.arg1.toNat ≤ 1 := by decide +kernel

theorem witness_MatchLenIsTheCappedRun :
    ¬ ((5 : Nat) < 5 ∧ 5 < 5 ∧ 5 ≤ 5 ∧ 5 < 200) ∧ ((0 : Nat) < 17 ∧ 0 < 17 ∧ 17 ≤ 17 ∧ 17 < 100) := by decide

theorem witness_MatchLenRoundsToEncodableLengths :
    ¬ ((0 : Nat) < 100 ∧ 0 < 101 ∧ 101 ≤ 100 ∧ 100 < 200) ∧ ((0 : Nat) < 100 ∧ 0 < 100 ∧ 100 ≤ 100 ∧ 100 < 133) := by
  decide

theorem witness_MatchlenReportsMatchLen :
    (unit [] 0 1 1 262144).regs.arg3.toNat ≤ (unit [] 0 1 1 262144).blockSize ∧
    (unit [] 0 1 1 262145).blockSize < (unit [] 0 1 1 262145).regs.arg3.toNat := by decide +kernel

theorem witness_ProbeReportsItsResult :
    (unit [] 0 0 262144 0).regs.arg2.toNat ≤ (unit [] 0 0 262144 0).blockSize ∧
    (unit [] 0 0 262145 0).blockSize < (unit [] 0 0 262145 0).regs.arg2.toNat := by decide +kernel

theorem witness_ProbeNearTheEndReturnsNoneAndSetsDirty : (32 : Nat) < 29 + 4 := by decide

/-- `text32` in IN. -/
def textMem : Memory := Memory.putRun [] 0 text32

/-- The bucket of "abcd" holds it at 0 (level 0), or holds other symbols. -/
def fastCtx (count : Byte) (sym : Word) : Ctx :=
  ⟨[(0x1AAA7, ⟨count, #v[⟨sym, 0⟩, ⟨1#32, 0⟩, ⟨2#32, 0⟩, ⟨3#32, 0⟩]⟩)], [], [], 0, 0#4, false⟩

theorem witness_FastRefHitRefreshesTheEntry :
    let c := fastCtx 1 0x64636261#32
    c.level = 0#4 ∧ 16 + 4 ≤ 32 ∧ 0x1AAA7 = hashF Build.standard (symAt textMem 16) ∧
    (0 : Fin 4).val < (fastAt c 0x1AAA7).count.toNat ∧ ((fastAt c 0x1AAA7).entry[(0 : Fin 4)]).sym = symAt textMem 16 ∧
    (∀ f : Fin 4, f.val < (0 : Fin 4).val → ((fastAt c 0x1AAA7).entry[f]).sym ≠ symAt textMem 16) ∧
    4 ≤ matchLen textMem ((fastAt c 0x1AAA7).entry[(0 : Fin 4)]).pos.toNat 16 16 32 false ∧
    matchLen textMem ((fastAt c 0x1AAA7).entry[(0 : Fin 4)]).pos.toNat 16 0 32 false < 4 := by decide +kernel

theorem witness_FastRefMissAppends :
    0x1AAA7 = hashF Build.standard (symAt textMem 16) ∧
    ∀ k ∈ [0, 3, 4],
      let c := fastCtx (BitVec.ofNat 8 k) 9#32
      c.level = 0#4 ∧ 16 + 4 ≤ 32 ∧ (fastAt c 0x1AAA7).count.toNat = k ∧
      ∀ f : Fin 4, f.val < (fastAt c 0x1AAA7).count.toNat → ((fastAt c 0x1AAA7).entry[f]).sym ≠ symAt textMem 16 := by
  decide +kernel

/-- The MultiRef bucket of "abcd" at level 1 holds it, or holds other symbols. -/
def multiCtx (count : Byte) (sym occ : Word) : Ctx :=
  ⟨[], [(0x2F3EC, ⟨count, #v[⟨sym, 0, occ⟩, ⟨1#32, 0, 1⟩, ⟨2#32, 0, 1⟩, ⟨3#32, 0, 1⟩]⟩)], [(1, 4)],
   if occ = 1#32 then 0 else 2, 1#4, false⟩

theorem witness_MultiRefFirstRepeatTakesASlot :
    let c := multiCtx 1 0x64636261#32 1
    c.level ≠ 0#4 ∧ 16 + 4 ≤ 32 ∧ 0x2F3EC = hashM Build.standard (symAt textMem 16) ∧
    (0 : Fin 4).val < (multiAt c 0x2F3EC).count.toNat ∧ ((multiAt c 0x2F3EC).entry[(0 : Fin 4)]).sym = symAt textMem 16 ∧
    (∀ f : Fin 4, f.val < (0 : Fin 4).val → ((multiAt c 0x2F3EC).entry[f]).sym ≠ symAt textMem 16) ∧
    ((multiAt c 0x2F3EC).entry[(0 : Fin 4)]).occ = 1#32 ∧
    4 ≤ matchLen textMem ((multiAt c 0x2F3EC).entry[(0 : Fin 4)]).pos.toNat 16 16 32 false ∧
    c.poolCur.toNat + min (2 ^ c.level.toNat) 1024 ≤ Build.standard.poolEntries.toNat ∧
    matchLen textMem ((multiAt c 0x2F3EC).entry[(0 : Fin 4)]).pos.toNat 16 0 32 false < 4 ∧
    ({ Build.standard with poolEntries := 1 } : Build).poolEntries.toNat < c.poolCur.toNat + min (2 ^ c.level.toNat) 1024 := by
  decide +kernel

theorem witness_MultiRefRepeatPicksTheBest :
    let c := multiCtx 1 0x64636261#32 2
    c.level ≠ 0#4 ∧ 16 + 4 ≤ 32 ∧ 0x2F3EC = hashM Build.standard (symAt textMem 16) ∧
    (0 : Fin 4).val < (multiAt c 0x2F3EC).count.toNat ∧
    (multiAt c 0x2F3EC).entry[(0 : Fin 4)] = ⟨symAt textMem 16, 0, 2⟩ ∧
    (∀ f : Fin 4, f.val < (0 : Fin 4).val → ((multiAt c 0x2F3EC).entry[f]).sym ≠ symAt textMem 16) ∧
    2 ≤ (2#32).toNat ∧ 2 = min (2 ^ c.level.toNat) 1024 ∧
    (∀ k < min 2 2, ¬ (4 ≤ matchLen textMem (poolAt Build.standard c (0 + k)).toNat 16 0 32 false ∧
      0 - (poolAt Build.standard c (0 + k)).toNat < 65504)) ∧
    (∃ k < min 2 2, 4 ≤ matchLen textMem (poolAt Build.standard c (0 + k)).toNat 16 16 32 false ∧
      16 - (poolAt Build.standard c (0 + k)).toNat < 65504) ∧
    (0#32).toNat + 2 ≤ Build.standard.poolEntries.toNat ∧ (2#32).toNat + 1 < 2 ^ 32 := by
  decide +kernel

theorem witness_MultiRefMissAppends :
    0x2F3EC = hashM Build.standard (symAt textMem 16) ∧
    ∀ k ∈ [0, 3, 4],
      let c := multiCtx (BitVec.ofNat 8 k) 9#32 1#32
      c.level ≠ 0#4 ∧ 16 + 4 ≤ 32 ∧ (multiAt c 0x2F3EC).count.toNat = k ∧
      ∀ f : Fin 4, f.val < (multiAt c 0x2F3EC).count.toNat → ((multiAt c 0x2F3EC).entry[f]).sym ≠ symAt textMem 16 := by
  decide +kernel

theorem witness_ProbeResultIsARealRun :
    let c := multiCtx 1 0x64636261#32 2
    (∃ c', probeIndex Build.standard textMem c 16 16 32 false = (some (16, 0), c')) ∧ c.level ≠ 0#4 ∧
    findMulti (multiAt c (hashM Build.standard (symAt textMem 16))) (symAt textMem 16) = some 0 ∧
    2 ≤ ((multiAt c (hashM Build.standard (symAt textMem 16))).entry[(0 : Fin 4)]).occ.toNat := by
  refine ⟨⟨(probeIndex Build.standard textMem (multiCtx 1 0x64636261#32 2) 16 16 32 false).2, ?_⟩, ?_⟩ <;> decide +kernel

theorem witness_EncodeRefusesBeforeAnyEffect :
    (let s := State.reset.writeReg .inSize 262145
     s.blockSize < s.inSize) ∧
    (let s := State.reset.withCtx usedCtx
     s.inSize ≤ s.blockSize ∧ s.ctx.dirty = true) := by decide +kernel

/-- ENCODE in mid-scan over four repeats of the alphabet's first sixteen letters: the cursor at `i`, the run from `lit`,
`gn` symbols held, room in OUT for one group of the greatest size. -/
def scanning (i lit n : Nat) (gn : Fin 10) : State :=
  let s := unit (text32 ++ text32) 0 0 0 0
  { s with ctx := fastCtx 1 0x64636261#32,
           enc := ⟨word i, word lit, word n, 16, word (327680 - 133), Vector.replicate 9 ⟨true, 1, 0, 0⟩, gn⟩ }

/-- What the probe of `scanning i lit n gn` returns against the anchor `a`. -/
def scanned (i lit n a : Nat) (gn : Fin 10) : ProbeResult :=
  let s := scanning i lit n gn
  (probeIndex s.build s.inMem s.ctx i a 64 s.extOn).1

/-- The completion clause; the iteration clause with a candidate (a literal of 15 pending, or none) and without one (the
run goes on, or reaches 16); the tail clause with eight symbols, and with none. -/
theorem witness_EncodeCompletes :
    ((State.reset.writeReg .inSize 262144).inSize ≤ (State.reset.writeReg .inSize 262144).blockSize ∧
      (State.reset.writeReg .inSize 262144).ctx.dirty = false) ∧
    (∀ q ∈ [(32, 17, 1), (32, 32, 0), (0, 0, 0), (15, 0, 0)], let s := scanning q.1 q.2.1 q.2.2 7
      q.2.1 ≤ q.1 ∧ q.1 < q.2.1 + 16 ∧ q.1 < 64 ∧ 64 ≤ s.blockSize ∧ s.enc.gn.val ≤ 7 ∧
      s.enc.held.all (Desc.packable s.extOn) = true ∧ s.enc.o.toNat + 133 ≤ s.outputSize) ∧
    scanned 32 17 1 32 7 = some (16, 0) ∧ scanned 32 32 0 32 7 = some (16, 0) ∧ 1 ≤ 32 - 0 ∧ 32 - 0 ≤ 65531 ∧
    0 + 16 < 32 ∧ scanned 0 0 0 0 7 = none ∧ scanned 15 0 0 0 7 = none ∧
    (scanning 15 0 0 7).enc.held.length + 1 = 8 ∧ (scanning 15 15 0 0).enc.held = [] := by decide +kernel

/-- The state after ENCODE of one byte. -/
def encodedZ : State :=
  match exec .encode (unit (bytes [0x5A]) 0 0 0 0) with
  | .next t => t
  | .fault _ => State.reset
  | .refused _ => State.reset

theorem witness_EncodeOutputIsBounded :
    (unit (bytes [0x5A]) 0 0 0 0).inSize ≤ (unit (bytes [0x5A]) 0 0 0 0).blockSize ∧
    (unit (bytes [0x5A]) 0 0 0 0).ctx.dirty = false ∧
    exec .encode (unit (bytes [0x5A]) 0 0 0 0) = .next encodedZ := by
  refine ⟨by decide +kernel, by decide +kernel, by rfl⟩

theorem witness_EncodeOfAnEmptyBlock : State.reset.inSize = 0 ∧ State.reset.ctx.dirty = false := by decide +kernel

theorem witness_AcceptedCandidateIsLegal :
    acceptCandidate (probeIndex Build.standard textMem (fastCtx 1 0x64636261#32) 16 17 32 false).1 17 = none ∧
    acceptCandidate (probeIndex Build.standard (Memory.putRun [] 0 (text32 ++ text32)) (fastCtx 1 0x64636261#32)
      32 32 64 false).1 32 = some (16, 0) := by decide +kernel

/-- Two units with one build, level and EXT, and one byte in IN; the second has other arguments and another level
register. -/
theorem witness_EncodeIsAFunctionOfTheInput :
    let s := unit (bytes [0x5A]) 0 0 0 0
    let u := (unit (bytes [0x5A]) 7 8 9 1).writeReg .level 3
    (s.build = u.build ∧ s.ctx.level = u.ctx.level ∧ s.regs.ext = u.regs.ext ∧ s.regs.inSize = u.regs.inSize ∧
      (∀ a < s.inSize, s.inAt a = u.inAt a) ∧ s.ctx.dirty = false ∧ u.ctx.dirty = false ∧ s.ctx.poolCur = 0#32 ∧
      u.ctx.poolCur = 0#32 ∧ encodedZ.regs.status = 0#8) ∧
    (∀ h, (fastAt s.ctx h).count = 0#8 ∧ (multiAt s.ctx h).count = 0#8) ∧
    (∀ h, (fastAt u.ctx h).count = 0#8 ∧ (multiAt u.ctx h).count = 0#8) ∧ exec .encode s = .next encodedZ := by
  refine ⟨by decide +kernel, fun _ => ⟨rfl, rfl⟩, fun _ => ⟨rfl, rfl⟩, by rfl⟩

theorem witness_DecodeOfEncodedBlock :
    (bytes [0x5A]).length ≤ State.reset.blockSize ∧ State.reset.ctx.dirty = false ∧
    (unit text32 1 2 3 4).build.geometry = State.reset.build.geometry := by decide +kernel

theorem witness_PlainPayloadDecodesUnderExtensions :
    text32.length ≤ State.reset.blockSize ∧ State.reset.ctx.dirty = false ∧
    (State.reset.withCtx usedCtx).build.geometry = State.reset.build.geometry := by decide +kernel

theorem witness_DecodeRefusesBadInputSizes :
    (State.reset.writeReg .inSize 327681).outputSize < (State.reset.writeReg .inSize 327681).inSize ∧
    (State.reset.writeReg .inSize 2).inSize < 3 := by decide +kernel

theorem witness_DecodeAlwaysEnds :
    ∀ n ∈ [3, 327680], 3 ≤ (State.reset.writeReg .inSize n).inSize ∧
      (State.reset.writeReg .inSize n).inSize ≤ (State.reset.writeReg .inSize n).outputSize := by decide +kernel

/-- Vector F2 as a payload: OUT keeps its byte. And vector F3: OUT keeps none. -/
theorem test_decode_rejections :
    after (exec .decode ((unit (bytes [0x01, 0x00, 0x04]) 0 0 0 0).putOut 0 [9#8]))
      (fun t => ended 2 0 t && decide (t.outMem = [(0, 9#8)])) = true ∧
    after (exec .decode ((unit (bytes [1, 0, 0, 0xFF, 0, 0, 0]) 0 0 0 0).putOut 0 [9#8]))
      (fun t => ended 4 0 t && decide (t.outMem = [])) = true := by decide +kernel

theorem witness_DecodeIsItsSymbolsInTurn :
    3 ≤ (unit payloadE1 0 0 0 0).inSize ∧ (unit payloadE1 0 0 0 0).inSize ≤ (unit payloadE1 0 0 0 0).outputSize ∧
    (unit payloadE1 0 0 0 0).inSize + 1 ≤ 28 := by decide +kernel

theorem witness_BlockHeaderAnnouncesTheLength :
    (0 < (1#24).toNat ∧ (262144#24).toNat ≤ State.reset.blockSize) ∧ 0#24 = 0#24 ∧
    State.reset.blockSize < (262145#24).toNat := by decide +kernel

theorem witness_GroupHeaderIsFetchedWhole :
    (let s := State.reset.placeGroup 1#8 2#8 3#8 4#8 5#8 |>.writeReg .inSize 8
     s.dec.i.toNat + 5 ≤ s.inSize ∧ s.inSize ≤ s.outputSize) ∧
    (let s := State.reset.placeGroup 1#8 2#8 3#8 4#8 5#8 |>.writeReg .inSize 7
     s.inSize < s.dec.i.toNat + 5) := by decide +kernel

theorem witness_LitCopiesItsBytes :
    ∀ size ∈ [2, 3], let s := atSymbol (bytes [7, 8]) [] size 0 7
      2 = (1#4).toNat + 1 ∧ s.dec.i.toNat + 2 ≤ s.inSize ∧ s.inSize ≤ s.outputSize ∧ s.dec.j.toNat + 2 ≤ s.dec.size.toNat ∧
      s.dec.size.toNat ≤ s.blockSize := by decide +kernel

theorem witness_LitRejectsInOrder :
    2 = (1#4).toNat + 1 ∧
    (let s := atSymbol (bytes [7]) [] 5 0 0
     s.inSize < s.dec.i.toNat + 2) ∧
    (let s := atSymbol (bytes [7, 8]) [] 1 0 0
     s.dec.i.toNat + 2 ≤ s.inSize ∧ s.dec.size.toNat < s.dec.j.toNat + 2) := by decide +kernel

/-- Seventeen bytes decoded, the anchor at 17, an offset in the payload. -/
def refState (off size : Nat) : State := atSymbol (putLE16 off) (bytes (List.range' 0x41 17)) size 17 2

theorem witness_BackReferenceCopiesFromTheAnchor :
    ∀ size ∈ [21, 22], let s := refState 4 size
      refLength .refExt4 = some 4 ∧ 4 = (s.inAt s.dec.i.toNat).toNat + 256 * (s.inAt (s.dec.i.toNat + 1)).toNat ∧
      s.dec.i.toNat + 2 ≤ s.inSize ∧ s.inSize ≤ s.outputSize ∧ 1 ≤ 4 ∧ 4 ≤ s.dec.anchor.toNat ∧ 4 ≤ 4 ∧
      s.dec.anchor.toNat ≤ s.dec.j.toNat ∧ s.dec.j.toNat + 4 ≤ s.dec.size.toNat ∧ s.dec.size.toNat ≤ s.blockSize := by decide +kernel

theorem witness_BackReferenceRejectsInOrder :
    refLength .refExt4 = some 4 ∧
    (∀ q ∈ [(0, 30), (18, 30), (3, 30), (4, 20)], let s := refState q.1 q.2
      q.1 = (s.inAt s.dec.i.toNat).toNat + 256 * (s.inAt (s.dec.i.toNat + 1)).toNat ∧ s.dec.i.toNat + 2 ≤ s.inSize ∧
      s.inSize ≤ s.outputSize) ∧
    ((refState 4 30).writeReg .inSize 9).inSize < ((refState 4 30).writeReg .inSize 9).dec.i.toNat + 2 ∧
    (refState 18 30).dec.anchor.toNat < 18 ∧ (1 ≤ 3 ∧ 3 ≤ (refState 3 30).dec.anchor.toNat ∧ 3 < 4) ∧
    (4 ≤ (refState 4 20).dec.anchor.toNat ∧ (refState 4 20).dec.size.toNat < (refState 4 20).dec.j.toNat + 4) := by decide +kernel

/-- Program P3's listing, and the same with an offset beyond its anchor. -/
def listingP3 (off : Nat) : Listing :=
  ⟨26, false, [.lit (bytes (List.range' 0x41 16)), .lit (bytes [0x51, 0x52, 0x53, 0x54]), .lit (bytes [0x75, 0x76]),
    .ref off 4]⟩

theorem witness_DecodeOfAssembledListing :
    (∀ off ∈ [20, 21], let l := listingP3 off
      let s := unit (assemble l) 0 0 0 0
      l.wf s.build.geometry = true ∧ (assemble l).length ≤ s.outputSize ∧ s.inSize = (assemble l).length ∧
      s.inRun 0 (assemble l).length = assemble l ∧ decide (s.regs.ext = 1#1) = l.ext) ∧
    listingOutput (listingP3 20) =
      some (bytes (List.range' 0x41 20 ++ [0x75, 0x76, 0x41, 0x42, 0x43, 0x44])) ∧
    listingOutput (listingP3 21) = none := by decide +kernel

/-- A unit inside DECODE, with a used FastRef bucket, a MultiRef slot, and bytes in both memories. -/
def busyUnit : State :=
  let s := refState 4 30
  { s with ctx := ⟨[(0x1AAA7, ⟨1, #v[⟨0x64636261#32, 0⟩, ⟨0#32, 0⟩, ⟨0#32, 0⟩, ⟨0#32, 0⟩]⟩)],
                   [(0x2F3EC, ⟨1, #v[⟨0x64636261#32, 0, 2⟩, ⟨0#32, 0, 0⟩, ⟨0#32, 0, 0⟩, ⟨0#32, 0, 0⟩]⟩)],
                   [(1, 4)], 2, 1#4, true⟩ }

theorem witness_unitInv : unitInv busyUnit :=
  ⟨by decide +kernel, by decide +kernel, by decide +kernel, by decide +kernel,
    ⟨by decide +kernel, by decide +kernel, by decide +kernel, by decide +kernel⟩, by decide +kernel⟩

/-- With `witness_unitInv`: StepKeepsTheUnitInvariant and StepNeverStops. -/
theorem witness_StepKeepsTheUnitInvariant : ∃ t, step busyUnit = .next t := ⟨_, rfl⟩

theorem witness_HostStateIsNeverWritten : ∃ t, exec (.lit 1#4) (atSymbol (bytes [7, 8]) [] 5 0 0) = .next t := ⟨_, rfl⟩

theorem witness_OutIsWrittenOnlyByItsWriters :
    (∃ t, exec .rd16le (unit [] 327679 0 0 0) = .next t) ∧
    (∃ t, exec .copy16 (unit [] 0 0 2 0) = .next t ∧ t.regs.status ≠ 0#8) ∧
    (∃ t, exec .encode (State.reset.withCtx usedCtx) = .next t ∧ t.regs.status ≠ 0#8) ∧
    (∃ t, exec .decode (unit (bytes [0x01, 0x00, 0x04]) 0 0 0 0) = .next t ∧ t.regs.status = 2#8) ∧
    (∃ t, exec .decode State.reset = .next t ∧ t.regs.status = 3#8) ∧
    (∃ t, exec .decode (unit (bytes [1, 0, 0, 0xFF, 0, 0, 0]) 0 0 0 0) = .next t ∧ t.regs.status = 4#8) ∧
    (refLength .refExt4 ≠ none ∧ ∃ t, exec .refExt4 (refState 18 30) = .next t ∧ t.phase = .idle ∧ t.regs.status ≠ 0#8) :=
  ⟨⟨_, rfl⟩, ⟨_, rfl, by decide +kernel⟩, ⟨_, rfl, by decide +kernel⟩, ⟨_, rfl, by decide +kernel⟩,
    ⟨_, rfl, by decide +kernel⟩, ⟨_, rfl, by decide +kernel⟩, by decide, ⟨_, rfl, by decide +kernel, by decide +kernel⟩⟩

theorem witness_ContextIsWrittenOnlyByItsWriters :
    (∃ t, exec .nop (State.reset.withCtx usedCtx) = .next t) ∧ Instr.nop ≠ .ctxReset ∧ Instr.nop ≠ .encode ∧
    Instr.nop ≠ .probe ∧ (State.reset.withCtx usedCtx).ctx.dirty = true := ⟨⟨_, rfl⟩, by decide⟩

theorem witness_CommandsEndWithTheirStatus :
    decodeCmd 0x22#8 = .ok .probe ∧ (∃ t, exec .probe (unit [] 0 0 0 0) = .next t ∧ t.regs.status = 0#8) ∧
    (∃ t, exec .probe (unit [] 0 0 262145 0) = .next t ∧ t.regs.status ≠ 0#8) ∧
    Instr.probe ≠ .encode ∧ Instr.probe ≠ .decode :=
  ⟨by decide, ⟨_, rfl, by decide +kernel⟩, ⟨_, rfl, by decide +kernel⟩, by decide⟩

theorem witness_HostWritesAreTruncatedOrIgnored : HostReg.arg0 ≠ HostReg.arg1 ∧ HostReg.arg1 ≠ .cmd := by decide

theorem witness_ContainerPrefixSplits : 2 ^ 23 - 1 < 2 ^ 23 := by decide

end Sys2Proof.Tests
end

/-! SUPPORT. What HASH4 answers for each selector (R83), and that the answer is a bucket of the table asked for. -/

namespace Sys2Proof.Machine

/-! ### HASH4, per selector (R83) -/

/-- ARG1 = 0 selects HashF: RES0 and STATUS are written, and the command ends. -/
theorem exec_hash4_fast {s : State} (h : s.regs.arg1 = 0#32) :
    exec .hash4 s = .next { s with
      phase := .idle
      regs := { s.regs with res0 := BitVec.ofNat 32 (hashF s.build s.regs.arg0), status := 0#8 } } := by
  change execHash4 s = _
  simp [execHash4, h, State.complete, State.endWith, State.setRes0, statusByte]

/-- ARG1 = 1 selects HashM: RES0 and STATUS are written, and the command ends. -/
theorem exec_hash4_multi {s : State} (h : s.regs.arg1 = 1#32) :
    exec .hash4 s = .next { s with
      phase := .idle
      regs := { s.regs with res0 := BitVec.ofNat 32 (hashM s.build s.regs.arg0), status := 0#8 } } := by
  change execHash4 s = _
  simp [execHash4, h, State.complete, State.endWith, State.setRes0, statusByte]

/-- The selectors that HASH4 accepts. -/
theorem word_eq_zero_or_one_of_toNat_le_one {w : Word} (h : w.toNat ≤ 1) : w = 0#32 ∨ w = 1#32 := by
  bv_omega

/-! ### The word in RES0 names a bucket (R81, R82) -/

theorem toNat_ofNat_hashF_lt (b : Build) (v : Word) :
    (BitVec.ofNat 32 (hashF b v)).toNat < hashSz b.geometry := by
  rw [BitVec.toNat_ofNat]
  exact (Nat.mod_le _ _).trans_lt (hashF_lt b v)

theorem toNat_ofNat_hashM_lt (b : Build) (v : Word) :
    (BitVec.ofNat 32 (hashM b v)).toNat < hashPlusSz b.geometry := by
  rw [BitVec.toNat_ofNat]
  exact (Nat.mod_le _ _).trans_lt (hashM_lt b v)

/-- Settles O19, by the two selectors HASH4 accepts: each answers its own hash function, whose range is its table. -/
theorem hash4StaysInTheTable : Obligations.Hash4StaysInTheTable := by
  intro s hsel
  obtain hfast | hmulti := word_eq_zero_or_one_of_toNat_le_one hsel
  · refine ⟨_, exec_hash4_fast hfast, fun _ => toNat_ofNat_hashF_lt _ _, fun hmulti => ?_⟩
    exact absurd (hfast.symm.trans hmulti) (by decide)
  · refine ⟨_, exec_hash4_multi hmulti, fun hfast => ?_, fun _ => toNat_ofNat_hashM_lt _ _⟩
    exact absurd (hfast.symm.trans hmulti) (by decide)

end Sys2Proof.Machine

/-! SUPPORT. The state after power-on, the unit with nothing issued, and what a host write leaves to read. -/

namespace Sys2Proof.Machine

/-! ### Power-on and the host's side -/

/-- With no command issued a step holds the state (R145, R180). -/
theorem step_of_idle {s : State} (h : s.phase = .idle) : step s = .next s := by
  simp [step, fetch, noInstruction, h]

/-- Settles O9: with nothing issued nothing is fetched, and the step holds the state. -/
theorem nothingRunsUnissued : Obligations.NothingRunsUnissued := fun _ h => step_of_idle h

/-- Settles O51: the registers and the empty arrays are read off `State.reset`, which stands idle. -/
theorem powerOnState : Obligations.PowerOnState :=
  ⟨rfl, rfl, rfl, rfl, fun _ => rfl, fun _ => rfl, step_of_idle rfl⟩

/-- A write to one register leaves what the host reads from another; CMD has no value to read (R10; log 16). -/
theorem State.readReg_writeReg_other (s : State) (draw v : Nat) {r q : HostReg} (hrq : r ≠ q) (hq : q ≠ .cmd) :
    (s.writeReg r v).readReg draw q = s.readReg draw q := by
  cases q with
  | cmd => exact absurd rfl hq
  | status | outSize | res0 | res1 => cases r <;> rfl
  | ext | level | inSize | arg0 | arg1 | arg2 | arg3 => cases r <;> trivial

/-- The host reads back from a 32-bit register what it wrote, truncated (R10). -/
theorem State.readReg_writeReg_word (s : State) (draw v : Nat) {r : HostReg}
    (hr : r ∈ [HostReg.inSize, .arg0, .arg1, .arg2, .arg3]) : (s.writeReg r v).readReg draw r = v % 2 ^ 32 := by
  simp only [List.mem_cons, List.not_mem_nil, or_false] at hr
  obtain rfl | rfl | rfl | rfl | rfl := hr <;> exact BitVec.toNat_ofNat v 32

/-- The registers that only commands write ignore the host (R10, R151). -/
theorem State.writeReg_ignored (s : State) (v : Nat) {r : HostReg}
    (hr : r ∈ [HostReg.status, .outSize, .res0, .res1]) : s.writeReg r v = s := by
  simp only [List.mem_cons, List.not_mem_nil, or_false] at hr
  obtain rfl | rfl | rfl | rfl := hr <;> rfl

/-- Settles O59, register by register: a written field holds the number modulo its width, every other reads as before. -/
theorem hostWritesAreTruncatedOrIgnored : Obligations.HostWritesAreTruncatedOrIgnored := fun s draw v =>
  ⟨fun _ hr => s.readReg_writeReg_word draw v hr, BitVec.toNat_ofNat v 1, BitVec.toNat_ofNat v 4,
    fun _ hr => s.writeReg_ignored v hr, BitVec.toNat_ofNat v 8, rfl,
    fun _ _ hrq hq => s.readReg_writeReg_other draw v hrq hq⟩

end Sys2Proof.Machine

/-! SUPPORT. What an instruction can answer, and what it keeps: the host part of the state, and the context. -/

namespace Sys2Proof.Machine

/-! ### What a command leaves alone: the host's registers, IN, the build (R10, R21, R23) -/

/-- What no instruction writes: the host's registers, IN and the build (R10, R21, R23, R42). -/
def hostKept (s t : State) : Prop := hostRegsKept s t ∧ t.inMem = s.inMem ∧ t.build = s.build

theorem hostKept_of_regs_eq {s t : State} (hr : t.regs = s.regs) (hm : t.inMem = s.inMem) (hb : t.build = s.build) :
    hostKept s t := by
  simp [hostKept, hostRegsKept, hr, hm, hb]

theorem hostKept.trans {s t u : State} (h : hostKept s t) (h' : hostKept t u) : hostKept s u := by
  simp_all [hostKept, hostRegsKept]

/-- What every instruction but CTX_RESET, ENCODE and PROBE keeps: with the host's part, the context (R20, R22). -/
def contextKept (s t : State) : Prop := hostKept s t ∧ t.ctx = s.ctx

theorem contextKept_of_regs_eq {s t : State} (hr : t.regs = s.regs) (hm : t.inMem = s.inMem) (hb : t.build = s.build)
    (hc : t.ctx = s.ctx) : contextKept s t :=
  ⟨hostKept_of_regs_eq hr hm hb, hc⟩

theorem contextKept.refl (s : State) : contextKept s s := contextKept_of_regs_eq rfl rfl rfl rfl

theorem contextKept.trans {s t u : State} (h : contextKept s t) (h' : contextKept t u) : contextKept s u :=
  ⟨h.1.trans h'.1, h'.2.trans h.2⟩

theorem contextKept_reject (s : State) (c : StatusCode) : contextKept s (s.reject c) := by
  simp [contextKept, hostKept, hostRegsKept]

theorem contextKept_rejectStream (s : State) (c : StatusCode) : contextKept s (s.rejectStream c) := by
  simp [contextKept, hostKept, hostRegsKept]

/-- Ending with OK and an OUT_SIZE, as ENCODE and DECODE do (R115, R136). -/
theorem contextKept_finish (s : State) (n : Nat) : contextKept s ((s.loseOut n).setOutSize n).complete := by
  simp [contextKept, hostKept, hostRegsKept]

theorem contextKept_afterSymbol (s : State) : contextKept s (afterSymbol s) := by
  obtain ⟨-, h⟩ | ⟨-, -, h⟩ | ⟨-, -, h⟩ := afterSymbol_cases s <;> rw [h]
  · exact contextKept_finish s _
  · exact contextKept_of_regs_eq rfl rfl rfl rfl
  · exact contextKept_of_regs_eq rfl rfl rfl rfl

/-! ### What OUT keeps while it is written (R21, R30, R42) -/

/-- A later OUT: still in canonical form and below the bound, and every specified byte still specified. -/
def outExtends (bound : Nat) (m m' : Memory) : Prop :=
  (Memory.wf m → Memory.wf m') ∧ (Memory.below m bound → Memory.below m' bound) ∧
    ∀ a, (Memory.get? m a).isSome = true → (Memory.get? m' a).isSome = true

theorem outExtends.refl (bound : Nat) (m : Memory) : outExtends bound m m := ⟨id, id, fun _ => id⟩

theorem outExtends.trans {bound : Nat} {m m' m'' : Memory} (h : outExtends bound m m') (h' : outExtends bound m' m'') :
    outExtends bound m m'' :=
  ⟨h'.1 ∘ h.1, h'.2.1 ∘ h.2.1, fun a => h'.2.2 a ∘ h.2.2 a⟩

/-- After a stored run the bytes of the run and those specified before are specified. -/
theorem Memory.isSome_get?_putRun {m : Memory} {a x : Nat} {bs : List Byte}
    (h : (a ≤ x ∧ x < a + bs.length) ∨ (Memory.get? m x).isSome = true) :
    (Memory.get? (Memory.putRun m a bs) x).isSome = true := by
  rw [Memory.get?_putRun]
  by_cases hx : a ≤ x ∧ x < a + bs.length
  · have hlen : x - a < bs.length := by omega
    simp [hx, hlen]
  · rw [if_neg hx]
    exact h.resolve_left hx

theorem outExtends_putRun {bound a : Nat} (m : Memory) {bs : List Byte} (h : a + bs.length ≤ bound) :
    outExtends bound m (Memory.putRun m a bs) :=
  ⟨Memory.wf_putRun bs a, fun hb => Memory.below_putRun bs hb h, fun _ hx => Memory.isSome_get?_putRun (.inr hx)⟩

theorem outExtends_copyChunks (n : Nat) (s : State) (fromOut : Bool) {bound dst : Nat} (src : Nat)
    (hd : dst + 16 * n ≤ bound) : outExtends bound s.outMem (copyChunks n s fromOut dst src).outMem := by
  induction n generalizing s dst src with
  | zero => exact .refl _ _
  | succ n ih =>
    have hchunk : outExtends bound s.outMem (copyChunk s fromOut dst src).outMem :=
      outExtends_putRun _ (by cases fromOut <;> simp <;> omega)
    exact hchunk.trans (ih (copyChunk s fromOut dst src) (src + 16) (by omega))

/-! ### The leaf commands and NOP: what they can do (R65 to R70, R83, R86, R147) -/

/-- A leaf command or NOP is rejected with ERR_ARG, or ends OK with RES0 written, or ends OK with bytes stored to OUT. -/
def leafOutcome (s t : State) : Prop :=
  t = s.reject .errArg ∨ (∃ v, t = (s.setRes0 v).complete) ∨
    ∃ m, outExtends s.outputSize s.outMem m ∧ t = ({ s with outMem := m } : State).complete

theorem leafOutcome_copyBytes (n : Nat) (s : State) : leafOutcome s (copyBytes n s) := by
  obtain ⟨hok, h⟩ | ⟨-, h⟩ := copyBytes_cases n s <;> rw [h]
  · obtain ⟨-, hdst, -⟩ := (copyArgsOk_iff s _).1 hok
    refine .inr (.inr ⟨_, outExtends_copyChunks n s (decide (s.regs.arg2.toNat = 1)) s.regs.arg1.toNat hdst, ?_⟩)
    rw [← copyChunks_frame]
  · exact .inl rfl

theorem leafOutcome_rd16le {s t : State} (h : execRd16le s = .next t) : leafOutcome s t := by
  unfold execRd16le at h
  simp only at h
  split at h <;> obtain rfl := Host.Outcome.next.inj h
  · exact .inr (.inl ⟨_, rfl⟩)
  · exact .inl rfl

theorem leafOutcome_wr16le {s t : State} (h : execWr16le s = .next t) : leafOutcome s t := by
  unfold execWr16le at h
  simp only at h
  split at h <;> obtain rfl := Host.Outcome.next.inj h
  · rename_i hroom
    exact .inr (.inr ⟨_, outExtends_putRun s.outMem hroom.1, rfl⟩)
  · exact .inl rfl

theorem leafOutcome_hash4 {s t : State} (h : execHash4 s = .next t) : leafOutcome s t := by
  unfold execHash4 at h
  simp only at h
  split at h <;> obtain rfl := Host.Outcome.next.inj h
  · exact .inl rfl
  · exact .inr (.inl ⟨_, rfl⟩)

theorem leafOutcome_matchlen {s t : State} (h : execMatchlen s = .next t) : leafOutcome s t := by
  unfold execMatchlen at h
  simp only at h
  split at h <;> obtain rfl := Host.Outcome.next.inj h
  · exact .inl rfl
  · exact .inr (.inl ⟨_, rfl⟩)

/-- NOP and the leaf commands. -/
def leafCommands : List Instr := [.nop, .copy16, .copy32, .copy48, .copy64, .rd16le, .wr16le, .hash4, .matchlen]

theorem leafOutcome_exec {i : Instr} {s t : State} (hi : i ∈ leafCommands) (h : exec i s = .next t) :
    leafOutcome s t := by
  simp only [leafCommands, List.mem_cons, List.not_mem_nil, or_false] at hi
  obtain rfl | rfl | rfl | rfl | rfl | rfl | rfl | rfl | rfl := hi
  · exact .inr (.inr ⟨s.outMem, .refl _ _, (Host.Outcome.next.inj h).symm⟩)
  · exact Host.Outcome.next.inj h ▸ leafOutcome_copyBytes 1 s
  · exact Host.Outcome.next.inj h ▸ leafOutcome_copyBytes 2 s
  · exact Host.Outcome.next.inj h ▸ leafOutcome_copyBytes 3 s
  · exact Host.Outcome.next.inj h ▸ leafOutcome_copyBytes 4 s
  · exact leafOutcome_rd16le h
  · exact leafOutcome_wr16le h
  · exact leafOutcome_hash4 h
  · exact leafOutcome_matchlen h

theorem leafOutcome.contextKept {s t : State} (h : leafOutcome s t) : contextKept s t := by
  obtain rfl | ⟨v, rfl⟩ | ⟨m, -, rfl⟩ := h
  · exact contextKept_reject s _
  · simp [Machine.contextKept, hostKept, hostRegsKept]
  · simp [Machine.contextKept, hostKept, hostRegsKept]

/-! ### PROBE (R95) -/

/-- PROBE is rejected with ERR_ARG, or writes the context, RES0 and RES1 as its probe answers. -/
theorem execProbe_eq_next {s t : State} (h : execProbe s = .next t) :
    t = s.reject .errArg ∨ ∃ r, r = probeIndex s.build s.inMem s.ctx s.regs.arg0.toNat s.regs.arg1.toNat
      s.regs.arg2.toNat s.extOn ∧ t = ((s.withCtx r.2).setProbeResult r.1).complete := by
  unfold execProbe at h
  simp only at h
  split at h <;> obtain rfl := Host.Outcome.next.inj h
  · exact .inl rfl
  · exact .inr ⟨_, rfl, rfl⟩

/-- RES0 and RES1 are all that a probe's result writes. -/
theorem State.setProbeResult_frame (s : State) (r : ProbeResult) :
    s.setProbeResult r = { s with regs := { s.regs with
      res0 := (s.setProbeResult r).regs.res0, res1 := (s.setProbeResult r).regs.res1 } } := by
  cases r <;> rfl

theorem hostKept_execProbe {s t : State} (h : execProbe s = .next t) : hostKept s t := by
  obtain rfl | ⟨r, -, rfl⟩ := execProbe_eq_next h
  · exact (contextKept_reject s _).1
  · rw [State.setProbeResult_frame]
    simp [hostKept, hostRegsKept]

/-! ### The stream DECODE executes (R125 to R136) -/

/-- A symbol is rejected with the decoder registers written, or stores its bytes at `d_j` inside the block, the read
cursor staying inside the payload, and DECODE goes on (R130, R131, R137). -/
def symbolOutcome (s t : State) : Prop :=
  (∃ d c, t = (s.withDec d).rejectStream c) ∨
  ∃ (i : Nat) (bytes : List Byte), i ≤ s.inSize ∧ s.dec.j.toNat + bytes.length ≤ s.dec.size.toNat ∧
    s.dec.j.toNat + bytes.length ≤ s.outputSize ∧
    t = afterSymbol ((s.putOut s.dec.j.toNat bytes).withDec
      { s.dec with i := word i, j := word (s.dec.j.toNat + bytes.length) })

theorem symbolOutcome_literalRun {len : Nat} {s t : State} (h : literalRun len s = .next t) : symbolOutcome s t := by
  unfold literalRun at h
  split at h
  · exact .inl ⟨s.dec, _, (Host.Outcome.next.inj h).symm⟩
  split at h
  · exact .inl ⟨s.dec, _, (Host.Outcome.next.inj h).symm⟩
  rename_i hin hroom
  cases hread : s.readIn? s.dec.i.toNat len with
  | none => simp [hread] at h
  | some bytes =>
    obtain ⟨-, rfl⟩ := State.readIn?_eq_some hread
    cases hwrite : s.writeOut? s.dec.j.toNat (s.inRun s.dec.i.toNat len) with
    | none => simp [hread, hwrite] at h
    | some u =>
      obtain ⟨hout, rfl⟩ := State.writeOut?_eq_some hwrite
      simp only [hread, hwrite, Host.Outcome.next.injEq] at h
      refine .inr ⟨s.dec.i.toNat + len, _, by omega, ?_, hout, ?_⟩
      · rw [State.inRun_length]
        omega
      · rw [State.inRun_length, h]

theorem symbolOutcome_backReference {len : Nat} {s t : State} (h : backReference len s = .next t) :
    symbolOutcome s t := by
  unfold backReference at h
  simp only at h
  split at h
  · exact .inl ⟨s.dec, _, (Host.Outcome.next.inj h).symm⟩
  split at h
  · cases h
  split at h
  · exact .inl ⟨_, _, (Host.Outcome.next.inj h).symm⟩
  split at h
  · exact .inl ⟨_, _, (Host.Outcome.next.inj h).symm⟩
  split at h
  · exact .inl ⟨_, _, (Host.Outcome.next.inj h).symm⟩
  rename_i hin _ _ _ hroom
  split at h
  · cases h
  rename_i bytes hread
  obtain ⟨-, rfl⟩ := State.readOut?_eq_some hread
  split at h
  · cases h
  rename_i u hwrite
  obtain ⟨hout, rfl⟩ := State.writeOut?_eq_some hwrite
  refine .inr ⟨s.dec.i.toNat + 2, _, by omega, ?_, hout, ?_⟩
  · rw [State.outRun_length]
    omega
  · rw [State.outRun_length, ← Host.Outcome.next.inj h]
    rfl

theorem symbolOutcome_exec {i : Instr} {s t : State} (hi : (symSel i).isSome = true) (h : exec i s = .next t) :
    symbolOutcome s t := by
  cases i with
  | lit nib => exact symbolOutcome_literalRun h
  | ref | refx32 | refx48 | refx64 | refExt4 | refExt5to8 | refExt9to16 => exact symbolOutcome_backReference h
  | _ => exact absurd hi (by simp [symSel])

theorem symbolOutcome.contextKept {s t : State} (h : symbolOutcome s t) : contextKept s t := by
  obtain ⟨d, c, rfl⟩ | ⟨i, bytes, -, -, -, rfl⟩ := h
  · exact (contextKept_of_regs_eq rfl rfl rfl rfl).trans (contextKept_rejectStream (s.withDec d) c)
  · exact .trans (contextKept_of_regs_eq rfl rfl rfl rfl) (contextKept_afterSymbol _)

/-- A block header is rejected, or its block is empty and DECODE ends, or the first group is due (R126, R135). -/
theorem execBlkhdr_eq_next {size : BitVec 24} {s t : State} (h : execBlkhdr size s = .next t) :
    (∃ d, t = (s.withDec d).reject .errSize) ∨
    ∃ d : DecRegs, size.toNat ≤ s.blockSize ∧ d.size = size ∧ d.i = 3#32 ∧ d.j = 0#32 ∧
      ((size = 0#24 ∧ t = decodeFinish (s.withDec d)) ∨ (0 < size.toNat ∧ t = (s.withDec d).withPhase .group)) := by
  unfold execBlkhdr at h
  split at h
  · exact .inl ⟨_, (Host.Outcome.next.inj h).symm⟩
  · rename_i hsize
    refine .inr ⟨{ s.dec with size := size, i := 3#32, j := 0#32, fastEnd := word (fastEndOf size.toNat) },
      by omega, rfl, rfl, rfl, ?_⟩
    obtain rfl := Host.Outcome.next.inj h
    by_cases hz : size = 0#24
    · exact .inl ⟨hz, by subst hz; rfl⟩
    · have hpos : 0 < size.toNat := Nat.pos_of_ne_zero fun h0 => hz (BitVec.eq_of_toNat_eq h0)
      exact .inr ⟨hpos, if_neg (by simp [decodedAll]; omega)⟩

/-- A group header is an underrun, or DECODE stands before the group's first symbol (R127, R128). -/
theorem execGroup_eq_next {c b0 b1 b2 b3 : Byte} {s t : State} (h : execGroup c b0 b1 b2 b3 s = .next t) :
    t = s.rejectStream .errUnderrun ∨
    ∃ d : DecRegs, t = (s.withDec d).withPhase .symbol ∧ s.dec.i.toNat + 5 ≤ s.inSize ∧
      d.i = word (s.dec.i.toNat + 5) ∧ d.j = s.dec.j ∧ d.size = s.dec.size ∧ d.anchor = s.dec.j := by
  unfold execGroup at h
  split at h
  · exact .inl (Host.Outcome.next.inj h).symm
  · rename_i hpresent
    split at h
    · cases h
    · exact .inr ⟨_, (Host.Outcome.next.inj h).symm, by simpa [groupPresent] using hpresent, rfl, rfl, rfl, rfl⟩

theorem contextKept_execBlkhdr {size : BitVec 24} {s t : State} (h : execBlkhdr size s = .next t) :
    contextKept s t := by
  obtain ⟨d, rfl⟩ | ⟨d, -, -, -, -, ⟨-, rfl⟩ | ⟨-, rfl⟩⟩ := execBlkhdr_eq_next h
  · exact .trans (contextKept_of_regs_eq rfl rfl rfl rfl) (contextKept_reject (s.withDec d) _)
  · exact .trans (contextKept_of_regs_eq rfl rfl rfl rfl) (contextKept_finish (s.withDec d) _)
  · exact contextKept_of_regs_eq rfl rfl rfl rfl

theorem contextKept_execGroup {c b0 b1 b2 b3 : Byte} {s t : State} (h : execGroup c b0 b1 b2 b3 s = .next t) :
    contextKept s t := by
  obtain rfl | ⟨d, rfl, -⟩ := execGroup_eq_next h
  · exact contextKept_rejectStream s _
  · exact contextKept_of_regs_eq rfl rfl rfl rfl

/-- Every selector decodes to a symbol (R50). -/
theorem symSel_decodeSym_isSome (sel : Sel) : (symSel (decodeSym sel)).isSome = true := by
  revert sel; decide

theorem symbolOutcome_execSymbol {s t : State} (h : execSymbol s = .next t) : symbolOutcome s t := by
  rw [execSymbol_eq_exec] at h
  exact symbolOutcome_exec (symSel_decodeSym_isSome _) h

theorem contextKept_streamStep {s t : State} (h : streamStep s = .next t) : contextKept s t := by
  unfold streamStep at h
  split at h
  · exact contextKept_execBlkhdr h
  · exact contextKept_execGroup h
  · exact (symbolOutcome_execSymbol h).contextKept
  · obtain rfl := Host.Outcome.next.inj h
    exact .refl _
  · obtain rfl := Host.Outcome.next.inj h
    exact .refl _

/-- What every step inside DECODE keeps, the whole loop keeps (R125). -/
theorem runStream_induction {P : State → Prop} {n : Nat} {s t : State}
    (hstep : ∀ u v, P u → inDecode u.phase = true → streamStep u = .next v → P v) (hs : P s)
    (h : runStream n s = .next t) : P t := by
  induction n generalizing s with
  | zero => exact Host.Outcome.next.inj h ▸ hs
  | succ n ih =>
    unfold runStream at h
    split at h
    · rename_i hp
      obtain ⟨u, hu, ht⟩ := andThen_eq_next.1 h
      exact ih (hstep s u hs hp hu) ht
    · exact Host.Outcome.next.inj h ▸ hs

theorem contextKept_runStream {n : Nat} {s t : State} (h : runStream n s = .next t) : contextKept s t :=
  runStream_induction (P := contextKept s) (fun _ _ hu _ hv => hu.trans (contextKept_streamStep hv)) (.refl s) h

/-- DECODE refuses IN_SIZE, or runs its stream from the block header on (R125). -/
theorem execDecode_eq_next {s t : State} (h : execDecode s = .next t) :
    t = s.reject .errInsize ∨
    (3 ≤ s.inSize ∧ s.inSize ≤ s.outputSize ∧ runStream (s.inSize + 1) (decodeStart s) = .next t) := by
  unfold execDecode at h
  split at h
  · exact .inl (Host.Outcome.next.inj h).symm
  split at h
  · exact .inl (Host.Outcome.next.inj h).symm
  · exact .inr ⟨by omega, by omega, h⟩

theorem contextKept_execDecode {s t : State} (h : execDecode s = .next t) : contextKept s t := by
  obtain rfl | ⟨-, -, hrun⟩ := execDecode_eq_next h
  · exact contextKept_reject s _
  · exact .trans (t := decodeStart s) (contextKept_of_regs_eq rfl rfl rfl rfl) (contextKept_runStream hrun)

/-- Every instruction but CTX_RESET, ENCODE and PROBE leaves the context with the host's part. -/
theorem contextKept_exec {i : Instr} {s t : State} (h : exec i s = .next t) (hreset : i ≠ .ctxReset)
    (hencode : i ≠ .encode) (hprobe : i ≠ .probe) : contextKept s t := by
  by_cases hsym : (symSel i).isSome = true
  · exact (symbolOutcome_exec hsym h).contextKept
  by_cases hleaf : i ∈ leafCommands
  · exact (leafOutcome_exec hleaf h).contextKept
  cases i with
  | blkhdr => exact contextKept_execBlkhdr h
  | group => exact contextKept_execGroup h
  | decode => exact contextKept_execDecode h
  | ctxReset => exact absurd rfl hreset
  | encode => exact absurd rfl hencode
  | probe => exact absurd rfl hprobe
  | lit | ref | refx32 | refx48 | refx64 | refExt4 | refExt5to8 | refExt9to16 => exact absurd rfl hsym
  | nop | copy16 | copy32 | copy48 | copy64 | rd16le | wr16le | hash4 | matchlen =>
    exact absurd hleaf (by simp [leafCommands])

end Sys2Proof.Machine

/-! SUPPORT. ENCODE and PROBE keep CTX_LEVEL and set DIRTY; the writers of the context. -/

namespace Sys2Proof.Machine

/-! ### ENCODE: the build, the host's part and CTX_LEVEL stay, DIRTY is set (R105, R107, R114) -/

/-- What ENCODE and PROBE keep once they are under way: the host's part and CTX_LEVEL; DIRTY is set (R87, R105). -/
def dirtied (s t : State) : Prop := hostKept s t ∧ t.ctx.level = s.ctx.level ∧ t.ctx.dirty = true

theorem dirtied.then_contextKept {s t u : State} (h : dirtied s t) (h' : contextKept t u) : dirtied s u := by
  obtain ⟨hhost, hlevel, hdirty⟩ := h
  obtain ⟨hhost', hctx⟩ := h'
  exact ⟨hhost.trans hhost', hctx ▸ hlevel, hctx ▸ hdirty⟩

theorem dirtied_scanStep {size : Nat} {s u t : State} (h : dirtied s u) (hstep : scanStep size u = .next t) :
    dirtied s t := by
  obtain ⟨hb, -, hr, -, hm, -, hdirty, hlevel⟩ := scanStep_frame hstep
  exact ⟨h.1.trans (hostKept_of_regs_eq hr hm hb), hlevel.trans h.2.1, hdirty⟩

/-- What every iteration of the scan keeps, the whole loop keeps (R107). -/
theorem scanLoop_induction {P : State → Prop} {n size : Nat} {s t : State}
    (hstep : ∀ u v, P u → scanStep size u = .next v → P v) (hs : P s) (h : scanLoop n size s = .next t) : P t := by
  induction n generalizing s with
  | zero => exact Host.Outcome.next.inj h ▸ hs
  | succ n ih =>
    unfold scanLoop at h
    split at h
    · obtain ⟨u, hu, ht⟩ := andThen_eq_next.1 h
      exact ih (hstep s u hs hu) ht
    · exact Host.Outcome.next.inj h ▸ hs

/-- What the flush of the partial final group can do (R114). -/
theorem flushRest_cases {s t : State} (h : flushRest s = .next t) :
    t = s ∨ ∃ u, flushGroup s s.enc.held = .next u ∧ t = u.withEnc { u.enc with gn := 0 } := by
  unfold flushRest at h
  split at h
  · exact .inl (Host.Outcome.next.inj h).symm
  · obtain ⟨u, hu, ht⟩ := andThen_eq_next.1 h
    exact .inr ⟨u, hu, (Host.Outcome.next.inj ht).symm⟩

/-- The trailing literals go to the group buffer, and nothing else changes (R114). -/
theorem emitTrailing_frame (s : State) : emitTrailing s = s.withEnc (emitTrailing s).enc := by
  unfold emitTrailing
  split <;> rfl

@[simp] theorem emitTrailing_o (s : State) : (emitTrailing s).enc.o = s.enc.o := by
  unfold emitTrailing
  split <;> rfl

theorem contextKept_flushGroup {s t : State} {ds : List Desc} (h : flushGroup s ds = .next t) : contextKept s t := by
  rw [flushGroup_frame h]
  exact contextKept_of_regs_eq rfl rfl rfl rfl

theorem contextKept_flushFull {s t : State} (h : flushFull s = .next t) : contextKept s t := by
  rw [flushFull_frame h]
  exact contextKept_of_regs_eq rfl rfl rfl rfl

theorem contextKept_flushRest {s t : State} (h : flushRest s = .next t) : contextKept s t := by
  obtain rfl | ⟨u, hu, rfl⟩ := flushRest_cases h
  · exact .refl _
  · exact (contextKept_flushGroup hu).trans (contextKept_of_regs_eq rfl rfl rfl rfl)

theorem contextKept_encodeTail {s t : State} (h : encodeTail s = .next t) : contextKept s t := by
  obtain ⟨u, hu, ht⟩ := andThen_eq_next.1 h
  rw [emitTrailing_frame] at hu
  exact .trans (contextKept_of_regs_eq rfl rfl rfl rfl) ((contextKept_flushFull hu).trans (contextKept_flushRest ht))

/-- ENCODE is refused before any effect, or runs its scan, its tail and its completion (R105). -/
theorem execEncode_eq_next {s t : State} (h : execEncode s = .next t) :
    (∃ c, t = s.reject c) ∨
    ∃ u v, scanLoop s.inSize s.inSize (encodeStart s) = .next u ∧ encodeTail u = .next v ∧ t = encodeFinish v := by
  unfold execEncode at h
  split at h
  · exact .inl ⟨_, (Host.Outcome.next.inj h).symm⟩
  split at h
  · exact .inl ⟨_, (Host.Outcome.next.inj h).symm⟩
  · obtain ⟨u, hu, h⟩ := andThen_eq_next.1 h
    obtain ⟨v, hv, h⟩ := andThen_eq_next.1 h
    exact .inr ⟨u, v, hu, hv, (Host.Outcome.next.inj h).symm⟩

theorem dirtied_encodeStart (s : State) : dirtied s (encodeStart s) :=
  ⟨hostKept_of_regs_eq rfl rfl rfl, rfl, rfl⟩

/-- ENCODE is refused and keeps the context, or runs and keeps CTX_LEVEL and sets DIRTY. -/
theorem contextKept_or_dirtied_execEncode {s t : State} (h : execEncode s = .next t) :
    contextKept s t ∨ dirtied s t := by
  obtain ⟨c, rfl⟩ | ⟨u, v, hu, hv, rfl⟩ := execEncode_eq_next h
  · exact .inl (contextKept_reject s c)
  · have hscan : dirtied s u := scanLoop_induction (P := dirtied s) (fun _ _ => dirtied_scanStep)
      (dirtied_encodeStart s) hu
    exact .inr ((hscan.then_contextKept (contextKept_encodeTail hv)).then_contextKept (contextKept_finish v _))

/-- PROBE is rejected and keeps the context, or probes and keeps CTX_LEVEL and sets DIRTY. -/
theorem contextKept_or_dirtied_execProbe {s t : State} (h : execProbe s = .next t) :
    contextKept s t ∨ dirtied s t := by
  have hhost := hostKept_execProbe h
  obtain rfl | ⟨r, hr, rfl⟩ := execProbe_eq_next h
  · exact .inl (contextKept_reject s _)
  · refine .inr ⟨hhost, ?_⟩
    obtain ⟨hdirty, hlevel, -⟩ := probeIndex_frame s.build s.inMem s.ctx s.regs.arg0.toNat s.regs.arg1.toNat
      s.regs.arg2.toNat s.extOn
    rw [← hr] at hdirty hlevel
    rw [State.setProbeResult_frame]
    exact ⟨hlevel, hdirty⟩

theorem hostKept_execCtxReset {s t : State} (h : execCtxReset s = .next t) : hostKept s t := by
  obtain rfl := Host.Outcome.next.inj h
  simp [hostKept, hostRegsKept]

/-- Every instruction but CTX_RESET keeps the whole context, or is ENCODE or PROBE under way. -/
theorem contextKept_or_dirtied_exec {i : Instr} {s t : State} (h : exec i s = .next t) (hreset : i ≠ .ctxReset) :
    contextKept s t ∨ dirtied s t := by
  by_cases hencode : i = .encode
  · subst hencode
    exact contextKept_or_dirtied_execEncode h
  by_cases hprobe : i = .probe
  · subst hprobe
    exact contextKept_or_dirtied_execProbe h
  · exact .inl (contextKept_exec h hreset hencode hprobe)

/-- Settles O55: CTX_RESET writes the context and STATUS; every other instruction keeps the host's part with the context
or, as ENCODE or PROBE, with its level. -/
theorem hostStateIsNeverWritten : Obligations.HostStateIsNeverWritten := by
  intro i s t h
  by_cases hreset : i = .ctxReset
  · subst hreset
    exact hostKept_execCtxReset h
  · obtain hkept | hdirtied := contextKept_or_dirtied_exec h hreset
    · exact hkept.1
    · exact hdirtied.1

/-- Settles O57: the instructions that are no writer keep the context whole; ENCODE and PROBE keep its level and set
DIRTY. -/
theorem contextIsWrittenOnlyByItsWriters : Obligations.ContextIsWrittenOnlyByItsWriters := by
  intro i s t h hreset
  have hwhole : i ≠ .encode → i ≠ .probe → t.ctx = s.ctx := fun hencode hprobe =>
    (contextKept_exec h hreset hencode hprobe).2
  obtain ⟨-, hctx⟩ | ⟨-, hlevel, hdirty⟩ := contextKept_or_dirtied_exec h hreset
  · exact ⟨congrArg Ctx.level hctx, fun hs => hctx ▸ hs, hwhole⟩
  · exact ⟨hlevel, fun _ => hdirty, hwhole⟩

end Sys2Proof.Machine


/-! SUPPORT. Every probe and the index reset keep the match index's invariants (R97). -/

namespace Sys2Proof.Machine

/-! ### The live symbols of a bucket, for either table (R17, R18, R97 (a), (c)) -/

/-- At most four live entries, of pairwise different symbols, each in the bucket `k` its hash names. -/
def liveSymbols (hash : Word → Nat) (k n : Nat) (sym : Fin 4 → Word) : Prop :=
  n ≤ 4 ∧ (∀ e : Fin 4, e.val < n → hash (sym e) = k) ∧
    ∀ e f : Fin 4, e.val < f.val → f.val < n → sym e ≠ sym f

theorem liveSymbols_zero (hash : Word → Nat) (k : Nat) (sym : Fin 4 → Word) : liveSymbols hash k 0 sym :=
  ⟨Nat.zero_le 4, fun _ he => absurd he (Nat.not_lt_zero _), fun _ _ _ hf => absurd hf (Nat.not_lt_zero _)⟩

/-- A symbol that no live entry holds joins them, in the bucket of its hash (R90, R94). -/
theorem liveSymbols_append {hash : Word → Nat} {k n : Nat} {sym sym' : Fin 4 → Word} {v : Word}
    (h : liveSymbols hash k n sym) (hn : n < 4) (hhash : hash v = k) (hnew : ∀ f : Fin 4, f.val < n → sym f ≠ v)
    (hsym : ∀ f : Fin 4, sym' f = if f.val = n then v else sym f) : liveSymbols hash k (n + 1) sym' := by
  obtain ⟨-, hk, hdiff⟩ := h
  refine ⟨hn, fun e he => ?_, fun e f hef hf => ?_⟩
  · rw [hsym]
    split
    · exact hhash
    · exact hk e (by omega)
  · have he : e.val ≠ n := by omega
    rw [hsym, hsym, if_neg he]
    split
    · exact hnew e (by omega)
    · exact hdiff e f hef (by omega)

/-! ### FastRef (R88 to R90) -/

/-- The symbols in a FastRef bucket's places. -/
def FastBucket.syms (x : FastBucket) (e : Fin 4) : Word := (x.entry[e]).sym

theorem fastInv_iff {b : Build} {c : Ctx} :
    fastInv b c ↔ keysRising c.fast ∧ ∀ p ∈ c.fast, p.1 < hashSz b.geometry ∧ p.2 ≠ FastBucket.fresh ∧
      liveSymbols (hashF b) p.1 p.2.count.toNat p.2.syms := Iff.rfl

theorem liveSymbols_fastAt {b : Build} {c : Ctx} (h : fastInv b c) (k : Nat) :
    liveSymbols (hashF b) k (fastAt c k).count.toNat (fastAt c k).syms := by
  obtain hfresh | hmem := getKey_eq_or_mem FastBucket.fresh c.fast k
  · rw [fastAt, hfresh]
    exact liveSymbols_zero _ _ _
  · exact ((fastInv_iff.1 h).2 _ hmem).2.2

theorem fastInv_setFast {b : Build} {c : Ctx} {k : Nat} {x : FastBucket} (h : fastInv b c)
    (hk : k < hashSz b.geometry) (hx : liveSymbols (hashF b) k x.count.toNat x.syms) : fastInv b (setFast c k x) := by
  obtain ⟨hrising, hall⟩ := fastInv_iff.1 h
  refine fastInv_iff.2 ⟨keysRising_setKey k x hrising, fun p hp => ?_⟩
  have hfresh := setKey_no_default k x (fun q hq => (hall q hq).2.1) p hp
  obtain rfl | hold := mem_setKey hp
  · exact ⟨hk, hfresh, hx⟩
  · exact ⟨(hall p hold).1, hfresh, (hall p hold).2.2⟩

/-- A refreshed entry keeps its symbol (R89). -/
theorem FastBucket.syms_refresh (x : FastBucket) (e : Fin 4) (pos : Word) :
    FastBucket.syms { x with entry := x.entry.set e.val ⟨(x.entry[e]).sym, pos⟩ } = x.syms := by
  funext f
  by_cases hf : e.val = f.val
  · obtain rfl := Fin.ext hf
    simp [FastBucket.syms]
  · simp [FastBucket.syms, hf]

/-- ProbeFast keeps FastRef's invariant (R88 to R90). -/
theorem fastInv_probeFast {bld : Build} {m : Memory} {c : Ctx} {sym : Word} {i anchor size : Nat} {ext : Bool}
    (h : fastInv bld c) : fastInv bld (probeFast bld m c sym i anchor size ext).2 := by
  have hlive := liveSymbols_fastAt h (hashF bld sym)
  obtain ⟨e, -, -, hr⟩ | ⟨hroom, hnone, hr⟩ | hr := probeFast_cases bld m c sym i anchor size ext _ _ rfl rfl <;> rw [hr]
  · refine fastInv_setFast h (hashF_lt bld sym) ?_
    rw [FastBucket.syms_refresh]
    exact hlive
  · refine fastInv_setFast h (hashF_lt bld sym) ?_
    have hcount : ((fastAt c (hashF bld sym)).count + 1#8).toNat = (fastAt c (hashF bld sym)).count.toNat + 1 := by
      bv_omega
    rw [hcount]
    refine liveSymbols_append hlive hroom rfl (findFast_eq_none.1 hnone) fun f => ?_
    simp only [FastBucket.syms, Fin.getElem_fin, Vector.getElem_set, eq_comm (a := f.val)]
    split <;> rfl
  · exact h

/-! ### MultiRef: buckets and slots (R18, R91 to R94, R97 (d)) -/

/-- The symbols in a MultiRef bucket's places. -/
def MultiBucket.syms (x : MultiBucket) (e : Fin 4) : Word := (x.entry[e]).sym

/-- The live entry `e` owns a slot of the pool: its M_OCC is not 1 (R18, R92). -/
def MultiBucket.ownsSlot (x : MultiBucket) (e : Fin 4) : Prop := e.val < x.count.toNat ∧ (x.entry[e]).occ ≠ 1#32

/-- A slot of `L` words at a multiple of `L`, below the pool cursor (R92, R97 (d)). -/
def slotFits (L : Nat) (cur pos : Word) : Prop := pos.toNat + L ≤ cur.toNat ∧ pos.toNat % L = 0

/-- The slots of a bucket's owning entries lie below the pool cursor. -/
def MultiBucket.slotsFit (L : Nat) (cur : Word) (x : MultiBucket) : Prop :=
  ∀ e, x.ownsSlot e → slotFits L cur (x.entry[e]).pos

theorem slotWidth_pos (level : BitVec 4) : 0 < slotWidth level :=
  Nat.lt_min.2 ⟨Nat.two_pow_pos _, by decide⟩

theorem multiInv_iff {b : Build} {c : Ctx} :
    multiInv b c ↔ keysRising c.multi ∧ ∀ p ∈ c.multi, p.1 < hashPlusSz b.geometry ∧ p.2 ≠ MultiBucket.fresh ∧
      liveSymbols (hashM b) p.1 p.2.count.toNat p.2.syms ∧ p.2.slotsFit (slotWidth c.level) c.poolCur := by
  refine and_congr_right fun _ => forall₂_congr fun p _ => and_congr_right fun _ => and_congr_right fun _ => ?_
  constructor
  · rintro ⟨hcount, hentry, hdiff⟩
    exact ⟨⟨hcount, fun e he => (hentry e he).1, hdiff⟩, fun e he => (hentry e he.1).2 he.2⟩
  · rintro ⟨⟨hcount, hhash, hdiff⟩, hfit⟩
    exact ⟨hcount, fun e he => ⟨hhash e he, fun hocc => hfit e ⟨he, hocc⟩⟩, hdiff⟩

/-- A bucket in its power-on form owns no slot. -/
theorem MultiBucket.not_ownsSlot_of_count_zero {x : MultiBucket} (h : x.count = 0#8) (e : Fin 4) : ¬ x.ownsSlot e := by
  simp [MultiBucket.ownsSlot, h]

theorem multiAt_live {b : Build} {c : Ctx} (h : multiInv b c) (k : Nat) :
    liveSymbols (hashM b) k (multiAt c k).count.toNat (multiAt c k).syms ∧
      (multiAt c k).slotsFit (slotWidth c.level) c.poolCur := by
  obtain hfresh | hmem := getKey_eq_or_mem MultiBucket.fresh c.multi k
  · rw [multiAt, hfresh]
    exact ⟨liveSymbols_zero _ _ _, fun e he => absurd he (MultiBucket.not_ownsSlot_of_count_zero rfl e)⟩
  · exact ((multiInv_iff.1 h).2 _ hmem).2.2

/-- A bucket that owns a slot is listed. -/
theorem mem_multi_of_ownsSlot {c : Ctx} {k : Nat} {e : Fin 4} (h : (multiAt c k).ownsSlot e) :
    (k, multiAt c k) ∈ c.multi := by
  obtain hfresh | hmem := getKey_eq_or_mem MultiBucket.fresh c.multi k
  · rw [multiAt, hfresh] at h
    exact absurd h (MultiBucket.not_ownsSlot_of_count_zero rfl e)
  · exact hmem

/-- Slots that owning entries of two places own are different, read through the bucket index (R97 (d)). -/
theorem slotInv_iff {c : Ctx} (hr : keysRising c.multi) :
    slotInv c ↔ ∀ (k l : Nat) (e f : Fin 4), (k ≠ l ∨ e ≠ f) → (multiAt c k).ownsSlot e → (multiAt c l).ownsSlot f →
      ((multiAt c k).entry[e]).pos ≠ ((multiAt c l).entry[f]).pos := by
  constructor
  · intro h k l e f hne he hf
    exact h _ (mem_multi_of_ownsSlot he) _ (mem_multi_of_ownsSlot hf) e f hne he.1 hf.1 he.2 hf.2
  · rintro h ⟨k, x⟩ hx ⟨l, y⟩ hy e f hne he hf hocce hoccf
    obtain rfl : multiAt c k = x := getKey_of_mem hr hx
    obtain rfl : multiAt c l = y := getKey_of_mem hr hy
    exact h k l e f hne ⟨he, hocce⟩ ⟨hf, hoccf⟩

/-- MultiRef after a bucket was written: the cursor may have moved on, and the new bucket is as the invariant asks. -/
theorem multiInv_setMulti {b : Build} {c c' : Ctx} {k : Nat} {x : MultiBucket} (h : multiInv b c)
    (hmulti : c'.multi = c.multi) (hlevel : c'.level = c.level) (hcur : c.poolCur.toNat ≤ c'.poolCur.toNat)
    (hk : k < hashPlusSz b.geometry) (hx : liveSymbols (hashM b) k x.count.toNat x.syms)
    (hfit : x.slotsFit (slotWidth c'.level) c'.poolCur) : multiInv b (setMulti c' k x) := by
  obtain ⟨hrising, hall⟩ := multiInv_iff.1 h
  rw [← hmulti] at hrising hall
  refine multiInv_iff.2 ⟨keysRising_setKey k x hrising, fun p hp => ?_⟩
  have hfresh := setKey_no_default k x (fun q hq => (hall q hq).2.1) p hp
  obtain rfl | hold := mem_setKey hp
  · exact ⟨hk, hfresh, hx, hfit⟩
  · obtain ⟨hkey, -, hlive, hslots⟩ := hall p hold
    refine ⟨hkey, hfresh, hlive, fun e he => ?_⟩
    obtain ⟨hbelow, hmultiple⟩ := hslots e he
    exact ⟨(hlevel ▸ hbelow).trans hcur, hlevel ▸ hmultiple⟩

/-- Slots stay apart when a bucket is written whose owning entries keep the slots they had, but for one entry that may
take the slot `cur`, which lies after all the others. -/
theorem slotInv_setMulti {c c' : Ctx} {k : Nat} {x : MultiBucket} {e : Fin 4} {cur : Word} (hr : keysRising c.multi)
    (h : slotInv c) (hmulti : c'.multi = c.multi)
    (hcur : ∀ (l : Nat) (f : Fin 4), (multiAt c l).ownsSlot f → ((multiAt c l).entry[f]).pos ≠ cur)
    (hx : ∀ f, x.ownsSlot f → ((multiAt c k).ownsSlot f ∧ (x.entry[f]).pos = ((multiAt c k).entry[f]).pos) ∨
      (f = e ∧ (x.entry[f]).pos = cur)) : slotInv (setMulti c' k x) := by
  have hr' : keysRising (setMulti c' k x).multi := keysRising_setKey k x (hmulti ▸ hr)
  have hat : ∀ l, multiAt c' l = multiAt c l := fun l => by rw [multiAt, hmulti]; rfl
  have hold := (slotInv_iff hr).1 h
  -- every slot is an old one of its place, or `cur`, owned at the place `(k, e)` alone
  have hplace : ∀ l f, (multiAt (setMulti c' k x) l).ownsSlot f →
      ((multiAt c l).ownsSlot f ∧
        ((multiAt (setMulti c' k x) l).entry[f]).pos = ((multiAt c l).entry[f]).pos) ∨
      ((l = k ∧ f = e) ∧ ((multiAt (setMulti c' k x) l).entry[f]).pos = cur) := by
    intro l f
    rw [multiAt_setMulti, hat]
    split
    · rename_i hl
      subst hl
      exact fun hf => (hx f hf).imp_right fun ⟨hfe, hpos⟩ => ⟨⟨rfl, hfe⟩, hpos⟩
    · exact fun hf => .inl ⟨hf, rfl⟩
  refine (slotInv_iff hr').2 fun l l' f f' hne hf hf' => ?_
  obtain ⟨hown, hpos⟩ | ⟨⟨hl, hfe⟩, hpos⟩ := hplace l f hf <;>
    obtain ⟨hown', hpos'⟩ | ⟨⟨hl', hfe'⟩, hpos'⟩ := hplace l' f' hf' <;> rw [hpos, hpos']
  · exact hold l l' f f' hne hown hown'
  · exact hcur l f hown
  · exact (hcur l' f' hown').symm
  · exact absurd (hl.trans hl'.symm) (hne.resolve_right (not_not_intro (hfe.trans hfe'.symm)))

/-- An entry's new position and M_OCC leave the symbols (R92, R93). -/
theorem MultiBucket.syms_retag (x : MultiBucket) (e : Fin 4) (pos occ : Word) :
    MultiBucket.syms { x with entry := x.entry.set e.val ⟨(x.entry[e]).sym, pos, occ⟩ } = x.syms := by
  funext f
  by_cases hf : e.val = f.val
  · obtain rfl := Fin.ext hf
    simp [MultiBucket.syms]
  · simp [MultiBucket.syms, hf]

/-- The slots of a bucket with one entry written: those of the other entries, and that entry's own. -/
theorem MultiBucket.ownsSlot_retag {x : MultiBucket} {e f : Fin 4} {v : MultiEntry}
    (h : MultiBucket.ownsSlot { x with entry := x.entry.set e.val v } f) :
    (f = e ∧ ((x.entry.set e.val v)[f]).pos = v.pos) ∨
      (x.ownsSlot f ∧ ((x.entry.set e.val v)[f]).pos = (x.entry[f]).pos) := by
  by_cases hf : e.val = f.val
  · obtain rfl := Fin.ext hf
    exact .inl ⟨rfl, by simp⟩
  · simp only [MultiBucket.ownsSlot, Fin.getElem_fin, Vector.getElem_set, hf, if_false] at h ⊢
    exact .inr ⟨h, trivial⟩

/-- An appended entry of M_OCC 1 owns no slot (R94). -/
theorem MultiBucket.ownsSlot_append {x : MultiBucket} {f : Fin 4} {sym pos : Word} (hroom : x.count.toNat < 4)
    (h : MultiBucket.ownsSlot { count := x.count + 1#8, entry := x.entry.set x.count.toNat ⟨sym, pos, 1#32⟩ } f) :
    x.ownsSlot f ∧ ((x.entry.set x.count.toNat ⟨sym, pos, 1#32⟩)[f]).pos = (x.entry[f]).pos := by
  obtain ⟨hf, hocc⟩ := h
  simp only [Fin.getElem_fin, Vector.getElem_set] at hocc hf ⊢
  split at hocc
  · exact absurd rfl hocc
  · rename_i hne
    exact ⟨⟨by bv_omega, hocc⟩, by rw [if_neg hne]⟩

/-! ### The whole index (R97) -/

/-- A pool write keeps the pool's invariant (R19). -/
theorem poolInv_setPool {b : Build} {c : Ctx} (k : Nat) (v : Word) (h : poolInv b c) : poolInv b (setPool b c k v) := by
  obtain ⟨hrising, hwords, hcur⟩ := h
  obtain ⟨hrising', hwords'⟩ := pool_setPool b c k v hrising hwords
  exact ⟨hrising', hwords', by simpa using hcur⟩

/-- Taking a slot moves the pool cursor on by one slot (R92). -/
theorem poolInv_takeSlot {b : Build} {c : Ctx} (h : poolInv b c)
    (hroom : c.poolCur.toNat + slotWidth c.level ≤ b.poolEntries.toNat) :
    poolInv b { c with poolCur := word (c.poolCur.toNat + slotWidth c.level) } := by
  obtain ⟨hrising, hwords, -, hmultiple⟩ := h
  have hval := word_toNat (hroom.trans_lt b.poolEntries.isLt)
  exact ⟨hrising, hwords, by rw [hval]; exact hroom, by rw [hval, Nat.add_mod_right]; exact hmultiple⟩

/-- Where ProbeMulti may leave the context before it writes its bucket: both tables and the level as they were, the pool
in its form, its cursor not moved back. -/
def poolWritten (b : Build) (c c' : Ctx) : Prop :=
  c'.fast = c.fast ∧ c'.multi = c.multi ∧ c'.level = c.level ∧ c.poolCur.toNat ≤ c'.poolCur.toNat ∧ poolInv b c'

/-- The slots of the new bucket `x` are those of the old one `y`, but for a slot that the entry `e` may have taken at the
pool cursor (R92). -/
def slotsFrom (c c' : Ctx) (e : Fin 4) (y x : MultiBucket) : Prop :=
  ∀ f, x.ownsSlot f → (y.ownsSlot f ∧ (x.entry[f]).pos = (y.entry[f]).pos) ∨
    ((f = e ∧ (x.entry[f]).pos = c.poolCur) ∧ c.poolCur.toNat + slotWidth c.level ≤ c'.poolCur.toNat)

/-- A written MultiRef bucket keeps the index's invariants if its symbols and slots are as they must be. -/
theorem indexInv_setMulti {b : Build} {c c' : Ctx} {k : Nat} {e : Fin 4} {x : MultiBucket} (h : indexInv b c)
    (hpool : poolWritten b c c') (hk : k < hashPlusSz b.geometry)
    (hlive : liveSymbols (hashM b) k x.count.toNat x.syms) (hslots : slotsFrom c c' e (multiAt c k) x) :
    indexInv b (setMulti c' k x) := by
  obtain ⟨hfast, hmulti, hslot, -, -, -, hmultiple⟩ := h
  obtain ⟨hfast', hmulti', hlevel', hcur', hpool'⟩ := hpool
  have hfits : ∀ l f, (multiAt c l).ownsSlot f → slotFits (slotWidth c.level) c.poolCur ((multiAt c l).entry[f]).pos :=
    fun l => (multiAt_live hmulti l).2
  refine ⟨?_, multiInv_setMulti hmulti hmulti' hlevel' hcur' hk hlive fun f hf => ?_,
    slotInv_setMulti (e := e) (cur := c.poolCur) hmulti.1 hslot hmulti' (fun l f hf hpos => ?_) fun f hf => ?_, hpool'⟩
  · change fastInv b { c' with multi := _ }
    rw [fastInv, hfast']
    exact hfast
  · rw [hlevel']
    obtain ⟨hown, hpos⟩ | ⟨⟨-, hpos⟩, htaken⟩ := hslots f hf <;> rw [hpos]
    · obtain ⟨hbelow, hmod⟩ := hfits k f hown
      exact ⟨hbelow.trans hcur', hmod⟩
    · exact ⟨htaken, hmultiple⟩
  · have hbelow := (hfits l f hf).1
    have := slotWidth_pos c.level
    rw [hpos] at hbelow
    omega
  · exact (hslots f hf).imp_right And.left

/-- ProbeMulti keeps the index's invariants (R91 to R94). -/
theorem indexInv_probeMulti {bld : Build} {m : Memory} {c : Ctx} {sym : Word} {i anchor size : Nat} {ext : Bool}
    (h : indexInv bld c) : indexInv bld (probeMulti bld m c sym i anchor size ext).2 := by
  obtain ⟨-, hmulti, -, hpool⟩ := id h
  have hlive := (multiAt_live hmulti (hashM bld sym)).1
  obtain ⟨e, -, -, -, hroom, hr⟩ | ⟨e, r, hfound, hocc, -, hr⟩ | ⟨hroom, hnone, hr⟩ | hr :=
    probeMulti_cases bld m c sym i anchor size ext _ _ rfl rfl <;> rw [hr]
  case inl =>
    have hval := word_toNat (hroom.trans_lt bld.poolEntries.isLt)
    refine indexInv_setMulti (e := e) h ⟨by simp, by simp, by simp, ?_, ?_⟩ (hashM_lt bld sym) ?_ fun f hf => ?_
    · simp only [setPool_poolCur, hval]
      omega
    · exact poolInv_setPool _ _ (poolInv_setPool _ _ (poolInv_takeSlot hpool hroom))
    · rw [MultiBucket.syms_retag]
      exact hlive
    · refine (MultiBucket.ownsSlot_retag hf).symm.imp_right fun htaken => ⟨htaken, ?_⟩
      simp only [setPool_poolCur, hval, le_refl]
  case inr.inl =>
    refine indexInv_setMulti (e := e) h ⟨by simp, by simp, by simp, by simp, poolInv_setPool _ _ hpool⟩
      (hashM_lt bld sym) ?_ fun f hf => .inl ?_
    · rw [MultiBucket.syms_retag]
      exact hlive
    · obtain ⟨rfl, hpos⟩ | hold := MultiBucket.ownsSlot_retag hf
      · exact ⟨⟨(findMulti_eq_some.1 hfound).1.1, hocc⟩, hpos⟩
      · exact hold
  case inr.inr.inl =>
    refine indexInv_setMulti (e := 0) h ⟨rfl, rfl, rfl, le_refl _, hpool⟩ (hashM_lt bld sym) ?_
      fun f hf => .inl (MultiBucket.ownsSlot_append hroom hf)
    have hcount : ((multiAt c (hashM bld sym)).count + 1#8).toNat = (multiAt c (hashM bld sym)).count.toNat + 1 := by
      bv_omega
    rw [hcount]
    refine liveSymbols_append hlive hroom rfl (findMulti_eq_none.1 hnone) fun f => ?_
    simp only [MultiBucket.syms, Fin.getElem_fin, Vector.getElem_set, eq_comm (a := f.val)]
    split <;> rfl
  case inr.inr.inr => exact h

/-- ProbeFast writes FastRef and nothing else of the context (R89, R90). -/
theorem probeFast_frame (bld : Build) (m : Memory) (c : Ctx) (sym : Word) (i anchor size : Nat) (ext : Bool) :
    (probeFast bld m c sym i anchor size ext).2 =
      { c with fast := (probeFast bld m c sym i anchor size ext).2.fast } := by
  obtain ⟨e, -, -, hr⟩ | ⟨hroom, -, hr⟩ | hr := probeFast_cases bld m c sym i anchor size ext _ _ rfl rfl <;>
    rw [hr] <;> rfl

/-- ProbeFast keeps the index's invariants (R88 to R90). -/
theorem indexInv_probeFast {bld : Build} {m : Memory} {c : Ctx} {sym : Word} {i anchor size : Nat} {ext : Bool}
    (h : indexInv bld c) : indexInv bld (probeFast bld m c sym i anchor size ext).2 := by
  obtain ⟨hfast, hmulti, hslot, hpool⟩ := h
  have hfast' : fastInv bld (probeFast bld m c sym i anchor size ext).2 := fastInv_probeFast hfast
  rw [probeFast_frame] at hfast' ⊢
  exact ⟨hfast', hmulti, hslot, hpool⟩

/-- Probe-or-insert keeps the index's invariants (R87, R97). -/
theorem indexInv_probeIndex {bld : Build} {m : Memory} {c : Ctx} {i anchor size : Nat} {ext : Bool}
    (h : indexInv bld c) : indexInv bld (probeIndex bld m c i anchor size ext).2 := by
  have h0 : indexInv bld { c with dirty := true } := h
  unfold probeIndex
  simp only
  split
  · exact h0
  split
  · exact indexInv_probeFast h0
  · exact indexInv_probeMulti h0

/-- IndexReset and the sampled level give an index with no live entry, which has the invariants (R96, R148). -/
theorem indexInv_ctxReset {b : Build} {c : Ctx} (level : BitVec 4) (h : indexInv b c) :
    indexInv b { indexReset c with level := level, dirty := false } := by
  obtain ⟨⟨hfast, hfastKeys⟩, ⟨hmulti, hmultiKeys⟩, -, hpool, hwords, -⟩ := h
  refine ⟨fastInv_iff.2 ⟨keysRising_clearFast hfast, fun p hp => ?_⟩,
    multiInv_iff.2 ⟨keysRising_clearMulti hmulti, fun p hp => ?_⟩, fun p hp _ _ e _ _ he => ?_,
    hpool, hwords, Nat.zero_le _, Nat.zero_mod _⟩
  · obtain ⟨hcount, hfresh, q, hq, hkey⟩ := mem_clearFast hp
    rw [hcount, ← hkey]
    exact ⟨(hfastKeys q hq).1, hfresh, liveSymbols_zero _ _ _⟩
  · obtain ⟨hcount, hfresh, q, hq, hkey⟩ := mem_clearMulti hp
    rw [hcount, ← hkey]
    exact ⟨(hmultiKeys q hq).1, hfresh, liveSymbols_zero _ _ _,
      fun e he => absurd he (MultiBucket.not_ownsSlot_of_count_zero hcount e)⟩
  · rw [(mem_clearMulti hp).1] at he
    exact absurd he (Nat.not_lt_zero _)

theorem cleanInv_ctxReset (c : Ctx) (level : BitVec 4) :
    cleanInv { indexReset c with level := level, dirty := false } :=
  fun _ => ⟨fun _ hp => (mem_clearFast hp).1, fun _ hp => (mem_clearMulti hp).1, rfl⟩

end Sys2Proof.Machine


/-! SUPPORT. Power-on has the unit's invariants, and every step keeps them. -/

namespace Sys2Proof.Machine

/-! ### The invariants in two halves: the context's, and those of the memories, the results and DECODE -/

/-- The unit's invariants but for the context's. -/
def ioInv (s : State) : Prop := memoryInv s ∧ resultInv s ∧ statusInv s ∧ decodeInv s

theorem unitInv_iff {s : State} : unitInv s ↔ ioInv s ∧ indexInv s.build s.ctx ∧ cleanInv s.ctx := by
  simp only [unitInv, ioInv, and_assoc]

theorem unitInv_of_contextKept {s t : State} (h : unitInv s) (hkept : contextKept s t) (ht : ioInv t) : unitInv t := by
  obtain ⟨-, hindex, hclean⟩ := unitInv_iff.1 h
  obtain ⟨⟨-, -, hbuild⟩, hctx⟩ := hkept
  exact unitInv_iff.2 ⟨ht, by rw [hbuild, hctx]; exact hindex, by rw [hctx]; exact hclean⟩

/-- With DIRTY set the clean context asks nothing. -/
theorem cleanInv_of_dirty {c : Ctx} (h : c.dirty = true) : cleanInv c := fun hclean =>
  absurd (h.symm.trans hclean) (by decide)

theorem statusByte_le (c : StatusCode) : (statusByte c).toNat ≤ 9 := by
  cases c <;> decide

theorem decodeInv_of_idle {s : State} (h : s.phase = .idle) : decodeInv s := by
  simp [decodeInv, inDecode, h]

/-! ### How a command ends -/

theorem ioInv_reject {s : State} (c : StatusCode) (h : memoryInv s) : ioInv (s.reject c) :=
  ⟨h, ⟨Nat.zero_le _, fun _ ha => absurd ha (Nat.not_lt_zero _)⟩, statusByte_le c, decodeInv_of_idle rfl⟩

theorem memoryInv_loseOut {s : State} (n : Nat) (h : memoryInv s) : memoryInv (s.loseOut n) := by
  obtain ⟨hin, hinBelow, hout, houtBelow⟩ := h
  exact ⟨hin, hinBelow, State.wf_loseOut n hout, State.below_loseOut houtBelow⟩

theorem ioInv_rejectStream {s : State} (c : StatusCode) (h : memoryInv s) : ioInv (s.rejectStream c) :=
  ioInv_reject c (memoryInv_loseOut 0 h)

/-- ENCODE and DECODE end OK with the OUT_SIZE bytes they wrote, all of them specified (R115, R136). -/
theorem ioInv_finish {s : State} {n : Nat} (h : memoryInv s) (hn : n ≤ s.outputSize)
    (hbytes : ∀ a < n, (Memory.get? s.outMem a).isSome = true) :
    ioInv ((s.loseOut n).setOutSize n).complete := by
  have hval : (BitVec.ofNat 32 n).toNat = n := word_toNat (hn.trans_lt s.outputSize_lt)
  refine ⟨memoryInv_loseOut n h, ⟨?_, fun a ha => ?_⟩, Nat.zero_le _, decodeInv_of_idle rfl⟩
  · exact hval.trans_le hn
  · have han : a < n := hval ▸ ha
    change (Memory.get? (s.loseOut n).outMem a).isSome = true
    rw [State.get?_loseOut, if_pos han]
    exact hbytes a han

/-- OUT written inside its bound: the memories stay in their form. -/
theorem memoryInv_of_outExtends {s : State} {m : Memory} (h : memoryInv s)
    (hm : outExtends s.outputSize s.outMem m) : memoryInv { s with outMem := m } := by
  obtain ⟨hin, hinBelow, hout, houtBelow⟩ := h
  exact ⟨hin, hinBelow, hm.1 hout, hm.2.1 houtBelow⟩

theorem resultInv_of_outExtends {s : State} {m : Memory} (h : resultInv s)
    (hm : outExtends s.outputSize s.outMem m) : resultInv { s with outMem := m } :=
  ⟨h.1, fun a ha => hm.2.2 a (h.2 a ha)⟩

/-! ### Power-on (R24, R180) -/

/-- Settles O52: both memories and the index list nothing, and every count and cursor is 0. -/
theorem unitInvariantAtPowerOn : Obligations.UnitInvariantAtPowerOn := by
  have hindex : indexInv State.reset.build State.reset.ctx := by
    simp [indexInv, fastInv, multiInv, slotInv, poolInv, State.reset]
  have hclean : cleanInv State.reset.ctx := by simp [cleanInv, State.reset]
  have hmemory : memoryInv State.reset := by simp [memoryInv, State.reset]
  have hresult : resultInv State.reset := by simp [resultInv, State.reset]
  exact unitInv_iff.2 ⟨⟨hmemory, hresult, Nat.zero_le _, decodeInv_of_idle rfl⟩, hindex, hclean⟩

/-! ### The leaf commands, CTX_RESET, PROBE -/

theorem unitInv_leafOutcome {s t : State} (h : unitInv s) (ht : leafOutcome s t) : unitInv t := by
  refine unitInv_of_contextKept h ht.contextKept ?_
  obtain ⟨⟨hmemory, hresult, -⟩, -⟩ := unitInv_iff.1 h
  obtain rfl | ⟨v, rfl⟩ | ⟨m, hm, rfl⟩ := ht
  · exact ioInv_reject _ hmemory
  · exact ⟨hmemory, hresult, Nat.zero_le _, decodeInv_of_idle rfl⟩
  · exact ⟨memoryInv_of_outExtends (s := s) hmemory hm, resultInv_of_outExtends (s := s) hresult hm, Nat.zero_le _,
      decodeInv_of_idle rfl⟩

theorem unitInv_execCtxReset {s t : State} (h : unitInv s) (ht : execCtxReset s = .next t) : unitInv t := by
  obtain ⟨⟨hmemory, hresult, -⟩, hindex, -⟩ := unitInv_iff.1 h
  obtain rfl := Host.Outcome.next.inj ht
  exact unitInv_iff.2 ⟨⟨hmemory, hresult, Nat.zero_le _, decodeInv_of_idle rfl⟩, indexInv_ctxReset _ hindex,
    cleanInv_ctxReset _ _⟩

theorem unitInv_execProbe {s t : State} (h : unitInv s) (ht : execProbe s = .next t) : unitInv t := by
  obtain ⟨⟨hmemory, hresult, -⟩, hindex, -⟩ := unitInv_iff.1 h
  obtain rfl | ⟨r, hr, rfl⟩ := execProbe_eq_next ht
  · exact unitInv_of_contextKept h (contextKept_reject s _) (ioInv_reject _ hmemory)
  · rw [State.setProbeResult_frame]
    refine unitInv_iff.2 ⟨⟨hmemory, hresult, Nat.zero_le _, decodeInv_of_idle rfl⟩, ?_, cleanInv_of_dirty ?_⟩
    · exact hr ▸ indexInv_probeIndex hindex
    · exact hr ▸ (probeIndex_frame _ _ _ _ _ _ _).1

/-! ### Inside DECODE (R125 to R136) -/

/-- What holds after a symbol, before the test of R135: the cursors inside the payload and the block, the bytes written
so far specified, the anchor not after the write cursor. -/
def streamInv (s : State) : Prop :=
  (3 ≤ s.inSize ∧ s.inSize ≤ s.outputSize) ∧ s.dec.size.toNat ≤ s.blockSize ∧ s.dec.i.toNat ≤ s.inSize ∧
    s.dec.j.toNat ≤ s.dec.size.toNat ∧ (∀ a < s.dec.j.toNat, (Memory.get? s.outMem a).isSome = true) ∧
    s.dec.anchor.toNat ≤ s.dec.j.toNat

theorem ioInv_afterSymbol {s : State} (hmemory : memoryInv s) (hresult : resultInv s) (hstatus : statusInv s)
    (h : streamInv s) : ioInv (afterSymbol s) := by
  obtain ⟨hin, hsize, hi, hj, hbytes, hanchor⟩ := h
  obtain ⟨hdone, hr⟩ | ⟨hmore, -, hr⟩ | ⟨hmore, -, hr⟩ := afterSymbol_cases s <;> rw [hr]
  · exact ioInv_finish hmemory (hsize.trans s.blockSize_le_outputSize) fun a ha => hbytes a (by omega)
  · exact ⟨hmemory, hresult, hstatus, fun _ => hin, fun _ => ⟨hsize, hi, hmore, hbytes⟩, fun hp => nomatch hp⟩
  · refine ⟨hmemory, hresult, hstatus, fun _ => hin, fun _ => ⟨hsize, hi, hmore, hbytes⟩, fun _ => ?_⟩
    simp only [State.withPhase_dec, State.withDec_dec]
    split
    · exact le_refl _
    · exact hanchor

theorem ioInv_symbolOutcome {s t : State} (h : ioInv s) (hp : s.phase = .symbol) (ht : symbolOutcome s t) :
    ioInv t := by
  obtain ⟨hmemory, hresult, hstatus, hdecode, hcursors, hanchor⟩ := h
  obtain ⟨hsize, hi, hj, hbytes⟩ := hcursors (.inr hp)
  have hin := hdecode (by simp [hp, inDecode])
  obtain ⟨d, c, rfl⟩ | ⟨i, bytes, hi', hj', hroom, rfl⟩ := ht
  · exact ioInv_rejectStream c hmemory
  · have hext := outExtends_putRun s.outMem hroom
    have hjval := word_toNat (hroom.trans_lt s.outputSize_lt)
    have hival := word_toNat (hi'.trans_lt s.regs.inSize.isLt)
    refine ioInv_afterSymbol (memoryInv_of_outExtends (s := s) hmemory hext)
      (resultInv_of_outExtends (s := s) hresult hext) hstatus
      ⟨hin, hsize, hival.trans_le hi', hjval.trans_le hj', fun a ha => Memory.isSome_get?_putRun ?_, ?_⟩
    · have ha' : a < s.dec.j.toNat + bytes.length := hjval ▸ ha
      obtain hold | hnew := Nat.lt_or_ge a s.dec.j.toNat
      · exact .inr (hbytes a hold)
      · exact .inl ⟨hnew, ha'⟩
    · exact (hanchor hp).trans ((Nat.le_add_right _ _).trans_eq hjval.symm)

theorem ioInv_execBlkhdr {size : BitVec 24} {s t : State} (h : ioInv s) (hp : s.phase = .header)
    (ht : execBlkhdr size s = .next t) : ioInv t := by
  obtain ⟨hmemory, hresult, hstatus, hdecode, -⟩ := h
  have hin := hdecode (by simp [hp, inDecode])
  obtain ⟨d, rfl⟩ | ⟨d, hsize, hds, hdi, hdj, ⟨hempty, rfl⟩ | ⟨hpos, rfl⟩⟩ := execBlkhdr_eq_next ht
  · exact ioInv_reject (s := s.withDec d) _ hmemory
  · subst hempty
    have hzero : (s.withDec d).dec.size.toNat = 0 := congrArg BitVec.toNat hds
    refine ioInv_finish (s := s.withDec d) hmemory (by omega) fun a ha => ?_
    omega
  · refine ⟨hmemory, hresult, hstatus, fun _ => hin, fun _ => ?_, fun hphase => nomatch hphase⟩
    simp only [State.withPhase_dec, State.withDec_dec, hds, hdi, hdj]
    exact ⟨hsize, hin.1, hpos, fun a ha => absurd ha (Nat.not_lt_zero a)⟩

theorem ioInv_execGroup {c b0 b1 b2 b3 : Byte} {s t : State} (h : ioInv s) (hp : s.phase = .group)
    (ht : execGroup c b0 b1 b2 b3 s = .next t) : ioInv t := by
  obtain ⟨hmemory, hresult, hstatus, hdecode, hcursors, -⟩ := h
  have hin := hdecode (by simp [hp, inDecode])
  obtain ⟨hsize, -, hj, hbytes⟩ := hcursors (.inl hp)
  obtain rfl | ⟨d, rfl, hpresent, hdi, hdj, hds, hda⟩ := execGroup_eq_next ht
  · exact ioInv_rejectStream _ hmemory
  · have hival := word_toNat (hpresent.trans_lt s.regs.inSize.isLt)
    refine ⟨hmemory, hresult, hstatus, fun _ => hin, fun _ => ?_, fun _ => ?_⟩ <;>
      simp only [State.withPhase_dec, State.withDec_dec, hdi, hdj, hds, hda]
    · exact ⟨hsize, hival.trans_le hpresent, hj, hbytes⟩
    · exact le_refl _

theorem unitInv_streamStep {s t : State} (h : unitInv s) (ht : streamStep s = .next t) : unitInv t := by
  refine unitInv_of_contextKept h (contextKept_streamStep ht) ?_
  have hio := (unitInv_iff.1 h).1
  unfold streamStep at ht
  split at ht
  · exact ioInv_execBlkhdr hio ‹_› ht
  · exact ioInv_execGroup hio ‹_› ht
  · exact ioInv_symbolOutcome hio ‹_› (symbolOutcome_execSymbol ht)
  · exact Host.Outcome.next.inj ht ▸ hio
  · exact Host.Outcome.next.inj ht ▸ hio

theorem unitInv_execDecode {s t : State} (h : unitInv s) (ht : execDecode s = .next t) : unitInv t := by
  obtain ⟨hmemory, hresult, hstatus, -⟩ := (unitInv_iff.1 h).1
  obtain rfl | ⟨hmin, hmax, hrun⟩ := execDecode_eq_next ht
  · exact unitInv_of_contextKept h (contextKept_reject s _) (ioInv_reject _ hmemory)
  · have hstart : unitInv (decodeStart s) :=
      unitInv_of_contextKept h (contextKept_of_regs_eq rfl rfl rfl rfl) ⟨hmemory, hresult, hstatus,
        fun _ => ⟨hmin, hmax⟩, fun hphase => hphase.elim nofun nofun, fun hphase => nomatch hphase⟩
    exact runStream_induction (P := unitInv) (fun _ _ hu _ hv => unitInv_streamStep hu hv) hstart hrun

/-! ### ENCODE (R105 to R115) -/

/-- What holds all through ENCODE: the memories and the index in their form, the output cursor inside OUT, every byte
below it specified. -/
def encodeInv (s : State) : Prop :=
  memoryInv s ∧ indexInv s.build s.ctx ∧ s.enc.o.toNat ≤ s.outputSize ∧
    ∀ a < s.enc.o.toNat, (Memory.get? s.outMem a).isSome = true

/-- Bytes stored at the output cursor, which moves past them. -/
theorem encodeInv_putOut {s t : State} {bytes : List Byte} (h : encodeInv s)
    (hroom : s.enc.o.toNat + bytes.length ≤ s.outputSize)
    (ht : t = (s.putOut s.enc.o.toNat bytes).withEnc { s.enc with o := word (s.enc.o.toNat + bytes.length) }) :
    encodeInv t := by
  obtain ⟨hmemory, hindex, -, hbytes⟩ := h
  have hoval := word_toNat (hroom.trans_lt s.outputSize_lt)
  subst ht
  refine ⟨memoryInv_of_outExtends (s := s) hmemory (outExtends_putRun _ hroom), hindex, hoval.trans_le hroom,
    fun a ha => ?_⟩
  have ha' : a < s.enc.o.toNat + bytes.length := hoval ▸ ha
  obtain hold | hnew := Nat.lt_or_ge a s.enc.o.toNat
  · exact Memory.isSome_get?_putRun (.inr (hbytes a hold))
  · exact Memory.isSome_get?_putRun (.inl ⟨hnew, ha'⟩)

/-- The other encoder registers are free. -/
theorem encodeInv_withEnc {s : State} {e : EncRegs} (h : encodeInv s) (ho : e.o = s.enc.o) : encodeInv (s.withEnc e) := by
  obtain ⟨hmemory, hindex, hcursor⟩ := h
  rw [← ho] at hcursor
  exact ⟨hmemory, hindex, hcursor⟩

theorem encodeInv_flushGroup {s t : State} {ds : List Desc} (h : encodeInv s) (ht : flushGroup s ds = .next t) :
    encodeInv t := by
  obtain ⟨-, hroom, hr⟩ | ⟨-, -, hr⟩ | ⟨-, hr⟩ := flushGroup_cases s ds <;> rw [hr] at ht
  · exact encodeInv_putOut h hroom (Host.Outcome.next.inj ht).symm
  · cases ht
  · cases ht

theorem encodeInv_flushFull {s t : State} (h : encodeInv s) (ht : flushFull s = .next t) : encodeInv t := by
  obtain ⟨-, rfl⟩ | ⟨-, u, hu, rfl⟩ := flushFull_cases ht
  · exact h
  · exact encodeInv_withEnc (encodeInv_flushGroup h hu) rfl

theorem encodeInv_flushRest {s t : State} (h : encodeInv s) (ht : flushRest s = .next t) : encodeInv t := by
  obtain rfl | ⟨u, hu, rfl⟩ := flushRest_cases ht
  · exact h
  · exact encodeInv_withEnc (encodeInv_flushGroup h hu) rfl

theorem encodeInv_encodeTail {s t : State} (h : encodeInv s) (ht : encodeTail s = .next t) : encodeInv t := by
  obtain ⟨u, hu, ht⟩ := andThen_eq_next.1 ht
  rw [emitTrailing_frame] at hu
  exact encodeInv_flushRest (encodeInv_flushFull (encodeInv_withEnc h (emitTrailing_o s)) hu) ht

/-- An iteration of the scan leaves the output cursor to the flush. -/
theorem scanRegs_o (e : EncRegs) (accepted : ProbeResult) (a : Word) : (scanRegs e accepted a).o = e.o := by
  unfold scanRegs
  rcases accepted with - | ⟨len, pos⟩
  · simp only [addLiteralByte]
    split <;> simp [emitLiteral]
  · simp only [addMatch]
    split <;> simp [emitLiteral]

theorem encodeInv_scanStep {size : Nat} {s t : State} (h : encodeInv s) (ht : scanStep size s = .next t) :
    encodeInv t := by
  obtain ⟨hmemory, hindex, hcursor⟩ := h
  have hprobed : ∀ {i a : Nat}, encodeInv (s.withCtx (probeIndex s.build s.inMem s.ctx i a size s.extOn).2) :=
    ⟨hmemory, indexInv_probeIndex hindex, hcursor⟩
  exact encodeInv_flushFull (encodeInv_withEnc hprobed (scanRegs_o _ _ _)) ht

theorem encodeInv_encodeStart {s : State} (hmemory : memoryInv s) (hindex : indexInv s.build s.ctx) :
    encodeInv (encodeStart s) := by
  have hroom : 3 ≤ s.outputSize := by
    unfold State.outputSize Machine.outputSize Machine.blockSize blockBits
    cases s.build.geometry <;> decide
  have hlen : 0 + (putLE24 s.inSize).length = 3 := rfl
  exact ⟨memoryInv_of_outExtends (s := s) hmemory (outExtends_putRun _ (hlen.trans_le hroom)), hindex, hroom,
    fun a ha => Memory.isSome_get?_putRun (.inl ⟨Nat.zero_le a, ha⟩)⟩

theorem unitInv_execEncode {s t : State} (h : unitInv s) (ht : execEncode s = .next t) : unitInv t := by
  obtain ⟨⟨hmemory, -⟩, hindex, -⟩ := unitInv_iff.1 h
  have hkept := contextKept_or_dirtied_execEncode ht
  obtain ⟨c, rfl⟩ | ⟨u, v, hu, hv, rfl⟩ := execEncode_eq_next ht
  · exact unitInv_of_contextKept h (contextKept_reject s c) (ioInv_reject c hmemory)
  · have hscan : encodeInv u := scanLoop_induction (P := encodeInv) (fun _ _ => encodeInv_scanStep)
      (encodeInv_encodeStart hmemory hindex) hu
    obtain ⟨hmemory', hindex', hroom, hbytes⟩ := encodeInv_encodeTail hscan hv
    have hdirty : dirtied s v := (scanLoop_induction (P := dirtied s) (fun _ _ => dirtied_scanStep)
      (dirtied_encodeStart s) hu).then_contextKept (contextKept_encodeTail hv)
    exact unitInv_iff.2 ⟨ioInv_finish hmemory' hroom hbytes, hindex', cleanInv_of_dirty hdirty.2.2⟩

/-! ### The step -/

/-- An if chain of instructions answers the first one or goes on. -/
theorem eq_or_of_ite_ok {p : Prop} [Decidable p] {i j : Instr} {rest : Except DecodeError Instr}
    (h : (if p then .ok j else rest) = .ok i) : i = j ∨ rest = .ok i := by
  split at h
  · exact .inl (Except.ok.inj h).symm
  · exact .inr h

/-- What a command code decodes to (R59). -/
theorem decodeCmd_eq_ok {code : Byte} {i : Instr} (h : decodeCmd code = .ok i) :
    i ∈ leafCommands ∨ i = .ctxReset ∨ i = .encode ∨ i = .decode ∨ i = .probe := by
  unfold decodeCmd at h
  repeat' (obtain rfl | h := eq_or_of_ite_ok h; · simp [leafCommands])
  cases h

theorem fetchCommand_eq_some {s : State} {i : Instr} (h : fetchCommand s = some i) : decodeCmd s.regs.cmd = .ok i := by
  unfold fetchCommand decode decoded at h
  cases hd : decodeCmd s.regs.cmd with
  | ok j => simpa [hd] using h
  | error e => simp [hd] at h

/-- A command keeps the invariants. -/
theorem unitInv_execCommand {code : Byte} {i : Instr} {s t : State} (h : unitInv s) (hi : decodeCmd code = .ok i)
    (ht : exec i s = .next t) : unitInv t := by
  obtain hleaf | rfl | rfl | rfl | rfl := decodeCmd_eq_ok hi
  · exact unitInv_leafOutcome h (leafOutcome_exec hleaf ht)
  · exact unitInv_execCtxReset h ht
  · exact unitInv_execEncode h ht
  · exact unitInv_execDecode h ht
  · exact unitInv_execProbe h ht

theorem unitInv_step_of_issued {s t : State} (h : unitInv s) (hp : s.phase = .issued) (ht : step s = .next t) :
    unitInv t := by
  have hfetch : fetch s = fetchCommand s := by simp only [fetch, hp]
  unfold step at ht
  rw [hfetch] at ht
  cases hc : fetchCommand s with
  | some i =>
    rw [hc] at ht
    exact unitInv_execCommand h (fetchCommand_eq_some hc) ht
  | none =>
    rw [hc] at ht
    obtain rfl := Host.Outcome.next.inj ht
    simp only [noInstruction, hp]
    exact unitInv_of_contextKept h (contextKept_reject s _) (ioInv_reject _ h.1)

/-- Settles O53: an issued command keeps the invariants, and so does a step inside DECODE; else the step holds the
state. -/
theorem stepKeepsTheUnitInvariant : Obligations.StepKeepsTheUnitInvariant := by
  intro s t h ht
  by_cases hp : s.phase = .issued
  · exact unitInv_step_of_issued h hp ht
  · exact unitInv_streamStep h ((streamStep_eq_step hp).trans ht)

end Sys2Proof.Machine

/-! SUPPORT. DECODE comes to its end on every content of IN, and what its end leaves of OUT; who else leaves OUT
alone. -/

namespace Sys2Proof.Machine

/-! ### A step past the block header (R127 to R137) -/

/-- The rejections of DECODE in mid-stream (R127, R130, R131, R165). -/
def streamCodes : List StatusCode := [.errUnderrun, .errOffset, .errOverlap, .errOverrun]

/-- DECODE stands past its block header: the payload lies in IN, the block in OUT, the read cursor in the payload and,
at a symbol, the anchor is not after the write cursor. -/
def streamReady (s : State) : Prop :=
  (s.phase = .group ∨ s.phase = .symbol) ∧ s.inSize ≤ s.outputSize ∧ s.dec.size.toNat ≤ s.outputSize ∧
    s.dec.i.toNat ≤ s.inSize ∧ (s.phase = .symbol → s.dec.anchor.toNat ≤ s.dec.j.toNat)

/-- DECODE has ended past its block header: OK, or rejected with nothing of OUT specified (R136, R165; log 19). -/
def streamEnded (t : State) : Prop :=
  t.phase = .idle ∧ (t.regs.status = 0#8 ∨ t.outMem = [] ∧ ∃ c ∈ streamCodes, t.regs.status = statusByte c)

/-- What one step past the block header does: end DECODE, or move the read cursor on. -/
def streamMoves (s t : State) : Prop :=
  streamEnded t ∨ streamReady t ∧ t.inSize = s.inSize ∧ s.dec.i.toNat < t.dec.i.toNat

theorem streamMoves_rejectStream (s u : State) {c : StatusCode} (hc : c ∈ streamCodes) :
    streamMoves s (u.rejectStream c) :=
  .inl ⟨rfl, .inr ⟨u.rejectStream_outMem c, c, hc, rfl⟩⟩

/-- After a symbol the block ends, or the next group or symbol is due, whose anchor is taken at the write cursor or
kept. -/
theorem streamMoves_afterSymbol {s u : State} (hin : u.inSize = s.inSize) (hmoved : s.dec.i.toNat < u.dec.i.toNat)
    (hpayload : u.inSize ≤ u.outputSize) (hblock : u.dec.size.toNat ≤ u.outputSize) (hi : u.dec.i.toNat ≤ u.inSize)
    (hanchor : u.dec.anchor.toNat ≤ u.dec.j.toNat) : streamMoves s (afterSymbol u) := by
  obtain ⟨-, hr⟩ | ⟨-, -, hr⟩ | ⟨-, -, hr⟩ := afterSymbol_cases u <;> rw [hr]
  · exact .inl ⟨rfl, .inl rfl⟩
  · exact .inr ⟨⟨.inl rfl, hpayload, hblock, hi, fun hp => nomatch hp⟩, hin, hmoved⟩
  · refine .inr ⟨⟨.inr rfl, hpayload, hblock, hi, fun _ => ?_⟩, hin, hmoved⟩
    simp only [State.withPhase_dec, State.withDec_dec]
    split
    · exact le_refl _
    · exact hanchor

theorem literalRun_moves {len : Nat} {s : State} (h : streamReady s) (hp : s.phase = .symbol) (hlen : 0 < len) :
    ∃ t, literalRun len s = .next t ∧ streamMoves s t := by
  obtain ⟨-, hpayload, hblock, -, hanchor⟩ := h
  obtain ⟨-, hr⟩ | ⟨-, -, hr⟩ | ⟨hi, hj, hr⟩ := literalRun_cases (len := len) hpayload hblock
  · exact ⟨_, hr, streamMoves_rejectStream s s (by decide)⟩
  · exact ⟨_, hr, streamMoves_rejectStream s s (by decide)⟩
  · have hival : (word (s.dec.i.toNat + len)).toNat = s.dec.i.toNat + len :=
      word_toNat (hi.trans_lt s.regs.inSize.isLt)
    have hjval : (word (s.dec.j.toNat + len)).toNat = s.dec.j.toNat + len :=
      word_toNat ((hj.trans hblock).trans_lt s.outputSize_lt)
    refine ⟨_, hr, streamMoves_afterSymbol rfl ?_ hpayload hblock (hival.trans_le hi) ?_⟩
    · exact (Nat.lt_add_of_pos_right hlen).trans_eq hival.symm
    · exact (hanchor hp).trans ((Nat.le_add_right _ _).trans_eq hjval.symm)

theorem backReference_moves {len : Nat} {s : State} (h : streamReady s) (hp : s.phase = .symbol) :
    ∃ t, backReference len s = .next t ∧ streamMoves s t := by
  obtain ⟨-, hpayload, hblock, -, hanchor⟩ := h
  obtain ⟨-, hr⟩ | ⟨-, -, hr⟩ | ⟨-, -, -, -, hr⟩ | ⟨-, -, -, -, -, hr⟩ | ⟨hi, -, -, -, hj, hr⟩ :=
    backReference_cases (len := len) hpayload hblock (hanchor hp) _ rfl _ rfl
  · exact ⟨_, hr, streamMoves_rejectStream s _ (by decide)⟩
  · exact ⟨_, hr, streamMoves_rejectStream s _ (by decide)⟩
  · exact ⟨_, hr, streamMoves_rejectStream s _ (by decide)⟩
  · exact ⟨_, hr, streamMoves_rejectStream s _ (by decide)⟩
  · have hival : (word (s.dec.i.toNat + 2)).toNat = s.dec.i.toNat + 2 := word_toNat (hi.trans_lt s.regs.inSize.isLt)
    have hjval : (word (s.dec.j.toNat + len)).toNat = s.dec.j.toNat + len :=
      word_toNat ((hj.trans hblock).trans_lt s.outputSize_lt)
    refine ⟨_, hr, streamMoves_afterSymbol rfl ?_ hpayload hblock (hival.trans_le hi) ?_⟩
    · exact (Nat.lt_add_of_pos_right Nat.two_pos).trans_eq hival.symm
    · exact (hanchor hp).trans ((Nat.le_add_right _ _).trans_eq hjval.symm)

theorem exec_symbol_moves {i : Instr} {s : State} (hi : (symSel i).isSome = true) (h : streamReady s)
    (hp : s.phase = .symbol) : ∃ t, exec i s = .next t ∧ streamMoves s t := by
  cases i with
  | lit nib => exact literalRun_moves h hp (Nat.succ_pos _)
  | ref | refx32 | refx48 | refx64 | refExt4 | refExt5to8 | refExt9to16 => exact backReference_moves h hp
  | _ => exact absurd hi (by simp [symSel])

theorem execGroup_moves {c b0 b1 b2 b3 : Byte} {s : State} (h : streamReady s) :
    ∃ t, execGroup c b0 b1 b2 b3 s = .next t ∧ streamMoves s t := by
  obtain ⟨-, hpayload, hblock, -⟩ := h
  unfold execGroup
  by_cases hg : s.dec.i.toNat + 5 ≤ s.inSize
  · have hival : (word (s.dec.i.toNat + 5)).toNat = s.dec.i.toNat + 5 := word_toNat (hg.trans_lt s.regs.inSize.isLt)
    rw [if_neg (by simpa [groupPresent] using hg), if_neg (by omega)]
    refine ⟨_, rfl, .inr ⟨⟨.inr rfl, hpayload, hblock, hival.trans_le hg, fun _ => le_refl _⟩, rfl, ?_⟩⟩
    exact (Nat.lt_add_of_pos_right (by decide)).trans_eq hival.symm
  · exact ⟨_, if_pos (by simpa [groupPresent] using hg), streamMoves_rejectStream s s (by decide)⟩

theorem streamStep_moves {s : State} (h : streamReady s) : ∃ t, streamStep s = .next t ∧ streamMoves s t := by
  obtain hp | hp := h.1
  · have hstep : streamStep s = execGroup (s.inAt s.dec.i.toNat) (s.inAt (s.dec.i.toNat + 1))
        (s.inAt (s.dec.i.toNat + 2)) (s.inAt (s.dec.i.toNat + 3)) (s.inAt (s.dec.i.toNat + 4)) s := by
      simp only [streamStep, hp]
    exact hstep ▸ execGroup_moves h
  · have hstep : streamStep s = exec (decodeSym (currentSel s)) s := by
      simp only [streamStep, hp, execSymbol_eq_exec]
    exact hstep ▸ exec_symbol_moves (symSel_decodeSym_isSome _) h hp

/-! ### The whole of DECODE (R125, R142) -/

theorem runStream_of_idle {s : State} (n : Nat) (h : s.phase = .idle) : runStream n s = .next s := by
  cases n with
  | zero => rfl
  | succ n => simp [runStream, h, inDecode]

/-- Every step moves the read cursor on inside the payload, so the stream ends before fuel for its bytes does
(R142; log 22). -/
theorem runStream_ends {n : Nat} {s : State} (h : streamReady s) (hn : s.inSize < n + s.dec.i.toNat) :
    ∃ t, runStream n s = .next t ∧ streamEnded t := by
  induction n generalizing s with
  | zero =>
    obtain ⟨-, -, -, hi, -⟩ := h
    omega
  | succ n ih =>
    have hin : inDecode s.phase = true := by obtain hp | hp := h.1 <;> rw [hp] <;> rfl
    obtain ⟨u, hu, hmoves⟩ := streamStep_moves h
    have hrun : runStream (n + 1) s = runStream n u := by rw [runStream, if_pos hin, hu, andThen_next]
    rw [hrun]
    obtain hended | ⟨hready, hsize, hi⟩ := hmoves
    · exact ⟨u, runStream_of_idle n hended.1, hended⟩
    · exact ih hready (by omega)

theorem execBlkhdr_completes (size : BitVec 24) (s : State) : Completes (execBlkhdr size s) := by
  unfold execBlkhdr
  simp only
  split <;> exact ⟨_, rfl⟩

/-- DECODE ends, whatever state it is issued in: with ERR_SIZE or ERR_INSIZE and OUT untouched, or past its block
header. -/
theorem execDecode_ends (s : State) : ∃ t, execDecode s = .next t ∧
    (outKept s t ∧ (t.regs.status = 2#8 ∨ t.regs.status = 3#8) ∨ streamEnded t) := by
  unfold execDecode
  split
  · exact ⟨_, rfl, .inl ⟨⟨rfl, rfl⟩, .inr rfl⟩⟩
  split
  · exact ⟨_, rfl, .inl ⟨⟨rfl, rfl⟩, .inr rfl⟩⟩
  have hpayload : s.inSize ≤ s.outputSize := by omega
  obtain ⟨u, hu⟩ := execBlkhdr_completes (le24 (s.inAt 0) (s.inAt 1) (s.inAt 2)) (decodeStart s)
  have hrun : runStream (s.inSize + 1) (decodeStart s) = runStream s.inSize u := by
    change andThen (execBlkhdr _ (decodeStart s)) _ = _
    exact hu ▸ rfl
  rw [hrun]
  obtain ⟨d, rfl⟩ | ⟨d, hsize, hds, hdi, -, ⟨-, rfl⟩ | ⟨-, rfl⟩⟩ := execBlkhdr_eq_next hu
  · exact ⟨_, runStream_of_idle _ rfl, .inl ⟨⟨rfl, rfl⟩, .inl rfl⟩⟩
  · exact ⟨_, runStream_of_idle _ rfl, .inr ⟨rfl, .inl rfl⟩⟩
  · have hival : d.i.toNat = 3 := congrArg BitVec.toNat hdi
    have hblock : d.size.toNat ≤ s.outputSize := hds ▸ hsize.trans s.blockSize_le_outputSize
    obtain ⟨t, ht, hended⟩ := runStream_ends (n := s.inSize) (s := ((decodeStart s).withDec d).withPhase .group)
      ⟨.inl rfl, hpayload, hblock, by change d.i.toNat ≤ s.inSize; omega, fun hp => nomatch hp⟩
      (by change s.inSize < s.inSize + d.i.toNat; omega)
    exact ⟨t, ht, .inr hended⟩

/-! ### Who leaves OUT alone (R42, R165) -/

/-- The leaf commands whose answer is RES0 are rejected or write it (R69, R83, R86). -/
theorem exec_answering_eq_next {i : Instr} {s t : State} (hi : i ∈ [Instr.rd16le, .hash4, .matchlen])
    (h : exec i s = .next t) : t = s.reject .errArg ∨ ∃ v, t = (s.setRes0 v).complete := by
  simp only [List.mem_cons, List.not_mem_nil, or_false] at hi
  obtain rfl | rfl | rfl := hi <;> simp only [exec, execRd16le, execHash4, execMatchlen] at h <;> split at h <;>
    obtain rfl := Host.Outcome.next.inj h
  case inl.isFalse | inr.inl.isTrue | inr.inr.isTrue => exact .inl rfl
  case inl.isTrue | inr.inl.isFalse | inr.inr.isFalse => exact .inr ⟨_, rfl⟩

theorem outKept_execProbe {s t : State} (h : execProbe s = .next t) : outKept s t := by
  obtain rfl | ⟨r, -, rfl⟩ := execProbe_eq_next h
  · exact ⟨rfl, rfl⟩
  · rw [State.setProbeResult_frame]
    exact ⟨rfl, rfl⟩

/-- The instructions that have no store to OUT. -/
theorem outKept_exec {i : Instr} {s t : State} (hi : i ∈ [Instr.nop, .ctxReset, .rd16le, .hash4, .matchlen, .probe])
    (h : exec i s = .next t) : outKept s t := by
  by_cases hanswer : i ∈ [Instr.rd16le, .hash4, .matchlen]
  · obtain rfl | ⟨v, rfl⟩ := exec_answering_eq_next hanswer h <;> exact ⟨rfl, rfl⟩
  · have hrest : i = .nop ∨ i = .ctxReset ∨ i = .probe := by
      simp only [List.mem_cons, List.not_mem_nil, or_false] at hi hanswer
      tauto
    obtain rfl | rfl | rfl := hrest
    · exact Host.Outcome.next.inj h ▸ ⟨rfl, rfl⟩
    · exact Host.Outcome.next.inj h ▸ ⟨rfl, rfl⟩
    · exact outKept_execProbe h

theorem leafOutcome.outKept_of_rejected {s t : State} (h : leafOutcome s t) (hstatus : t.regs.status ≠ 0#8) :
    outKept s t := by
  obtain rfl | ⟨v, rfl⟩ | ⟨m, -, rfl⟩ := h
  · exact ⟨rfl, rfl⟩
  · exact absurd rfl hstatus
  · exact absurd rfl hstatus

theorem outKept_execEncode_of_rejected {s t : State} (h : execEncode s = .next t) (hstatus : t.regs.status ≠ 0#8) :
    outKept s t := by
  obtain ⟨c, rfl⟩ | ⟨u, v, -, -, rfl⟩ := execEncode_eq_next h
  · exact ⟨rfl, rfl⟩
  · exact absurd rfl hstatus

/-- DECODE stands idle after a symbol only where the block ended OK (R136). -/
theorem status_afterSymbol_of_idle {s : State} (h : (afterSymbol s).phase = .idle) :
    (afterSymbol s).regs.status = 0#8 := by
  obtain ⟨-, hr⟩ | ⟨-, -, hr⟩ | ⟨-, -, hr⟩ := afterSymbol_cases s <;> rw [hr] at h ⊢
  · rfl
  · cases h
  · cases h

theorem symbolOutcome.outMem_of_rejected {s t : State} (h : symbolOutcome s t) (hp : t.phase = .idle)
    (hstatus : t.regs.status ≠ 0#8) : t.outMem = [] := by
  obtain ⟨d, c, rfl⟩ | ⟨i, bytes, -, -, -, rfl⟩ := h
  · exact State.rejectStream_outMem _ c
  · exact absurd (status_afterSymbol_of_idle hp) hstatus

theorem outMem_execGroup_of_rejected {c b0 b1 b2 b3 : Byte} {s t : State} (h : execGroup c b0 b1 b2 b3 s = .next t)
    (hp : t.phase = .idle) : t.outMem = [] := by
  obtain rfl | ⟨d, rfl, -⟩ := execGroup_eq_next h
  · exact s.rejectStream_outMem _
  · cases hp

theorem symSel_isSome_of_refLength {i : Instr} (h : refLength i ≠ none) : (symSel i).isSome = true := by
  cases i with
  | ref | refx32 | refx48 | refx64 | refExt4 | refExt5to8 | refExt9to16 => rfl
  | _ => exact absurd rfl h

theorem outMem_stream_of_rejected {i : Instr} {s t : State}
    (hi : refLength i ≠ none ∨ (∃ nib, i = .lit nib) ∨ ∃ c b0 b1 b2 b3, i = .group c b0 b1 b2 b3)
    (h : exec i s = .next t) (hp : t.phase = .idle) (hstatus : t.regs.status ≠ 0#8) : t.outMem = [] := by
  obtain href | ⟨nib, rfl⟩ | ⟨c, b0, b1, b2, b3, rfl⟩ := hi
  · exact (symbolOutcome_exec (symSel_isSome_of_refLength href) h).outMem_of_rejected hp hstatus
  · exact (symbolOutcome_literalRun h).outMem_of_rejected hp hstatus
  · exact outMem_execGroup_of_rejected h hp

/-- A mid-stream rejection has a status of its own, which no refusal of a size writes (R160). -/
theorem statusByte_streamCodes {c : StatusCode} (h : c ∈ streamCodes) :
    statusByte c ≠ 2#8 ∧ statusByte c ≠ 3#8 := by
  simp only [streamCodes, List.mem_cons, List.not_mem_nil, or_false] at h
  obtain rfl | rfl | rfl | rfl := h <;> decide

theorem outKept_execDecode_of_size {s t : State} (h : execDecode s = .next t)
    (hstatus : t.regs.status = 2#8 ∨ t.regs.status = 3#8) : outKept s t := by
  obtain ⟨t', ht', hend⟩ := execDecode_ends s
  obtain rfl := Host.Outcome.next.inj (ht'.symm.trans h)
  obtain ⟨hkept, -⟩ | ⟨-, hok | ⟨-, c, hc, hcode⟩⟩ := hend
  · exact hkept
  · exact absurd hstatus (by rw [hok]; decide)
  · obtain ⟨h2, h3⟩ := statusByte_streamCodes hc
    exact absurd hstatus (by rw [hcode]; exact not_or.2 ⟨h2, h3⟩)

theorem outMem_execDecode_of_stream {s t : State} (h : execDecode s = .next t) (h0 : t.regs.status ≠ 0#8)
    (h2 : t.regs.status ≠ 2#8) (h3 : t.regs.status ≠ 3#8) : t.outMem = [] := by
  obtain ⟨t', ht', hend⟩ := execDecode_ends s
  obtain rfl := Host.Outcome.next.inj (ht'.symm.trans h)
  obtain ⟨-, hsize⟩ | ⟨-, hok | ⟨hnone, -⟩⟩ := hend
  · exact absurd hsize (not_or.2 ⟨h2, h3⟩)
  · exact absurd hok h0
  · exact hnone

/-- Settles O56, clause by clause: the instructions with no store to OUT; the rejected leaf commands and ENCODE; DECODE
refused for a size, and rejected in mid-stream; a group header or symbol rejected. -/
theorem outIsWrittenOnlyByItsWriters : Obligations.OutIsWrittenOnlyByItsWriters := by
  intro i s t h
  refine ⟨fun hi => outKept_exec hi h, fun hi hstatus => ?_, ?_, ?_, fun hi hp hstatus a => ?_⟩
  · by_cases hencode : i = .encode
    · subst hencode
      exact outKept_execEncode_of_rejected h hstatus
    · have hleaf : i ∈ leafCommands := by
        simp only [leafCommands, List.mem_cons, List.not_mem_nil, or_false] at hi ⊢
        tauto
      exact (leafOutcome_exec hleaf h).outKept_of_rejected hstatus
  · rintro rfl hstatus
    exact outKept_execDecode_of_size h hstatus
  · rintro rfl hstatus a
    have hnone : t.outMem = [] := by
      refine outMem_execDecode_of_stream h ?_ ?_ ?_ <;> intro he <;> rw [he] at hstatus <;> revert hstatus <;> decide
    rw [hnone]
    rfl
  · rw [outMem_stream_of_rejected hi h hp hstatus]
    rfl

end Sys2Proof.Machine

/-! SUPPORT. What a flush, an iteration of the scan and the tail answer: each completes where OUT has room for one more
group, and says what it emits and stores. -/

namespace Sys2Proof.Machine

/-! ### The bytes of a group, and bytes stored at the output cursor (R113) -/

/-- The number of payload bytes of a descriptor: its literal, or two offset bytes (R113). -/
def Desc.payloadSize (d : Desc) : Nat := if d.literal then d.length.toNat else 2

/-- The number of payload bytes of a list of descriptors. -/
def payloadTotal (ds : List Desc) : Nat := (ds.map Desc.payloadSize).sum

@[simp] theorem payloadTotal_nil : payloadTotal [] = 0 := rfl

@[simp] theorem payloadTotal_cons (d : Desc) (ds : List Desc) :
    payloadTotal (d :: ds) = d.payloadSize + payloadTotal ds := rfl

@[simp] theorem payloadTotal_append (ds es : List Desc) :
    payloadTotal (ds ++ es) = payloadTotal ds + payloadTotal es := by
  simp [payloadTotal]

theorem groupBytes_length (s : State) (ds : List Desc) : (groupBytes s ds).length = 5 + payloadTotal ds := by
  have hpayload : (ds.flatMap (payloadOf s)).length = payloadTotal ds := by
    induction ds with
    | nil => rfl
    | cons d ds ih =>
      rw [List.flatMap_cons, List.length_append, ih, payloadOf_length]
      rfl
  rw [groupBytes, List.length_append, packHeader_length, hpayload]

/-- From `s` to `t` the encoder has stored `bytes` at its output cursor, which moved past them. -/
def storesNext (s t : State) (bytes : List Byte) : Prop :=
  t.outMem = Memory.putRun s.outMem s.enc.o.toNat bytes ∧ t.outDraw = s.outDraw ∧
    t.enc.o.toNat = s.enc.o.toNat + bytes.length

theorem storesNext_nil {s t : State} (hm : t.outMem = s.outMem) (hd : t.outDraw = s.outDraw) (ho : t.enc.o = s.enc.o) :
    storesNext s t [] :=
  ⟨hm, hd, congrArg BitVec.toNat ho⟩

theorem storesNext.trans {s t u : State} {xs ys : List Byte} (h : storesNext s t xs) (h' : storesNext t u ys) :
    storesNext s u (xs ++ ys) := by
  obtain ⟨hm, hd, ho⟩ := h
  obtain ⟨hm', hd', ho'⟩ := h'
  exact ⟨by rw [hm', hm, ho, Memory.putRun_append], hd'.trans hd, by rw [ho', ho, List.length_append, Nat.add_assoc]⟩

/-- The other encoder registers are free. -/
theorem storesNext.withEnc {s t : State} {bytes : List Byte} {e : EncRegs} (h : storesNext s t bytes)
    (ho : e.o = t.enc.o) : storesNext s (t.withEnc e) bytes :=
  ⟨h.1, h.2.1, (congrArg BitVec.toNat ho).trans h.2.2⟩

theorem storesNext.of_withEnc {s t : State} {bytes : List Byte} {e : EncRegs} (h : storesNext (s.withEnc e) t bytes)
    (ho : e.o = s.enc.o) : storesNext s t bytes := by
  simpa only [storesNext, State.withEnc_outMem, State.withEnc_outDraw, State.withEnc_enc, ho] using h

theorem storesNext.outAt {s t : State} {bytes : List Byte} (h : storesNext s t bytes) (x : Nat) :
    t.outAt x = (s.putOut s.enc.o.toNat bytes).outAt x := by
  obtain ⟨hm, hd, -⟩ := h
  unfold State.outAt
  rw [hm, hd]
  rfl

theorem storesNext.storedAt {s t : State} {bytes : List Byte} (h : storesNext s t bytes) :
    storedAt s t s.enc.o.toNat bytes :=
  ⟨h.2.1, fun _ hk => (h.outAt _).trans (State.outAt_putOut_inside s hk),
    fun x hx => (h.outAt x).trans (State.outAt_putOut_outside s hx)⟩

/-- Below the cursor OUT reads as before. -/
theorem storesNext.outAt_below {s t : State} {bytes : List Byte} (h : storesNext s t bytes) {x : Nat}
    (hx : x < s.enc.o.toNat) : t.outAt x = s.outAt x :=
  (h.outAt x).trans (State.outAt_putOut_outside s (.inl hx))

/-- The bytes below the cursor stay specified, those it moved past among them. -/
theorem storesNext.isSome_below {s t : State} {bytes : List Byte} (h : storesNext s t bytes)
    (hs : ∀ a < s.enc.o.toNat, (Memory.get? s.outMem a).isSome = true) :
    ∀ a < t.enc.o.toNat, (Memory.get? t.outMem a).isSome = true := by
  obtain ⟨hm, -, ho⟩ := h
  intro a ha
  rw [hm]
  obtain hold | hnew := Nat.lt_or_ge a s.enc.o.toNat
  · exact Memory.isSome_get?_putRun (.inr (hs a hold))
  · exact Memory.isSome_get?_putRun (.inl ⟨hnew, ho ▸ ha⟩)

/-! ### The flush (R112, R113) -/

theorem flushGroup_stores {s t : State} {ds : List Desc} (h : flushGroup s ds = .next t) :
    storesNext s t (groupBytes s ds) := by
  obtain ⟨-, hroom, hr⟩ | ⟨-, -, hr⟩ | ⟨-, hr⟩ := flushGroup_cases s ds <;> rw [hr] at h
  · obtain rfl := Host.Outcome.next.inj h
    exact ⟨rfl, rfl, word_toNat (hroom.trans_lt s.outputSize_lt)⟩
  · cases h
  · cases h

/-- A group of at most eight packable symbols is flushed where OUT has room for the greatest group, of 133 bytes. -/
theorem flushGroup_completes {s : State} {ds : List Desc} (hpack : ds.all (Desc.packable s.extOn) = true)
    (hlen : ds.length ≤ 8) (hroom : s.enc.o.toNat + 133 ≤ s.outputSize) : Completes (flushGroup s ds) := by
  have hbytes := groupBytes_length_le (s := s) hpack
  obtain ⟨-, -, hr⟩ | ⟨-, hfull, -⟩ | ⟨hbad, -⟩ := flushGroup_cases s ds
  · exact ⟨_, hr⟩
  · omega
  · rw [hpack] at hbad
    cases hbad

theorem flushFull_of_lt {s : State} (h : s.enc.gn.val < 8) : flushFull s = .next s :=
  if_neg (Nat.not_le_of_lt h)

theorem all_of_subset {ds es : List Desc} {p : Desc → Bool} (h : ds.all p = true) (hsub : es ⊆ ds) : es.all p = true :=
  List.all_eq_true.2 fun d hd => List.all_eq_true.1 h d (hsub hd)

/-- With eight symbols held or more the first eight are written and the rest is held. -/
theorem flushFull_of_ge {s : State} (h : 8 ≤ s.enc.gn.val) (hpack : s.enc.held.all (Desc.packable s.extOn) = true)
    (hroom : s.enc.o.toNat + 133 ≤ s.outputSize) :
    ∃ t, flushFull s = .next t ∧ storesNext s t (groupBytes s (s.enc.held.take 8)) ∧
      t.enc.held = s.enc.held.drop 8 ∧ t.enc.gn.val = s.enc.gn.val - 8 := by
  obtain ⟨u, hu⟩ := flushGroup_completes (ds := s.enc.held.take 8) (all_of_subset hpack (List.take_subset _ _)) (by simp) hroom
  have hstores := flushGroup_stores hu
  have hframe := flushGroup_frame hu
  have hgn : u.enc.gn = s.enc.gn := by rw [hframe]
  have hheld : u.enc.held = s.enc.held := by rw [hframe]; rfl
  refine ⟨u.withEnc u.enc.dropGroup, ?_, hstores.withEnc rfl, ?_, ?_⟩
  · have hfull : groupSyms ≤ s.enc.gn.val := h
    rw [flushFull, if_pos hfull]
    change andThen (flushGroup s (s.enc.held.take 8)) _ = _
    rw [hu, andThen_next]
  · rw [← hheld]
    exact EncRegs.held_dropGroup _ (hgn ▸ h)
  · rw [← hgn]
    rfl

/-- The flush of a full group completes, and emits nothing of its own. -/
theorem flushFull_emits {s : State} (hpack : s.enc.held.all (Desc.packable s.extOn) = true)
    (hroom : s.enc.o.toNat + 133 ≤ s.outputSize) : ∃ t, flushFull s = .next t ∧ emits s t [] := by
  simp only [emits, List.append_nil, EncRegs.held_length]
  obtain hlt | hge := Nat.lt_or_ge s.enc.gn.val 8
  · exact ⟨s, flushFull_of_lt hlt, fun _ => ⟨rfl, rfl, rfl, rfl⟩, fun hge => absurd hge (by omega)⟩
  · obtain ⟨t, ht, hstores, hheld, -⟩ := flushFull_of_ge hge hpack hroom
    exact ⟨t, ht, fun hlt => absurd hlt (by omega), fun _ => ⟨hheld, hstores.2.2, hstores.storedAt⟩⟩

theorem flushFull_stores {s t : State} (h : flushFull s = .next t) : ∃ bytes, storesNext s t bytes := by
  obtain ⟨-, rfl⟩ | ⟨-, u, hu, rfl⟩ := flushFull_cases h
  · exact ⟨[], storesNext_nil rfl rfl rfl⟩
  · exact ⟨_, (flushGroup_stores hu).withEnc rfl⟩

/-- Symbols pushed to the group buffer and the flush after them: the symbols are emitted. -/
theorem emits_of_pushed {s r t : State} {c : Ctx} {e : EncRegs} {ds : List Desc} (hr : r = (s.withCtx c).withEnc e)
    (hheld : e.held = s.enc.held ++ ds) (ho : e.o = s.enc.o) (h : emits r t []) : emits s t ds := by
  subst hr
  simp only [emits, List.append_nil, State.withEnc_enc, hheld, ho] at h ⊢
  exact h

/-! ### Acceptance (R109) and the registers of one iteration (R110, R111) -/

theorem positionAnchor_eq (e : EncRegs) :
    positionAnchor e = if (e.n.toNat + if e.lit.toNat < e.i.toNat then 1 else 0) % 2 = 0 then e.i
      else if e.lit.toNat < e.i.toNat then e.lit else e.pa := by
  simp only [positionAnchor, nextIndex, pendingLiteral, Nat.sub_pos_iff_lt]

/-- A length that a back-reference symbol can have (R54, R85). -/
def encodable (ext : Bool) (len : Nat) : Prop := 4 ≤ len ∧ (len ≤ 16 ∨ ext = true ∧ (len = 32 ∨ len = 48 ∨ len = 64))

/-- An accepted candidate has a length with an encoding and ends inside the block (R109, R116). -/
theorem encodable_of_accepted {b : Build} {m : Memory} {c : Ctx} {i a size len pos : Nat} {ext : Bool}
    (h : acceptCandidate (probeIndex b m c i a size ext).1 a = some (len, pos)) :
    encodable ext len ∧ i + len ≤ size := by
  obtain ⟨hprobe, -⟩ := acceptCandidate_eq_some.1 h
  obtain ⟨h4, hml⟩ := probeIndex_eq_some hprobe
  obtain ⟨-, -, -, hend, -, hlen⟩ := matchLen_run (hml ▸ h4)
  rw [← hml] at hend hlen
  exact ⟨⟨h4, hlen⟩, hend⟩

/-- The back-reference symbol of an accepted candidate (R111). -/
def refDesc (len pos : Nat) (a : Word) : Desc := ⟨false, BitVec.ofNat 8 len, word pos, a⟩

/-- The literal symbol of the first `n` pending bytes: its anchor is that of its pair (R110, R112). -/
def literalDesc (e : EncRegs) (n : Nat) : Desc :=
  ⟨true, BitVec.ofNat 8 n, e.lit, if e.n.toNat % 2 = 0 then e.lit else e.pa⟩

theorem packable_refDesc {ext : Bool} {len : Nat} (pos : Nat) (a : Word) (h : encodable ext len) :
    (refDesc len pos a).packable ext = true := by
  obtain ⟨h4, hlen⟩ := h
  have hval : (BitVec.ofNat 8 len).toNat = len := by rw [BitVec.toNat_ofNat]; omega
  simp only [refDesc, Desc.packable, nibbleOf, hval, Bool.false_eq_true, if_false]
  obtain hshort | ⟨rfl, hwide⟩ := hlen
  · rw [if_neg (by omega), if_pos ⟨h4, hshort⟩]
    rfl
  · rw [if_pos hwide]
    rfl

theorem literalDesc_length (e : EncRegs) {n : Nat} (h : n ≤ 16) : (literalDesc e n).length.toNat = n := by
  rw [literalDesc, BitVec.toNat_ofNat]
  omega

theorem packable_literalDesc (e : EncRegs) {n : Nat} (ext : Bool) (h1 : 1 ≤ n) (h16 : n ≤ 16) :
    (literalDesc e n).packable ext = true := by
  rw [Desc.packable, literalDesc_length e h16]
  simp [literalDesc, nibbleOf, h1, h16]

@[simp] theorem payloadSize_refDesc (len pos : Nat) (a : Word) : (refDesc len pos a).payloadSize = 2 := rfl

theorem payloadSize_literalDesc (e : EncRegs) {n : Nat} (h : n ≤ 16) : (literalDesc e n).payloadSize = n :=
  literalDesc_length e h

theorem held_emitLiteral {e : EncRegs} (n : Nat) (h : e.gn.val < 9) :
    (emitLiteral e n).held = e.held ++ [literalDesc e n] :=
  emit_held _ _ _ h

/-- A match with bytes pending: the literal, then the back-reference (R111). -/
theorem addMatch_of_pending {e : EncRegs} {a : Word} {len pos : Nat} (hp : 0 < pendingLiteral e) (hg : e.gn.val ≤ 7) :
    (addMatch e a len pos).held = e.held ++ [literalDesc e (pendingLiteral e), refDesc len pos a] ∧
      (addMatch e a len pos).n = e.n + 2#32 ∧
      (addMatch e a len pos).pa = if e.n.toNat % 2 = 0 then e.lit else e.i := by
  have hgn : (emitLiteral e (pendingLiteral e)).gn.val = e.gn.val + 1 := emit_gn _ _ _ (by omega)
  have hn : (emitLiteral e (pendingLiteral e)).n = e.n + 1#32 := emit_n _ _ _
  have hpa : (emitLiteral e (pendingLiteral e)).pa = if e.n.toNat % 2 = 0 then e.lit else e.pa := emit_pa _ _ _
  have hparity : (e.n + 1#32).toNat % 2 = 0 ↔ ¬ e.n.toNat % 2 = 0 := by
    rw [BitVec.toNat_add, BitVec.toNat_ofNat]
    omega
  simp only [addMatch, if_pos hp]
  refine ⟨?_, ?_, ?_⟩
  · change (emit _ (refDesc len pos a) _).held = _
    rw [emit_held _ _ _ (by omega), held_emitLiteral _ (by omega), List.append_assoc]
    rfl
  · rw [emit_n, hn, BitVec.add_assoc]
    rfl
  · rw [emit_pa, hn, hpa]
    by_cases heven : e.n.toNat % 2 = 0
    · rw [if_neg (fun hodd => hparity.1 hodd heven), if_pos heven, if_pos heven]
    · rw [if_pos (hparity.2 heven), if_neg heven]

/-- A match with nothing pending: the back-reference alone (R111). -/
theorem addMatch_of_none_pending {e : EncRegs} {a : Word} {len pos : Nat} (hp : pendingLiteral e = 0)
    (hg : e.gn.val ≤ 7) :
    (addMatch e a len pos).held = e.held ++ [refDesc len pos a] ∧ (addMatch e a len pos).n = e.n + 1#32 ∧
      (addMatch e a len pos).pa = if e.n.toNat % 2 = 0 then e.i else e.pa := by
  simp only [addMatch, hp, lt_irrefl, if_false]
  exact ⟨emit_held _ _ _ (by omega), emit_n _ _ _, emit_pa _ _ _⟩

/-- A byte that joins the run and leaves it below 16 (R110). -/
theorem addLiteralByte_of_lt {e : EncRegs} (hle : e.lit.toNat ≤ e.i.toNat) (hi : e.i.toNat + 1 < 2 ^ 32)
    (hrun : e.i.toNat + 1 < e.lit.toNat + 16) : addLiteralByte e = { e with i := word (e.i.toNat + 1) } := by
  have hval := word_toNat hi
  refine if_neg ?_
  change (word (e.i.toNat + 1)).toNat - e.lit.toNat ≠ 16
  omega

/-- A byte that fills the run: a literal of 16 (R110). -/
theorem addLiteralByte_of_full {e : EncRegs} (hi : e.i.toNat + 1 < 2 ^ 32)
    (hrun : e.i.toNat + 1 = e.lit.toNat + 16) (hg : e.gn.val ≤ 7) :
    (addLiteralByte e).held = e.held ++ [literalDesc e 16] ∧ (addLiteralByte e).lit = (addLiteralByte e).i ∧
      (addLiteralByte e).n = e.n + 1#32 ∧ (addLiteralByte e).pa = if e.n.toNat % 2 = 0 then e.lit else e.pa := by
  have hval := word_toNat hi
  have hfull : pendingLiteral { e with i := word (e.i.toNat + 1) } = maxLit := by
    change (word (e.i.toNat + 1)).toNat - e.lit.toNat = 16
    omega
  simp only [addLiteralByte, if_pos hfull]
  exact ⟨emit_held _ _ _ (Nat.lt_of_le_of_lt hg (by decide)), rfl, emit_n _ _ _, emit_pa _ _ _⟩

end Sys2Proof.Machine

/-! SUPPORT. The invariant of the scan, which bounds its output (R117 (c)), and with it ENCODE's completion. -/

namespace Sys2Proof.Machine

/-! ### What one iteration emits (R110, R111) -/

/-- The encoder registers before an iteration and before the tail: a run of fewer than 16 bytes pends, and the group
buffer holds at most seven packable symbols (R112; log 12). -/
def scanReady (ext : Bool) (e : EncRegs) : Prop :=
  e.lit.toNat ≤ e.i.toNat ∧ e.i.toNat < e.lit.toNat + 16 ∧ e.gn.val ≤ 7 ∧ e.held.all (Desc.packable ext) = true

/-- The symbols an iteration emits, given the accepted candidate (R110, R111). -/
def scanEmitted (e : EncRegs) (accepted : ProbeResult) (a : Word) : List Desc :=
  match accepted with
  | some (len, pos) =>
    (if 0 < pendingLiteral e then [literalDesc e (pendingLiteral e)] else []) ++ [refDesc len pos a]
  | none => if e.i.toNat + 1 = e.lit.toNat + 16 then [literalDesc e 16] else []

/-- What emitting `ds` takes from registers `e` to registers `r`: the symbols are held and packable, the cursors go on
with fewer than 16 bytes pending, and the bytes the symbols cost are paid by the input bytes they stand for: 133 bytes
out for 128 in (R117 (c)). -/
structure scanAdvance (ext : Bool) (size : Nat) (e r : EncRegs) (ds : List Desc) : Prop where
  held : r.held = e.held ++ ds
  packable : ds.all (Desc.packable ext) = true
  length : ds.length ≤ 2
  output : r.o = e.o
  cursor : e.i.toNat < r.i.toNat ∧ r.i.toNat ≤ size
  pending : r.lit.toNat ≤ r.i.toNat ∧ r.i.toNat < r.lit.toNat + 16
  cost : 128 * payloadTotal ds + 80 * ds.length + 133 * e.lit.toNat ≤ 133 * r.lit.toNat

theorem scanAdvance_addMatch {ext : Bool} {size len pos : Nat} {e : EncRegs} {a : Word} (h : scanReady ext e)
    (hlen : encodable ext len) (hend : e.i.toNat + len ≤ size) (hsize : size < 2 ^ 32) :
    scanAdvance ext size e (addMatch e a len pos) (scanEmitted e (some (len, pos)) a) := by
  obtain ⟨hle, hrun, hg, -⟩ := h
  have hi : (addMatch e a len pos).i.toNat = e.i.toNat + len := word_toNat (hend.trans_lt hsize)
  have hlit : (addMatch e a len pos).lit.toNat = e.i.toNat + len := word_toNat (hend.trans_lt hsize)
  have ho : (addMatch e a len pos).o = e.o := scanRegs_o e (some (len, pos)) a
  have hpack := packable_refDesc pos a hlen
  have hpend : pendingLiteral e = e.i.toNat - e.lit.toNat := rfl
  have hcursor : e.i.toNat < e.i.toNat + len := Nat.lt_add_of_pos_right (Nat.lt_of_lt_of_le (by decide) hlen.1)
  have h4 : 4 ≤ len := hlen.1
  obtain hp | hp := Nat.eq_zero_or_pos (pendingLiteral e)
  · have hemitted : scanEmitted e (some (len, pos)) a = [refDesc len pos a] := by simp [scanEmitted, hp]
    rw [hemitted]
    refine ⟨(addMatch_of_none_pending hp hg).1, by simp [hpack], by simp, ho, hi ▸ ⟨hcursor, hend⟩, ?_, ?_⟩ <;>
      rw [hlit]
    · omega
    · simp only [payloadTotal_cons, payloadTotal_nil, payloadSize_refDesc, List.length_cons, List.length_nil]
      omega
  · have hemitted : scanEmitted e (some (len, pos)) a = [literalDesc e (pendingLiteral e), refDesc len pos a] := by
      simp [scanEmitted, hp]
    have h16 : pendingLiteral e ≤ 16 := by omega
    rw [hemitted]
    refine ⟨(addMatch_of_pending hp hg).1, by simp [hpack, packable_literalDesc e ext hp h16], by simp, ho,
      hi ▸ ⟨hcursor, hend⟩, ?_, ?_⟩ <;> rw [hlit]
    · omega
    · simp only [payloadTotal_cons, payloadTotal_nil, payloadSize_refDesc, payloadSize_literalDesc e h16,
        List.length_cons, List.length_nil]
      omega

theorem scanAdvance_addLiteralByte {ext : Bool} {size : Nat} {e : EncRegs} (a : Word) (h : scanReady ext e)
    (hi : e.i.toNat < size) (hsize : size < 2 ^ 32) :
    scanAdvance ext size e (addLiteralByte e) (scanEmitted e none a) := by
  obtain ⟨hle, hrun, hg, -⟩ := h
  have hival : (addLiteralByte e).i.toNat = e.i.toNat + 1 :=
    (congrArg BitVec.toNat (scanRegs_i e none a)).trans (word_toNat (Nat.lt_of_le_of_lt hi hsize))
  have ho : (addLiteralByte e).o = e.o := scanRegs_o e none a
  obtain hshort | hfull := Nat.lt_or_eq_of_le (show e.i.toNat + 1 ≤ e.lit.toNat + 16 from hrun)
  · have hregs := addLiteralByte_of_lt hle (Nat.lt_of_le_of_lt hi hsize) hshort
    have hlit : (addLiteralByte e).lit = e.lit := by rw [hregs]
    have hheld : (addLiteralByte e).held = e.held := by rw [hregs]; rfl
    rw [scanEmitted, if_neg hshort.ne]
    refine ⟨by rw [hheld, List.append_nil], rfl, by simp, ho, ?_, ?_, ?_⟩ <;> simp only [hival, hlit]
    · omega
    · omega
    · simp
  · obtain ⟨hheld, hlit, -, -⟩ := addLiteralByte_of_full (Nat.lt_of_le_of_lt hi hsize) hfull hg
    rw [scanEmitted, if_pos hfull]
    refine ⟨hheld, by simp [packable_literalDesc], by simp, ho, ?_, ?_, ?_⟩ <;> simp only [hlit, hival]
    · omega
    · omega
    · simp only [payloadTotal_cons, payloadTotal_nil, payloadSize_literalDesc e (le_refl 16), List.length_cons,
        List.length_nil]
      omega

theorem scanAdvance_scanRegs {ext : Bool} {size : Nat} {e : EncRegs} {accepted : ProbeResult} {a : Word}
    (h : scanReady ext e) (hi : e.i.toNat < size) (hsize : size < 2 ^ 32)
    (haccepted : ∀ len pos, accepted = some (len, pos) → encodable ext len ∧ e.i.toNat + len ≤ size) :
    scanAdvance ext size e (scanRegs e accepted a) (scanEmitted e accepted a) := by
  rcases accepted with - | ⟨len, pos⟩
  · exact scanAdvance_addLiteralByte a h hi hsize
  · obtain ⟨hlen, hend⟩ := haccepted len pos rfl
    exact scanAdvance_addMatch h hlen hend hsize

/-- One iteration completes: it probes, emits what its accepted candidate asks for, and leaves the rest alone. -/
theorem scanStep_emits {s : State} {size : Nat} {a : Word} {r accepted : ProbeResult} {c : Ctx}
    (h : scanReady s.extOn s.enc) (hi : s.enc.i.toNat < size) (hsize : size ≤ s.blockSize)
    (hroom : s.enc.o.toNat + 133 ≤ s.outputSize) (ha : a = positionAnchor s.enc)
    (hprobe : probeIndex s.build s.inMem s.ctx s.enc.i.toNat a.toNat size s.extOn = (r, c))
    (haccepted : accepted = acceptCandidate r a.toNat) :
    ∃ t, scanStep size s = .next t ∧ t.ctx = c ∧ scanKept s t ∧ emits s t (scanEmitted s.enc accepted a) ∧
      scanAdvance s.extOn size s.enc (scanRegs s.enc accepted a) (scanEmitted s.enc accepted a) ∧
      t.enc.i = (scanRegs s.enc accepted a).i ∧ t.enc.lit = (scanRegs s.enc accepted a).lit ∧
      t.enc.n = (scanRegs s.enc accepted a).n ∧ t.enc.pa = (scanRegs s.enc accepted a).pa := by
  have hadvance : scanAdvance s.extOn size s.enc (scanRegs s.enc accepted a) (scanEmitted s.enc accepted a) :=
    scanAdvance_scanRegs h hi ((hsize.trans_lt s.blockSize_lt).trans (by decide)) fun len pos hsome =>
      encodable_of_accepted (by rw [hprobe, ← haccepted, hsome])
  have hstep : scanStep size s = flushFull ((s.withCtx c).withEnc (scanRegs s.enc accepted a)) := by
    subst ha haccepted
    simp only [scanStep, hprobe]
  have hpack : (scanRegs s.enc accepted a).held.all (Desc.packable s.extOn) = true := by
    obtain ⟨-, -, -, hheld⟩ := h
    rw [hadvance.held, List.all_append, hheld, hadvance.packable]
    rfl
  obtain ⟨t, ht, hemits⟩ := flushFull_emits (s := (s.withCtx c).withEnc (scanRegs s.enc accepted a)) hpack
    (by rw [State.withEnc_enc, hadvance.output]; exact hroom)
  have hframe := flushFull_frame ht
  refine ⟨t, hstep.trans ht, by rw [hframe]; rfl, ?_, emits_of_pushed rfl hadvance.held hadvance.output hemits,
    hadvance, ?_⟩ <;> rw [hframe]
  · exact ⟨rfl, rfl, rfl, rfl, rfl⟩
  · exact ⟨rfl, rfl, rfl, rfl⟩

/-! ### The invariant of the scan (R117 (c), R119) -/

/-- 128 times the bytes written and held, each group header of 5 bytes shared out over its eight symbols. -/
def scanBudget (s : State) : Nat := 128 * (s.enc.o.toNat + payloadTotal s.enc.held) + 80 * s.enc.held.length

/-- What every iteration keeps: at most 133 bytes out for 128 bytes in, after the three bytes of the block header. -/
def scanInv (size : Nat) (s : State) : Prop :=
  scanReady s.extOn s.enc ∧ s.enc.i.toNat ≤ size ∧ size ≤ s.blockSize ∧ scanBudget s ≤ 384 + 133 * s.enc.lit.toNat

/-- A flush costs nothing: its header is paid by the eight symbols it drops. -/
theorem emits_budget {s t : State} {ds : List Desc} (h : emits s t ds) :
    scanBudget t = scanBudget s + 128 * payloadTotal ds + 80 * ds.length := by
  obtain ⟨hheld, hflushed⟩ := h
  unfold scanBudget
  obtain hlt | hge := Nat.lt_or_ge (s.enc.held ++ ds).length 8
  · obtain ⟨hheld, ho, -⟩ := hheld hlt
    rw [hheld, ho, payloadTotal_append, List.length_append]
    omega
  · obtain ⟨hheld, ho, -⟩ := hflushed hge
    have htotal : payloadTotal ((s.enc.held ++ ds).take 8) + payloadTotal ((s.enc.held ++ ds).drop 8) =
        payloadTotal s.enc.held + payloadTotal ds := by
      rw [← payloadTotal_append, List.take_append_drop, payloadTotal_append]
    rw [groupBytes_length] at ho
    rw [hheld, ho, List.length_drop]
    rw [List.length_append] at hge ⊢
    omega

/-- Of at most nine packable symbols at most seven are left held. -/
theorem emits_held {s t : State} {ds : List Desc} {p : Desc → Bool} (h : emits s t ds)
    (hall : (s.enc.held ++ ds).all p = true) (hlen : (s.enc.held ++ ds).length ≤ 9) :
    t.enc.gn.val ≤ 7 ∧ t.enc.held.all p = true := by
  obtain ⟨hheld, hflushed⟩ := h
  rw [← EncRegs.held_length]
  obtain hlt | hge := Nat.lt_or_ge (s.enc.held ++ ds).length 8
  · obtain ⟨hheld, -⟩ := hheld hlt
    rw [hheld]
    exact ⟨by omega, hall⟩
  · obtain ⟨hheld, -⟩ := hflushed hge
    rw [hheld, List.length_drop]
    exact ⟨by omega, all_of_subset hall (List.drop_subset _ _)⟩

/-- OUT is a quarter larger than a block: room for 133 bytes out per 128 in, and one group to spare (R5, R117 (c)). -/
theorem State.outputSize_room (s : State) {n : Nat} (h : n ≤ s.blockSize) :
    384 + 133 * n + 128 * 133 ≤ 128 * s.outputSize := by
  unfold State.blockSize Machine.blockSize blockBits at h
  unfold State.outputSize Machine.outputSize Machine.blockSize blockBits
  cases hg : s.build.geometry <;> simp only [hg] at h ⊢ <;> omega

theorem room_of_scanInv {size : Nat} {s : State} (h : scanInv size s) : s.enc.o.toNat + 133 ≤ s.outputSize := by
  obtain ⟨⟨hle, -⟩, hi, hsize, hbudget⟩ := h
  have hroom := s.outputSize_room hsize
  unfold scanBudget at hbudget
  omega

theorem scanInv_scanStep {size : Nat} {s : State} (h : scanInv size s) (hi : s.enc.i.toNat < size) :
    ∃ t, scanStep size s = .next t ∧ scanInv size t ∧ s.enc.i.toNat < t.enc.i.toNat := by
  have hroom := room_of_scanInv h
  obtain ⟨hready, -, hsize, hbudget⟩ := h
  rcases hprobe : probeIndex s.build s.inMem s.ctx s.enc.i.toNat (positionAnchor s.enc).toNat size s.extOn with ⟨r, c⟩
  obtain ⟨t, ht, -, ⟨hbuild, -, hregs, -, -⟩, hemits, hadvance, hregi, hreglit, -⟩ :=
    scanStep_emits hready hi hsize hroom rfl hprobe rfl
  generalize acceptCandidate r (positionAnchor s.enc).toNat = accepted at hemits hadvance hregi hreglit
  obtain ⟨-, -, hg, hpack⟩ := hready
  have hext : t.extOn = s.extOn := by rw [State.extOn, hregs, State.extOn]
  have hblock : t.blockSize = s.blockSize := by rw [State.blockSize, hbuild, State.blockSize]
  obtain ⟨hlt, hle⟩ := hadvance.cursor
  have hcost := hadvance.cost
  have hlen := hadvance.length
  obtain ⟨hgn, hheld⟩ := emits_held hemits (List.all_append.trans (by rw [hpack, hadvance.packable]; rfl))
    (by rw [List.length_append, EncRegs.held_length]; omega)
  refine ⟨t, ht, ⟨⟨?_, ?_, hgn, hext ▸ hheld⟩, ?_, hblock ▸ hsize, ?_⟩, ?_⟩
  · rw [hregi, hreglit]
    exact hadvance.pending.1
  · rw [hregi, hreglit]
    exact hadvance.pending.2
  · rw [hregi]
    exact hle
  · rw [emits_budget hemits, hreglit]
    omega
  · rw [hregi]
    exact hlt

/-! ### The loop (R107) -/

/-- A run of states with one more in front. -/
def prependState (s : State) (u : Nat → State) : Nat → State
  | 0 => s
  | j + 1 => u j

/-- An iteration that always completes and moves the cursor on: the loop runs through its states until the cursor
reaches the end, within the fuel. -/
theorem scanLoop_trace {P : State → Prop} {size : Nat}
    (hstep : ∀ s, P s → s.enc.i.toNat < size → ∃ t, scanStep size s = .next t ∧ P t ∧ s.enc.i.toNat < t.enc.i.toNat)
    {n : Nat} {s : State} (hs : P s) (hn : size ≤ n + s.enc.i.toNat) :
    ∃ (k : Nat) (u : Nat → State), u 0 = s ∧
      (∀ j < k, (u j).enc.i.toNat < size ∧ scanStep size (u j) = .next (u (j + 1))) ∧
      P (u k) ∧ size ≤ (u k).enc.i.toNat ∧ scanLoop n size s = .next (u k) := by
  induction n generalizing s with
  | zero =>
    exact ⟨0, fun _ => s, rfl, fun _ hj => absurd hj (Nat.not_lt_zero _), hs, hn.trans_eq (Nat.zero_add _), rfl⟩
  | succ n ih =>
    by_cases hi : s.enc.i.toNat < size
    · obtain ⟨t, ht, hPt, hmoved⟩ := hstep s hs hi
      obtain ⟨k, u, hu0, hu, hPk, hk, hloop⟩ := ih hPt (by omega)
      refine ⟨k + 1, prependState s u, rfl, fun j hj => ?_, hPk, hk, ?_⟩
      · cases j with
        | zero => exact ⟨hi, ht.trans (congrArg _ hu0.symm)⟩
        | succ j => exact hu j (Nat.lt_of_succ_lt_succ hj)
      · rw [scanLoop, if_pos hi, ht, andThen_next]
        exact hloop
    · exact ⟨0, fun _ => s, rfl, fun _ hj => absurd hj (Nat.not_lt_zero _), hs, Nat.le_of_not_lt hi,
        by rw [scanLoop, if_neg hi]⟩

/-! ### The tail (R114) -/

/-- The trailing literal as a symbol, if bytes pend (R114). -/
def trailingDescs (e : EncRegs) : List Desc :=
  if e.lit.toNat < e.i.toNat then [literalDesc e (e.i.toNat - e.lit.toNat)] else []

/-- The bytes of the last group, if symbols are left. -/
def lastGroup (s : State) (ds : List Desc) : List Byte := if ds = [] then [] else groupBytes s ds

/-- The trailing literal joins the symbols held, and nothing but the encoder registers changes (R114). -/
theorem emitTrailing_eq {s : State} (hg : s.enc.gn.val ≤ 7) :
    ∃ e, emitTrailing s = s.withEnc e ∧ e.held = s.enc.held ++ trailingDescs s.enc ∧ e.o = s.enc.o := by
  refine ⟨(emitTrailing s).enc, emitTrailing_frame s, ?_, emitTrailing_o s⟩
  unfold emitTrailing trailingDescs
  simp only [pendingLiteral, Nat.sub_pos_iff_lt]
  split
  · exact held_emitLiteral _ (by omega)
  · exact (List.append_nil _).symm

theorem packable_trailing {ext : Bool} {e : EncRegs} (h : scanReady ext e) :
    (e.held ++ trailingDescs e).all (Desc.packable ext) = true := by
  obtain ⟨-, hrun, -, hpack⟩ := h
  unfold trailingDescs
  split
  · rw [List.all_append, hpack, List.all_cons, packable_literalDesc e ext (by omega) (by omega)]
    rfl
  · rw [List.append_nil, hpack]

theorem trailing_length {ext : Bool} {e : EncRegs} (h : scanReady ext e) : (e.held ++ trailingDescs e).length ≤ 8 := by
  obtain ⟨-, -, hg, -⟩ := h
  rw [List.length_append, EncRegs.held_length]
  unfold trailingDescs
  split <;> simp <;> omega

/-- The partial final group completes, and leaves the group buffer empty (R114). -/
theorem flushRest_completes {s : State} (hpack : s.enc.held.all (Desc.packable s.extOn) = true)
    (hlen : s.enc.held.length ≤ 8) (hroom : s.enc.o.toNat + 133 ≤ s.outputSize) :
    ∃ t, flushRest s = .next t ∧ t.enc.gn = 0 ∧ storesNext s t (lastGroup s s.enc.held) := by
  have hempty : s.enc.held = [] ↔ s.enc.gn = 0 := by
    rw [← List.length_eq_zero_iff, EncRegs.held_length, Fin.ext_iff]
    rfl
  unfold flushRest lastGroup
  simp only [hempty]
  split
  · exact ⟨s, rfl, ‹_›, storesNext_nil rfl rfl rfl⟩
  · obtain ⟨u, hu⟩ := flushGroup_completes hpack hlen hroom
    exact ⟨u.withEnc { u.enc with gn := 0 }, by rw [hu, andThen_next], rfl, (flushGroup_stores hu).withEnc rfl⟩

/-- The tail touches OUT and the encoder registers alone. -/
theorem encodeTail_frame {s t : State} (h : encodeTail s = .next t) :
    t = { s with outMem := t.outMem, enc := t.enc } := by
  obtain ⟨u, hu, ht⟩ := andThen_eq_next.1 h
  have hfull := flushFull_frame hu
  rw [emitTrailing_frame] at hfull
  obtain rfl | ⟨v, hv, rfl⟩ := flushRest_cases ht
  · rw [hfull]
    rfl
  · rw [flushGroup_frame hv, hfull]
    rfl

/-- The tail completes: the trailing literal joins the symbols held, and all of them are the last group (R114). -/
theorem encodeTail_completes {s : State} (h : scanReady s.extOn s.enc) (hroom : s.enc.o.toNat + 133 ≤ s.outputSize) :
    ∃ t, encodeTail s = .next t ∧ t.enc.gn = 0 ∧ storesNext s t (lastGroup s (s.enc.held ++ trailingDescs s.enc)) := by
  have hpack := packable_trailing h
  have hlen := trailing_length h
  obtain ⟨-, -, hg, -⟩ := h
  obtain ⟨e, he, hheld, ho⟩ := emitTrailing_eq hg
  rw [← hheld] at hpack hlen ⊢
  have hroom' : (s.withEnc e).enc.o.toNat + 133 ≤ (s.withEnc e).outputSize := by
    rw [State.withEnc_enc, ho]
    exact hroom
  have htail : encodeTail s = andThen (flushFull (s.withEnc e)) flushRest := by rw [encodeTail, he]
  rw [htail]
  obtain hlt | hge := Nat.lt_or_ge e.gn.val 8
  · obtain ⟨t, ht, hgn, hstores⟩ := flushRest_completes (s := s.withEnc e) hpack hlen hroom'
    exact ⟨t, by rw [flushFull_of_lt (s := s.withEnc e) hlt, andThen_next, ht], hgn, hstores.of_withEnc ho⟩
  · obtain ⟨t, ht, hstores, -, hgn⟩ := flushFull_of_ge (s := s.withEnc e) hge hpack hroom'
    rw [EncRegs.held_length] at hlen
    have hzero : t.enc.gn = 0 := Fin.ext (hgn.trans (Nat.sub_eq_zero_of_le hlen))
    have hne : e.held ≠ [] := fun hnil => by
      rw [← EncRegs.held_length, hnil] at hge
      exact absurd hge (by decide)
    rw [State.withEnc_enc, List.take_of_length_le (by rw [EncRegs.held_length]; exact hlen)] at hstores
    refine ⟨t, by rw [ht, andThen_next, flushRest, if_pos hzero], hzero, ?_⟩
    rw [lastGroup, if_neg hne]
    exact hstores.of_withEnc ho

/-- The last group costs its header, and each trailing byte one byte (R117 (c)). -/
theorem lastGroup_budget {s : State} (h : scanReady s.extOn s.enc) :
    128 * (s.enc.o.toNat + (lastGroup s (s.enc.held ++ trailingDescs s.enc)).length) ≤
      scanBudget s + 128 * (s.enc.i.toNat - s.enc.lit.toNat) + 640 := by
  obtain ⟨hle, hrun, -, -⟩ := h
  have htrailing : payloadTotal (trailingDescs s.enc) = s.enc.i.toNat - s.enc.lit.toNat := by
    unfold trailingDescs
    split
    · rw [payloadTotal_cons, payloadTotal_nil, payloadSize_literalDesc _ (by omega), Nat.add_zero]
    · rw [payloadTotal_nil]
      omega
  unfold lastGroup scanBudget
  split
  · rw [List.length_nil]
    omega
  · rw [groupBytes_length, payloadTotal_append, htrailing]
    omega

/-- With the scan done, the tail leaves at most size + floor(5*size/128) + 8 bytes, which OUT holds (R117 (c)). -/
theorem encodeTail_bound {size : Nat} {s : State} (h : scanInv size s) :
    ∃ t, encodeTail s = .next t ∧ (∃ bytes, storesNext s t bytes) ∧
      t.enc.o.toNat ≤ size + 5 * size / 128 + 8 ∧ t.enc.o.toNat ≤ s.outputSize := by
  obtain ⟨t, ht, -, hstores⟩ := encodeTail_completes h.1 (room_of_scanInv h)
  have hlast := lastGroup_budget h.1
  obtain ⟨⟨hle, -⟩, hi, hsize, hbudget⟩ := h
  have hroom := s.outputSize_room hsize
  refine ⟨t, ht, ⟨_, hstores⟩, ?_, ?_⟩ <;> rw [hstores.2.2] <;> omega

end Sys2Proof.Machine

/-! SUPPORT. ENCODE completes on every legal input, so no step of a unit with its invariants stops. -/

namespace Sys2Proof.Machine

/-! ### The run of ENCODE (R105 to R107, R115) -/

/-- What every iteration of the scan and the tail keep of the state they start from: all but the encoder registers, the
index and OUT, which is only added to at the output cursor. -/
def encodeKept (s t : State) : Prop :=
  scanKept s t ∧ t.ctx.level = s.ctx.level ∧ t.ctx.dirty = true ∧ ∃ bytes, storesNext s t bytes

theorem encodeKept_refl {s : State} (h : s.ctx.dirty = true) : encodeKept s s :=
  ⟨⟨rfl, rfl, rfl, rfl, rfl⟩, rfl, h, [], storesNext_nil rfl rfl rfl⟩

theorem scanKept.trans {s t u : State} (h : scanKept s t) (h' : scanKept t u) : scanKept s u := by
  obtain ⟨hbuild, hphase, hregs, hdec, hin⟩ := h
  obtain ⟨hbuild', hphase', hregs', hdec', hin'⟩ := h'
  exact ⟨hbuild'.trans hbuild, hphase'.trans hphase, hregs'.trans hregs, hdec'.trans hdec, hin'.trans hin⟩

theorem scanStep_stores {size : Nat} {s t : State} (h : scanStep size s = .next t) : ∃ bytes, storesNext s t bytes := by
  obtain ⟨bytes, hm, hd, ho⟩ := flushFull_stores h
  rw [State.withEnc_enc, scanRegs_o] at hm ho
  exact ⟨bytes, hm, hd, ho⟩

theorem encodeKept_scanStep {size : Nat} {s u t : State} (h : encodeKept s u) (ht : scanStep size u = .next t) :
    encodeKept s t := by
  obtain ⟨hkept, hlevel, -, xs, hstores⟩ := h
  obtain ⟨hbuild, hphase, hregs, hdec, hin, -, hdirty', hlevel'⟩ := scanStep_frame ht
  obtain ⟨ys, hstores'⟩ := scanStep_stores ht
  exact ⟨hkept.trans ⟨hbuild, hphase, hregs, hdec, hin⟩, hlevel'.trans hlevel, hdirty', xs ++ ys,
    hstores.trans hstores'⟩

theorem encodeKept_encodeTail {s u t : State} {ys : List Byte} (h : encodeKept s u) (ht : encodeTail u = .next t)
    (hstores' : storesNext u t ys) : encodeKept s t ∧ t.ctx = u.ctx := by
  obtain ⟨hkept, hlevel, hdirty, xs, hstores⟩ := h
  have hframe := encodeTail_frame ht
  have hctx : t.ctx = u.ctx := by rw [hframe]
  have hkept' : scanKept u t := by rw [hframe]; exact ⟨rfl, rfl, rfl, rfl, rfl⟩
  exact ⟨⟨hkept.trans hkept', hctx ▸ hlevel, hctx ▸ hdirty, xs ++ ys, hstores.trans hstores'⟩, hctx⟩

theorem scanInv_encodeStart {s : State} (h : s.inSize ≤ s.blockSize) : scanInv s.inSize (encodeStart s) :=
  ⟨⟨le_refl _, Nat.lt_add_of_pos_right (by decide), Nat.zero_le 7, rfl⟩, Nat.zero_le _, h, le_refl 384⟩

/-- ENCODE of a legal input in a context that is not DIRTY: the states of its scan, its tail and its completion. -/
theorem execEncode_trace {s : State} (hsize : s.inSize ≤ s.blockSize) (hclean : s.ctx.dirty = false) :
    ∃ (k : Nat) (u : Nat → State) (v : State), u 0 = encodeStart s ∧
      (∀ j < k, (u j).enc.i.toNat < s.inSize ∧ scanStep s.inSize (u j) = .next (u (j + 1))) ∧
      (u k).enc.i.toNat = s.inSize ∧ encodeTail (u k) = .next v ∧ encodeKept (encodeStart s) v ∧ v.ctx = (u k).ctx ∧
      v.enc.o.toNat ≤ s.inSize + 5 * s.inSize / 128 + 8 ∧ v.enc.o.toNat ≤ s.outputSize ∧
      execEncode s = .next (encodeFinish v) := by
  obtain ⟨k, u, hu0, hu, hinv, hk, hloop⟩ :=
    scanLoop_trace (P := scanInv s.inSize) (fun _ => scanInv_scanStep) (scanInv_encodeStart hsize)
      (n := s.inSize) (Nat.le_add_right _ _)
  have hscan : encodeKept (encodeStart s) (u k) := scanLoop_induction (P := encodeKept (encodeStart s))
    (fun _ _ => encodeKept_scanStep) (encodeKept_refl rfl) hloop
  obtain ⟨v, hv, ⟨ys, hstores⟩, hbound, hroom⟩ := encodeTail_bound hinv
  obtain ⟨hkept, hctx⟩ := encodeKept_encodeTail hscan hv hstores
  obtain ⟨⟨hbuild, -⟩, -⟩ := hscan
  have hoksize : ¬ s.blockSize < s.inSize := Nat.not_lt_of_le hsize
  refine ⟨k, u, v, hu0, hu, Nat.le_antisymm hinv.2.1 hk, hv, hkept, hctx, hbound, ?_, ?_⟩
  · rw [State.outputSize, hbuild] at hroom
    exact hroom
  · rw [execEncode, if_neg hoksize, if_neg (by rw [hclean]; decide), hloop, andThen_next, hv, andThen_next]

/-- ENCODE ends, whatever state it is issued in (R119). -/
theorem execEncode_completes (s : State) : Completes (execEncode s) := by
  by_cases hsize : s.blockSize < s.inSize
  · exact ⟨_, if_pos hsize⟩
  by_cases hdirty : s.ctx.dirty = true
  · exact ⟨_, by rw [execEncode, if_neg hsize, if_pos hdirty]⟩
  · obtain ⟨k, u, v, -, -, -, -, -, -, -, -, h⟩ :=
      execEncode_trace (Nat.le_of_not_lt hsize) (Bool.eq_false_iff.2 hdirty)
    exact ⟨_, h⟩

/-! ### No step stops (R37, R119, R142, R189) -/

theorem completes_of_ite_next {p : Prop} [Decidable p] (s t : State) : Completes (if p then .next s else .next t) := by
  split <;> exact ⟨_, rfl⟩

theorem exec_leaf_completes {i : Instr} (s : State) (hi : i ∈ leafCommands) : Completes (exec i s) := by
  simp only [leafCommands, List.mem_cons, List.not_mem_nil, or_false] at hi
  obtain rfl | rfl | rfl | rfl | rfl | rfl | rfl | rfl | rfl := hi
  · exact ⟨_, rfl⟩
  · exact ⟨_, rfl⟩
  · exact ⟨_, rfl⟩
  · exact ⟨_, rfl⟩
  · exact ⟨_, rfl⟩
  · exact completes_of_ite_next (p := s.regs.arg0.toNat + 2 ≤ s.outputSize) _ _
  · exact completes_of_ite_next (p := s.regs.arg0.toNat + 2 ≤ s.outputSize ∧ s.regs.arg1.toNat ≤ 65535) _ _
  · exact completes_of_ite_next (p := 1 < s.regs.arg1.toNat) _ _
  · exact completes_of_ite_next (p := s.blockSize < s.regs.arg3.toNat) _ _

/-- Every command ends, whatever the state it is issued in. -/
theorem exec_command_completes {code : Byte} {i : Instr} (s : State) (hi : decodeCmd code = .ok i) :
    Completes (exec i s) := by
  obtain hleaf | rfl | rfl | rfl | rfl := decodeCmd_eq_ok hi
  · exact exec_leaf_completes s hleaf
  · exact ⟨_, rfl⟩
  · exact execEncode_completes s
  · obtain ⟨t, ht, -⟩ := execDecode_ends s
    exact ⟨t, ht⟩
  · exact completes_of_ite_next (p := s.blockSize < s.regs.arg2.toNat) _ _

theorem step_completes_of_issued {s : State} (hp : s.phase = .issued) : Completes (step s) := by
  have hfetch : fetch s = fetchCommand s := by simp only [fetch, hp]
  unfold step
  rw [hfetch]
  cases hc : fetchCommand s with
  | some i => exact exec_command_completes s (fetchCommand_eq_some hc)
  | none => exact ⟨_, rfl⟩

/-- The invariant inside DECODE bounds every access of a group header and a symbol. -/
theorem streamReady_of_decodeInv {s : State} (h : decodeInv s) (hp : s.phase = .group ∨ s.phase = .symbol) :
    streamReady s := by
  obtain ⟨hin, hcursors, hanchor⟩ := h
  obtain ⟨hsize, hi, -⟩ := hcursors hp
  obtain ⟨-, hpayload⟩ := hin (by obtain hp | hp := hp <;> rw [hp] <;> rfl)
  exact ⟨hp, hpayload, hsize.trans s.blockSize_le_outputSize, hi, hanchor⟩

theorem streamStep_completes {s : State} (h : decodeInv s) : Completes (streamStep s) := by
  by_cases hp : s.phase = .group ∨ s.phase = .symbol
  · obtain ⟨t, ht, -⟩ := streamStep_moves (streamReady_of_decodeInv h hp)
    exact ⟨t, ht⟩
  · unfold streamStep
    split
    · exact execBlkhdr_completes _ s
    · exact absurd (.inl ‹_›) hp
    · exact absurd (.inr ‹_›) hp
    · exact ⟨s, rfl⟩
    · exact ⟨s, rfl⟩

/-- Settles O54: an issued command ends in any state, ENCODE by the invariant of its scan and DECODE by its read cursor;
inside DECODE the unit's invariants bound every access. -/
theorem stepNeverStops : Obligations.StepNeverStops := by
  intro s h
  by_cases hp : s.phase = .issued
  · exact step_completes_of_issued hp
  · obtain ⟨-, -, -, hdecode⟩ := (unitInv_iff.1 h).1
    exact streamStep_eq_step hp ▸ streamStep_completes hdecode

/-! ### The clauses of ENCODE's completion -/

/-- The three header bytes give back the length they were made of (R46, R106). -/
theorem putLE24_value {n : Nat} (h : n < 2 ^ 24) :
    (byteOf n 0).toNat + 256 * (byteOf n 1).toNat + 65536 * (byteOf n 2).toNat = n := by
  simp only [byteOf, BitVec.toNat_ofNat, Nat.shiftRight_eq_div_pow]
  omega

theorem storedAt_encodeStart (s : State) : storedAt s (encodeStart s) 0 (putLE24 s.inSize) :=
  ⟨rfl, fun _ hk => State.outAt_putOut_inside _ hk, fun _ hx => State.outAt_putOut_outside _ hx⟩

/-- What an accepted candidate does to the registers, and the symbols it emits (R111). -/
theorem scan_of_accepted {e : EncRegs} {a : Word} {len pos : Nat} (hg : e.gn.val ≤ 7)
    (hend : e.i.toNat + len < 2 ^ 32) :
    (scanRegs e (some (len, pos)) a).i.toNat = e.i.toNat + len ∧
      (scanRegs e (some (len, pos)) a).lit = (scanRegs e (some (len, pos)) a).i ∧
      (e.lit.toNat < e.i.toNat →
        scanEmitted e (some (len, pos)) a = [literalDesc e (e.i.toNat - e.lit.toNat), refDesc len pos a] ∧
        (scanRegs e (some (len, pos)) a).n = e.n + 2#32 ∧
        (scanRegs e (some (len, pos)) a).pa = if e.n.toNat % 2 = 0 then e.lit else e.i) ∧
      (e.lit.toNat = e.i.toNat →
        scanEmitted e (some (len, pos)) a = [refDesc len pos a] ∧ (scanRegs e (some (len, pos)) a).n = e.n + 1#32 ∧
        (scanRegs e (some (len, pos)) a).pa = if e.n.toNat % 2 = 0 then e.i else e.pa) := by
  refine ⟨word_toNat hend, rfl, fun hlt => ?_, fun heq => ?_⟩
  · have hp : 0 < pendingLiteral e := Nat.sub_pos_of_lt hlt
    exact ⟨by rw [scanEmitted, if_pos hp]; rfl, (addMatch_of_pending hp hg).2⟩
  · have hp : pendingLiteral e = 0 := Nat.sub_eq_zero_of_le heq.ge
    exact ⟨by rw [scanEmitted, hp]; rfl, (addMatch_of_none_pending hp hg).2⟩

/-- What an iteration without an accepted candidate does to the registers, and the symbols it emits (R110). -/
theorem scan_of_none {e : EncRegs} {a : Word} (hle : e.lit.toNat ≤ e.i.toNat) (hg : e.gn.val ≤ 7)
    (hi : e.i.toNat + 1 < 2 ^ 32) :
    (scanRegs e none a).i.toNat = e.i.toNat + 1 ∧
      (e.i.toNat + 1 < e.lit.toNat + 16 → scanEmitted e none a = [] ∧ (scanRegs e none a).lit = e.lit ∧
        (scanRegs e none a).n = e.n ∧ (scanRegs e none a).pa = e.pa) ∧
      (e.i.toNat + 1 = e.lit.toNat + 16 → scanEmitted e none a = [literalDesc e 16] ∧
        (scanRegs e none a).lit = (scanRegs e none a).i ∧ (scanRegs e none a).n = e.n + 1#32 ∧
        (scanRegs e none a).pa = if e.n.toNat % 2 = 0 then e.lit else e.pa) := by
  refine ⟨?_, fun hlt => ?_, fun hfull => ?_⟩
  · rw [scanRegs_i]
    exact word_toNat hi
  · have hregs : scanRegs e none a = { e with i := word (e.i.toNat + 1) } := addLiteralByte_of_lt hle hi hlt
    rw [hregs]
    exact ⟨if_neg hlt.ne, rfl, rfl, rfl⟩
  · exact ⟨if_pos hfull, (addLiteralByte_of_full hi hfull hg).2⟩

/-- ENCODE ends OK with OUT_SIZE the output cursor, the other registers of the host as they were (R115). -/
theorem encodeFinish_regs (v : State) :
    (encodeFinish v).regs = { v.regs with status := 0#8, outSize := v.enc.o } := by
  have hval : BitVec.ofNat 32 v.enc.o.toNat = v.enc.o := by rw [BitVec.ofNat_toNat, BitVec.setWidth_eq]
  change ({ v.regs with outSize := BitVec.ofNat 32 v.enc.o.toNat, status := 0#8 } : HostRegs) = _
  rw [hval]

/-- After ENCODE exactly the bytes below the output cursor are specified, and they read as the tail left them (R42). -/
theorem encodeFinish_out {v : State} (h : ∀ a < v.enc.o.toNat, (Memory.get? v.outMem a).isSome = true) :
    (∀ a < v.enc.o.toNat, (encodeFinish v).outAt a = v.outAt a) ∧
      ∀ a, (Memory.get? (encodeFinish v).outMem a).isSome = true ↔ a < v.enc.o.toNat := by
  refine ⟨fun a ha => State.outAt_loseOut v ha (h a ha), fun a => ?_⟩
  change (Memory.get? (v.loseOut v.enc.o.toNat).outMem a).isSome = true ↔ _
  rw [State.get?_loseOut]
  by_cases ha : a < v.enc.o.toNat
  · simp [ha, h a ha]
  · simp [ha]

/-- The scan and the tail store behind the block header, whose bytes stay (R106). -/
theorem header_of_encodeKept {s v : State} (hsize : s.inSize ≤ s.blockSize) (h : encodeKept (encodeStart s) v) :
    (v.outAt 0).toNat + 256 * (v.outAt 1).toNat + 65536 * (v.outAt 2).toNat = s.inSize := by
  obtain ⟨-, -, -, bytes, hstores⟩ := h
  obtain ⟨-, hheader, -⟩ := storedAt_encodeStart s
  have hbyte : ∀ a (ha : a < 3), v.outAt a = (putLE24 s.inSize)[a]'ha := fun a ha => by
    have hkept : v.outAt a = (encodeStart s).outAt a := hstores.outAt_below ha
    rw [hkept, ← hheader a ha, Nat.zero_add]
  have hsize24 : s.inSize < 2 ^ 24 := hsize.trans_lt s.blockSize_lt
  rw [hbyte 0 (by decide), hbyte 1 (by decide), hbyte 2 (by decide)]
  exact putLE24_value hsize24

/-- Settles O32: the states of the run come from the scan's invariant, the bytes of OUT from what is stored at the
cursor; one iteration by its accepted candidate; the tail by its last group. -/
theorem encodeCompletes : Obligations.EncodeCompletes := by
  refine ⟨fun s hsize hclean => ?_, ?_, ?_⟩
  · obtain ⟨k, u, v, hu0, hu, hk, hv, hkept, hctx, -, hroom, hexec⟩ := execEncode_trace hsize hclean
    have hheader := header_of_encodeKept hsize hkept
    obtain ⟨⟨hbuild, hphase, hregs, hdec, hin⟩, hlevel, hdirty, bytes, hstores⟩ := hkept
    have hcursor : 3 ≤ v.enc.o.toNat := (Nat.le_add_right 3 _).trans_eq hstores.2.2.symm
    obtain ⟨hout, hspecified⟩ := encodeFinish_out (hstores.isSome_below fun a ha =>
      Memory.isSome_get?_putRun (.inl ⟨Nat.zero_le a, ha⟩))
    have hfinish : (encodeFinish v).regs = { s.regs with status := 0#8, outSize := v.enc.o } := by
      rw [encodeFinish_regs, hregs]
      rfl
    have hsizeOut : (encodeFinish v).regs.outSize = v.enc.o := congrArg HostRegs.outSize hfinish
    have houtputSize : (encodeFinish v).outputSize = s.outputSize :=
      congrArg (fun b : Build => Machine.outputSize b.geometry) hbuild
    have hstart : (encodeStart s).ctx = { s.ctx with dirty := true } ∧ scanKept s (encodeStart s) :=
      ⟨rfl, rfl, rfl, rfl, rfl, rfl⟩
    refine ⟨encodeFinish v, v, k, u,
      hu0 ▸ ⟨hstart.1, hstart.2, storedAt_encodeStart s, rfl, rfl, rfl, rfl, rfl, rfl⟩,
      hu, hk, hv, hexec, rfl, hfinish, rfl, rfl, hdirty, hlevel, ?_⟩
    rw [hsizeOut, houtputSize, hout 0 (by omega), hout 1 (by omega), hout 2 (by omega)]
    exact ⟨hcursor, hroom, hout, hheader, hspecified, hdec, hin, hbuild⟩
  · rintro s size i lit n a lp r c rfl rfl rfl hle hrun hi hsize hg hpack hroom ha rfl hprobe
    have hval : size < 2 ^ 32 := (hsize.trans_lt s.blockSize_lt).trans (by decide)
    obtain ⟨t, ht, hctx, hkept, hemits, -, hti, htlit, htn, htpa⟩ :=
      scanStep_emits ⟨hle, hrun, hg, hpack⟩ hi hsize hroom (ha.trans (positionAnchor_eq _).symm) hprobe rfl
    refine ⟨t, ht, hctx, hkept, fun len pos hr h1 hreach hbefore => ?_, fun hnone => ?_⟩
    · have haccepted : acceptCandidate r a.toNat = some (len, pos) :=
        acceptCandidate_eq_some.2 ⟨hr, h1, hreach, hbefore⟩
      obtain ⟨-, hend⟩ : encodable s.extOn len ∧ s.enc.i.toNat + len ≤ size :=
        encodable_of_accepted (by rw [hprobe]; exact haccepted)
      rw [haccepted] at hemits hti htlit htn htpa
      obtain ⟨hi', hlit', hpending, halone⟩ := scan_of_accepted (a := a) (pos := pos) hg (hend.trans_lt hval)
      rw [hti, htlit, htn, htpa]
      refine ⟨hi', hlit', hend, fun hlt => ?_, fun heq => ?_⟩
      · obtain ⟨hds, hn, hpa⟩ := hpending hlt
        exact ⟨hds ▸ hemits, hn, hpa⟩
      · obtain ⟨hds, hn, hpa⟩ := halone heq
        exact ⟨hds ▸ hemits, hn, hpa⟩
    · have haccepted : acceptCandidate r a.toNat = none :=
        Option.eq_none_iff_forall_ne_some.2 fun (len, pos) hsome => by
          obtain ⟨hr, hlegal⟩ := acceptCandidate_eq_some.1 hsome
          exact hnone len pos hr hlegal
      rw [haccepted] at hemits hti htlit htn htpa
      obtain ⟨hi', hshort, hfull⟩ := scan_of_none (a := a) hle hg (Nat.lt_of_le_of_lt hi hval)
      rw [hti, htlit, htn, htpa]
      refine ⟨hi', fun hlt => ?_, fun heq => ?_⟩
      · obtain ⟨hds, hlit', hn, hpa⟩ := hshort hlt
        exact ⟨hds ▸ hemits, hlit', hn, hpa⟩
      · obtain ⟨hds, hlit', hn, hpa⟩ := hfull heq
        exact ⟨hds ▸ hemits, hlit', hn, hpa⟩
  · rintro s i lit lp all rfl rfl hle hrun hg hpack hroom rfl hall
    have htrailing : all = s.enc.held ++ trailingDescs s.enc := hall
    obtain ⟨t, ht, hgn, hstores⟩ := encodeTail_completes ⟨hle, hrun, hg, hpack⟩ hroom
    have hframe := encodeTail_frame ht
    rw [← htrailing] at hstores
    refine ⟨t, ht, by rw [hframe], by rw [hframe]; exact ⟨rfl, rfl, rfl, rfl, rfl⟩, hgn, fun hnil => ?_, fun hne => ?_⟩
    · rw [lastGroup, if_pos hnil] at hstores
      obtain ⟨hm, hd, ho⟩ := hstores
      exact ⟨BitVec.eq_of_toNat_eq ho, hm, hd⟩
    · rw [lastGroup, if_neg hne] at hstores
      exact ⟨hstores.2.2, hstores.storedAt⟩

end Sys2Proof.Machine

/-! SUPPORT. Decoding what was encoded, format by format; the rows of the selectors; the command codes. -/

namespace Sys2Proof

open Machine

/-! ### Selectors (R50) -/

/-- The selector of a symbol decodes to it. -/
theorem decodeSym_of_symSel {i : Instr} {sel : Sel} (h : symSel i = some sel) : decodeSym sel = i := by
  cases i with
  | lit nib =>
    obtain rfl := Option.some.inj h
    obtain ⟨-, hc, hnib⟩ := selOf_fields false true nib
    simp only [decodeSym, hc, hnib, if_true]
  | ref nib =>
    obtain rfl := Option.some.inj h
    obtain ⟨hext, hc, hnib⟩ := selOf_fields false false nib
    simp only [decodeSym, hext, hc, hnib, Bool.false_eq_true, if_false, Bool.not_false, if_true]
  | refx32 | refx48 | refx64 | refExt4 =>
    obtain rfl := Option.some.inj h
    rfl
  | refExt5to8 n =>
    obtain rfl := Option.some.inj h
    revert n
    decide
  | refExt9to16 n =>
    obtain rfl := Option.some.inj h
    revert n
    decide
  | _ => cases h

/-- A symbol is encoded as its selector in the low six bits of one byte. -/
theorem encode_of_symSel {i : Instr} {sel : Sel} (h : symSel i = some sel) : encode i = (.sym, [sel.setWidth 8]) := by
  cases i with
  | lit | ref | refx32 | refx48 | refx64 | refExt4 | refExt5to8 | refExt9to16 =>
    obtain rfl := Option.some.inj h
    rfl
  | _ => cases h

/-- Every selector is read back from its byte. -/
theorem decode_sym_setWidth (sel : Sel) (rest : List Byte) :
    decode .sym (sel.setWidth 8 :: rest) = .ok (decodeSym sel, rest) := by
  have hlow : (sel.setWidth 8).toNat < 64 := by
    rw [BitVec.toNat_setWidth_of_le (by decide)]
    exact sel.isLt
  have hback : (sel.setWidth 8).setWidth 6 = sel := by
    rw [BitVec.setWidth_setWidth_of_le sel (by decide), BitVec.setWidth_eq]
  simp only [decode, hlow, hback, if_true]

/-! ### The block header (R46) -/

/-- The three bytes of a block header give back its 24 bits. -/
theorem le24_byteOf (size : BitVec 24) :
    le24 (byteOf size.toNat 0) (byteOf size.toNat 1) (byteOf size.toNat 2) = size := by
  rw [le24, putLE24_value size.isLt, BitVec.ofNat_toNat, BitVec.setWidth_eq]

/-- Settles O1, format by format: the block header by its three bytes, a symbol by its selector, a group header and a
command code by the decoder's own equations. -/
theorem decodeOfEncode : Obligations.DecodeOfEncode := by
  intro i rest
  cases hsel : symSel i with
  | some sel => rw [encode_of_symSel hsel, List.singleton_append, decode_sym_setWidth, decodeSym_of_symSel hsel]
  | none =>
    cases i with
    | blkhdr size => exact congrArg (fun n => Except.ok (Instr.blkhdr n, rest)) (le24_byteOf size)
    | group => rfl
    | nop | ctxReset | encode | decode | copy16 | copy32 | copy48 | copy64 | rd16le | wr16le | hash4 | matchlen
    | probe => rfl
    | lit | ref | refx32 | refx48 | refx64 | refExt4 | refExt5to8 | refExt9to16 => cases hsel

/-- Settles O4: each of the words is the encoding of the instruction it stands for, with nothing after it. -/
theorem writtenWordsDecode : Obligations.WrittenWordsDecode :=
  ⟨decodeOfEncode (.blkhdr 32#24) [], decodeOfEncode (.blkhdr 0x040001#24) [],
    decodeOfEncode (.group 0xD5#8 0xF0#8 0xF0#8 0xF0#8 0xF0#8) [], decodeOfEncode (.lit 14#4) [],
    decodeOfEncode (.ref 14#4) [], decodeOfEncode .refx48 [], decodeOfEncode (.refExt5to8 2#2) [],
    decodeOfEncode .probe []⟩

/-! ### The opcode table (R50, R59, R60) -/

/-- Of the rows of the table a selector fits the row of the symbol it decodes to, and no other. -/
theorem selectorRows_eq (sel : Sel) :
    opcodeRows.filter (fun r => r.fits .sym sel.toNat) = (opcodeRows[rowIndex (decodeSym sel)]?).toList := by
  revert sel
  decide +kernel

theorem rowIndex_lt (i : Instr) : rowIndex i < opcodeRows.length := by
  cases i <;> simp [rowIndex, opcodeRows]

/-- Settles O2: the rows that a selector fits are the one row of its symbol. -/
theorem selectorRowsTileTheSelectors : Obligations.SelectorRowsTileTheSelectors := by
  intro sel
  have hrows := selectorRows_eq sel
  rw [List.getElem?_eq_getElem (rowIndex_lt _), Option.toList_some] at hrows
  refine ⟨congrArg List.length hrows, _, List.getElem?_eq_getElem (rowIndex_lt _), ?_⟩
  have hmem := List.mem_singleton_self (opcodeRows[rowIndex (decodeSym sel)]'(rowIndex_lt _))
  rw [← hrows] at hmem
  exact (List.mem_filter.1 hmem).2

/-- Settles O3: a number of the table is the code the decoder tests for, and a code with another number passes every
test. -/
theorem commandCodesAreTheTable : Obligations.CommandCodesAreTheTable := by
  intro code
  have hcode : code = BitVec.ofNat 8 code.toNat := by rw [BitVec.ofNat_toNat, BitVec.setWidth_eq]
  split
  case h_14 =>
    clear hcode
    simp_all [decodeCmd, ← BitVec.toNat_inj]
  all_goals
    rename_i hn
    rw [hn] at hcode
    subst hcode
    rfl

/-! ### The word before a container block (R62) -/

/-- Settles O60: the word is EXT above 23 bits of length. -/
theorem containerPrefixSplits : Obligations.ContainerPrefixSplits := by
  intro ext length hlength
  have hlow : (makePrefix ext length).toNat = ext.toNat * 2 ^ 23 + length := by
    rw [makePrefix, BitVec.toNat_append, BitVec.toNat_ofNat, BitVec.toNat_ofBool, Nat.mod_eq_of_lt hlength,
      ← Nat.shiftLeft_add_eq_or_of_lt hlength, Nat.shiftLeft_eq]
  constructor
  · rw [prefixExt, makePrefix, BitVec.getLsbD_append, if_neg (by decide)]
    simp
  · rw [prefixLength, hlow, Nat.mul_comm, Nat.mul_add_mod, Nat.mod_eq_of_lt hlength]

end Sys2Proof

/-! SUPPORT. The length functions, and reading a packed group header back slot by slot. -/

namespace Sys2Proof.Machine

/-! ### LenOf and NibbleOf (R54) -/

theorem lenOf_long {c ext : Bool} {nib : Nibble} (hc : c = false) (hext : ext = true) (hnib : nib.toNat ≤ 2) :
    lenOf c nib ext = 32 + 16 * nib.toNat := if_pos ⟨hc, hext, hnib⟩

theorem lenOf_short {c ext : Bool} {nib : Nibble} (h : c = true ∨ ext = false ∨ 2 < nib.toNat) :
    lenOf c nib ext = nib.toNat + 1 := by
  refine if_neg fun ⟨hc, hext, hnib⟩ => ?_
  subst hc hext
  obtain h | h | h := h
  · cases h
  · cases h
  · omega

theorem nibbleOf_literal (length : Nat) (ext : Bool) :
    nibbleOf true length ext = if 1 ≤ length ∧ length ≤ 16 then some (BitVec.ofNat 4 (length - 1)) else none := rfl

/-- A back-reference of a long length has a nibble under EXT only. -/
theorem nibbleOf_long {length : Nat} (h : length = 32 ∨ length = 48 ∨ length = 64) (ext : Bool) :
    nibbleOf false length ext = if ext then some (BitVec.ofNat 4 (length / 16 - 2)) else none := if_pos h

theorem nibbleOf_short {length : Nat} (h : ¬(length = 32 ∨ length = 48 ∨ length = 64)) (ext : Bool) :
    nibbleOf false length ext = if 4 ≤ length ∧ length ≤ 16 then some (BitVec.ofNat 4 (length - 1)) else none := if_neg h

/-- The nibble of a length from 1 to 16. -/
theorem toNat_nibble_short {length : Nat} (h : length ≤ 16) : (BitVec.ofNat 4 (length - 1)).toNat = length - 1 := by
  rw [BitVec.toNat_ofNat]
  omega

/-- The nibble of a length 32, 48 or 64. -/
theorem toNat_nibble_long {length : Nat} (h : length = 32 ∨ length = 48 ∨ length = 64) :
    (BitVec.ofNat 4 (length / 16 - 2)).toNat = length / 16 - 2 := by
  rw [BitVec.toNat_ofNat]
  omega

/-- LenOf undoes NibbleOf on its domain (R54). -/
theorem lenOf_of_nibbleOf {literal ext : Bool} {length : Nat} {nib : Nibble}
    (h : nibbleOf literal length ext = some nib) : lenOf literal nib ext = length := by
  cases literal with
  | true =>
    obtain ⟨⟨hlo, hhi⟩, hnib⟩ := Option.ite_none_right_eq_some.1 h
    obtain rfl := Option.some.inj hnib
    rw [lenOf_short (.inl rfl), toNat_nibble_short hhi, Nat.sub_add_cancel hlo]
  | false =>
    by_cases hlong : length = 32 ∨ length = 48 ∨ length = 64
    · rw [nibbleOf_long hlong] at h
      obtain ⟨hext, hnib⟩ := Option.ite_none_right_eq_some.1 h
      obtain rfl := Option.some.inj hnib
      have hnib := toNat_nibble_long hlong
      rw [lenOf_long rfl hext (by omega), hnib]
      omega
    · rw [nibbleOf_short hlong] at h
      obtain ⟨⟨hlo, hhi⟩, hnib⟩ := Option.ite_none_right_eq_some.1 h
      obtain rfl := Option.some.inj hnib
      have hnib := toNat_nibble_short hhi
      rw [lenOf_short (.inr (.inr (by omega))), hnib]
      omega

/-- Settles O5: the values and the domain from the branches of R54, the inverse law from `lenOf_of_nibbleOf`. -/
theorem lengthFunctions : Obligations.LengthFunctions := by
  refine ⟨fun c ext nib => ⟨lenOf_long, lenOf_short⟩, fun literal ext length => ⟨?_, ?_, ?_, ?_, ?_, ?_⟩,
    fun _ _ _ _ => lenOf_of_nibbleOf⟩
  · rintro rfl hlo hhi
    rw [nibbleOf_literal, if_pos ⟨hlo, hhi⟩]
  · rintro rfl hlong rfl
    exact nibbleOf_long hlong true
  · rintro rfl hlo hhi
    rw [nibbleOf_short (by omega), if_pos ⟨hlo, hhi⟩]
  · rintro rfl hout
    rw [nibbleOf_literal, if_neg (by omega)]
  · rintro rfl hlong rfl
    exact nibbleOf_long hlong false
  · rintro rfl h32 h48 h64 hout
    rw [nibbleOf_short (by omega), if_neg (by omega)]

/-! ### A packed group header, read back (R48, R49, R71, R72) -/

/-- Bits shifted in one after another stand with the last one lowest. -/
theorem getLsbD_foldl_shiftIn (f : Nat → Bool) (n : Nat) {j : Nat} (hj : j < 8) :
    ((List.range n).foldl (fun (ctrl : Byte) k => (ctrl <<< 1) ||| (if f k then 1#8 else 0#8)) 0#8).getLsbD j =
      (decide (j < n) && f (n - 1 - j)) := by
  induction n generalizing j with
  | zero => simp
  | succ n ih =>
    rw [List.range_succ, List.foldl_concat, BitVec.getLsbD_or, BitVec.getLsbD_shiftLeft]
    cases j with
    | zero => cases hf : f n <;> simp [hf]
    | succ j =>
      have hbit : (if f n then 1#8 else 0#8).getLsbD (j + 1) = false := by
        cases f n <;> simp [BitVec.getLsbD_one]
      have hindex : n - (j + 1) = n - 1 - j := by omega
      rw [hbit, Nat.add_sub_cancel j 1, ih (j := j) (by omega), Nat.add_sub_cancel n 1, hindex]
      simp [hj]

/-- Bit `7 - k` of the control byte is the control bit of slot `k` (R48). -/
theorem getLsbD_packCtrl (slots : List (Bool × Nibble)) (k : Fin 8) :
    (packCtrl slots).getLsbD (7 - k.val) = (slotOf slots k.val).1 := by
  have hk : 8 - 1 - (7 - k.val) = k.val := by omega
  rw [packCtrl, getLsbD_foldl_shiftIn (fun k => (slotOf slots k).1) 8 (by omega), hk]
  simp only [Bool.and_eq_right_iff_imp, decide_eq_true_eq]
  omega

/-- The size bytes of packed slots, by pair. -/
theorem sizes_getElem (slots : List (Bool × Nibble)) (p : Fin 4) :
    #v[packSize slots 0, packSize slots 1, packSize slots 2, packSize slots 3][p] = packSize slots p.val := by
  fin_cases p <;> rfl

/-- UnpackSymbol reads slot `k` of packed slots (R72). -/
theorem unpackSymbol_packSlots (slots : List (Bool × Nibble)) (k : Fin 8) :
    unpackSymbol (packCtrl slots) #v[packSize slots 0, packSize slots 1, packSize slots 2, packSize slots 3] k =
      slotOf slots k.val := by
  have hbyte := sizes_getElem slots ⟨k.val / 2, by omega⟩
  refine Prod.ext (getLsbD_packCtrl slots k) ?_
  simp only [unpackSymbol, Fin.getElem_fin] at hbyte ⊢
  rw [hbyte, packSize]
  split
  · rw [BitVec.extractLsb'_append_eq_left, show 2 * (k.val / 2) = k.val by omega]
  · rw [BitVec.extractLsb'_append_eq_right, show 2 * (k.val / 2) + 1 = k.val by omega]

theorem slotOf_map {α : Type} (f : α → Bool × Nibble) {xs : List α} {k : Nat} {x : α} (h : xs[k]? = some x) :
    slotOf (xs.map f) k = f x := by
  simp [slotOf, List.getD_eq_getElem?_getD, h]

/-- Settles O6: the header is made of packed slots, and slot `k` is the descriptor's, or padding past the last one. -/
theorem unpackUndoesPackHeader : Obligations.UnpackUndoesPackHeader := by
  intro ds ext k c s0 s1 s2 s3 _ hheader
  simp only [packHeader, packSlots, List.cons.injEq, and_true] at hheader
  obtain ⟨rfl, rfl, rfl, rfl, rfl⟩ := hheader
  rw [unpackSymbol_packSlots]
  refine ⟨fun d nib hd hnib => ?_, fun hpad => ?_⟩
  · rw [slotOf_map _ hd, Desc.slot, hnib, Option.getD_some]
  · rw [slotOf, List.getD_eq_default]
    rwa [List.length_map]

end Sys2Proof.Machine

/-! SUPPORT. The stream of a listing, symbol by symbol; a listed symbol's slot gives back its length; what a symbol
runs. -/

namespace Sys2Proof.Machine

/-! ### The bytes of a listing's groups, symbol by symbol (R45, R61) -/

/-- The payload from the symbol of index `k` on: a group header before every eighth symbol, then each symbol's own
bytes. The groups of `assemble` are this stream from index 0 (`assembleGroups_eq_streamBytes`). -/
def streamBytes (k : Nat) (syms : List Sym) : List Byte :=
  match syms with
  | [] => []
  | y :: ys =>
    (if k % 8 = 0 then packSlots (((y :: ys).take 8).map symSlot) else []) ++ (symPayload y ++ streamBytes (k + 1) ys)

@[simp] theorem streamBytes_nil (k : Nat) : streamBytes k [] = [] := rfl

/-- At the first symbol of a group its header comes first. -/
theorem streamBytes_cons_of_group {k : Nat} (hk : k % 8 = 0) (y : Sym) (ys : List Sym) :
    streamBytes k (y :: ys) = packSlots (((y :: ys).take 8).map symSlot) ++ (symPayload y ++ streamBytes (k + 1) ys) := by
  rw [streamBytes, if_pos hk]

/-- Inside a group a symbol's own bytes come first. -/
theorem streamBytes_cons_inside {k : Nat} (hk : k % 8 ≠ 0) (y : Sym) (ys : List Sym) :
    streamBytes k (y :: ys) = symPayload y ++ streamBytes (k + 1) ys := by
  rw [streamBytes, if_neg hk, List.nil_append]

/-- As long as no group begins, the stream is the symbols' own bytes. -/
theorem streamBytes_inside {m k : Nat} (h : ∀ i < m, (k + i) % 8 ≠ 0) (syms : List Sym) :
    streamBytes k syms = (syms.take m).flatMap symPayload ++ streamBytes (k + m) (syms.drop m) := by
  induction m generalizing k syms with
  | zero => simp
  | succ m ih =>
    cases syms with
    | nil => simp
    | cons y ys =>
      have hfirst : k % 8 ≠ 0 := h 0 (Nat.succ_pos m)
      have hrest : ∀ i < m, (k + 1 + i) % 8 ≠ 0 := fun i hi => by
        have := h (i + 1) (by omega)
        omega
      rw [streamBytes_cons_inside hfirst, ih hrest, List.take_succ_cons, List.drop_succ_cons,
        List.flatMap_cons, List.append_assoc, Nat.add_assoc k 1 m, Nat.add_comm 1 m]

/-- Fuel for every symbol is enough for the assembler, and its groups are the stream. -/
theorem assembleGroups_eq_streamBytes {n k : Nat} {syms : List Sym} (hk : k % 8 = 0) (hn : syms.length ≤ n) :
    assembleGroups n syms = streamBytes k syms := by
  induction n generalizing k syms with
  | zero =>
    obtain rfl := List.eq_nil_of_length_eq_zero (Nat.le_zero.1 hn)
    rfl
  | succ n ih =>
    cases syms with
    | nil => rfl
    | cons y ys =>
      have hdrop : ((y :: ys).drop 8).length ≤ n := by
        rw [List.length_drop]
        omega
      have htail : streamBytes (k + 1) ys = (ys.take 7).flatMap symPayload ++ streamBytes (k + 8) (ys.drop 7) :=
        streamBytes_inside (m := 7) (by omega) ys
      rw [streamBytes_cons_of_group hk, htail, assembleGroups, ih (k := k + 8) (by omega) hdrop, assembleGroup]
      · simp
      · simp

/-! ### A listed symbol (R54, R58, R61) -/

theorem Sym.wf_lit {ext : Bool} {bs : List Byte} : (Sym.lit bs).wf ext = true ↔ 1 ≤ bs.length ∧ bs.length ≤ 16 := by
  simp [Sym.wf]

theorem Sym.wf_ref {ext : Bool} {off n : Nat} :
    (Sym.ref off n).wf ext = true ↔ (1 ≤ off ∧ off ≤ 65535 ∧ 1 ≤ n ∧ n ≤ 16) ∧ (ext = false ∨ 4 ≤ n) := by
  simp [Sym.wf]

theorem Sym.wf_refx {ext : Bool} {off n : Nat} :
    (Sym.refx off n).wf ext = true ↔ (ext = true ∧ 1 ≤ off ∧ off ≤ 65535) ∧ (n = 32 ∨ n = 48 ∨ n = 64) := by
  simp [Sym.wf]

/-- A listed symbol has output. -/
theorem Sym.len_pos {ext : Bool} {y : Sym} (h : y.wf ext = true) : 0 < y.len := by
  cases y with
  | lit bs => exact (Sym.wf_lit.1 h).1
  | ref off n => exact (Sym.wf_ref.1 h).1.2.2.1
  | refx off n =>
    obtain ⟨-, hn⟩ := Sym.wf_refx.1 h
    simp only [Sym.len]
    omega

/-- A listed symbol has bytes in the payload. -/
theorem symPayload_length_pos {ext : Bool} {y : Sym} (h : y.wf ext = true) : 0 < (symPayload y).length := by
  cases y with
  | lit bs => exact (Sym.wf_lit.1 h).1
  | ref | refx => exact Nat.two_pos

/-- LenOf reads the length of a listed symbol back from its slot, that of a REF of 1 to 3 bytes too (log 21). -/
theorem lenOf_symSlot {ext : Bool} {y : Sym} (h : y.wf ext = true) :
    lenOf (symSlot y).1 (symSlot y).2 ext = y.len := by
  cases y with
  | lit bs =>
    obtain ⟨hlo, hhi⟩ := Sym.wf_lit.1 h
    simp only [symSlot, Sym.len]
    rw [lenOf_short (.inl rfl), toNat_nibble_short hhi, Nat.sub_add_cancel hlo]
  | ref off n =>
    obtain ⟨⟨-, -, hlo, hhi⟩, hext⟩ := Sym.wf_ref.1 h
    have hnib := toNat_nibble_short hhi
    simp only [symSlot, Sym.len]
    rw [lenOf_short (.inr (hext.imp_right fun _ => by omega)), hnib, Nat.sub_add_cancel hlo]
  | refx off n =>
    obtain ⟨⟨hext, -, -⟩, hn⟩ := Sym.wf_refx.1 h
    have hnib := toNat_nibble_long hn
    simp only [symSlot, Sym.len]
    rw [lenOf_long rfl hext (by omega), hnib]
    omega

/-! ### What a symbol runs (R50, R129) -/

theorem exec_of_refLength {i : Instr} {len : Nat} (h : refLength i = some len) (s : State) :
    exec i s = backReference len s := by
  cases i with
  | ref | refx32 | refx48 | refx64 | refExt4 =>
    obtain rfl := Option.some.inj h
    rfl
  | refExt5to8 n =>
    obtain rfl := Option.some.inj h
    rw [exec_refExt5to8, Nat.add_comm]
  | refExt9to16 n =>
    obtain rfl := Option.some.inj h
    rw [exec_refExt9to16, Nat.add_comm]
  | _ => cases h

/-- A clear control bit selects a back-reference of the length LenOf gives. -/
theorem refLength_decodeSym (ext : Bool) (nib : Nibble) :
    refLength (decodeSym (selOf ext false nib)) = some (lenOf false nib ext) := by
  revert ext nib
  decide

/-- A set control bit selects a literal, under EXT as without it. -/
theorem decodeSym_literal (ext : Bool) (nib : Nibble) : decodeSym (selOf ext true nib) = .lit nib := by
  obtain ⟨-, hc, hnib⟩ := selOf_fields ext true nib
  simp only [decodeSym, hc, hnib, if_true]

/-- A symbol runs a literal or a back-reference, by its control bit, of the length LenOf gives. -/
theorem execSymbol_of_slot {s : State} {slot : Bool × Nibble}
    (h : unpackSymbol s.dec.ctrl s.dec.sz s.dec.k = slot) :
    execSymbol s =
      if slot.1 then literalRun (lenOf slot.1 slot.2 s.extOn) s else backReference (lenOf slot.1 slot.2 s.extOn) s := by
  obtain ⟨c, nib⟩ := slot
  have hsel : currentSel s = selOf s.extOn c nib := by rw [currentSel, h]
  rw [execSymbol_eq_exec, hsel]
  cases c with
  | true =>
    rw [decodeSym_literal, if_pos rfl, lenOf_short (.inl rfl)]
    rfl
  | false => exact exec_of_refLength (refLength_decodeSym _ _) s

end Sys2Proof.Machine

/-! SUPPORT. DECODE of the payload of a listing runs the listing: a simulation symbol by symbol. -/

namespace Sys2Proof.Machine

/-! ### What DECODE has done and has still to read -/

theorem State.inRun_add (s : State) (a m n : Nat) : s.inRun a (m + n) = s.inRun a m ++ s.inRun (a + m) n := by
  simp [State.inRun, List.range_add, Nat.add_assoc]

/-- DECODE, issued in `s`, stands in `u` past its block header, which announced `size` bytes: it has written `out`, and
of the payload it has still to read `bytes`. -/
structure decoding (s : State) (size : Nat) (out bytes : List Byte) (u : State) : Prop where
  payloadFits : s.inSize ≤ s.outputSize
  blockFits : size ≤ s.outputSize
  core : coreKept s u
  regs : u.regs = s.regs
  announced : u.dec.size.toNat = size
  cursor : u.dec.j.toNat = out.length
  written : ∀ a < out.length, Memory.get? u.outMem a = out[a]?
  left : u.dec.i.toNat + bytes.length = s.inSize
  unread : u.inRun u.dec.i.toNat bytes.length = bytes

section

variable {s u : State} {size : Nat} {out bytes xs more : List Byte}

theorem decoding.inSize_eq (h : decoding s size out bytes u) : u.inSize = s.inSize :=
  congrArg (fun r => r.inSize.toNat) h.regs

theorem decoding.outputSize_eq (h : decoding s size out bytes u) : u.outputSize = s.outputSize :=
  congrArg (fun b : Build => Machine.outputSize b.geometry) h.core.1

theorem decoding.extOn_eq (h : decoding s size out bytes u) : u.extOn = s.extOn :=
  congrArg (fun r => r.ext == 1#1) h.regs

theorem decoding.withPhase (h : decoding s size out bytes u) (p : Phase) : decoding s size out bytes (u.withPhase p) :=
  ⟨h.payloadFits, h.blockFits, h.core, h.regs, h.announced, h.cursor, h.written, h.left, h.unread⟩

theorem decoding.decodedAll_eq (h : decoding s size out bytes u) : decodedAll u = decide (size ≤ out.length) := by
  rw [decodedAll, h.announced, h.cursor]

/-- The bytes that come next lie inside the payload. -/
theorem decoding.next_le (h : decoding s size out (xs ++ more) u) : u.dec.i.toNat + xs.length ≤ u.inSize := by
  have hleft := h.left
  rw [List.length_append] at hleft
  rw [h.inSize_eq]
  omega

theorem decoding.unread_append (h : decoding s size out (xs ++ more) u) :
    u.inRun u.dec.i.toNat xs.length = xs ∧ u.inRun (u.dec.i.toNat + xs.length) more.length = more := by
  have hunread := h.unread
  rw [List.length_append, State.inRun_add] at hunread
  exact List.append_inj hunread (State.inRun_length u _ _)

/-- A step that reads `xs` and stores `ys` at the write cursor. -/
theorem decoding.store {ys : List Byte} {d : DecRegs} (h : decoding s size out (xs ++ more) u)
    (hi : d.i.toNat = u.dec.i.toNat + xs.length) (hj : d.j.toNat = u.dec.j.toNat + ys.length) (hd : d.size = u.dec.size) :
    decoding s size (out ++ ys) more ((u.putOut u.dec.j.toNat ys).withDec d) where
  payloadFits := h.payloadFits
  blockFits := h.blockFits
  core := h.core
  regs := h.regs
  announced := hd ▸ h.announced
  cursor := (hj.trans (by rw [h.cursor])).trans List.length_append.symm
  written a ha := by
    rw [List.length_append] at ha
    change Memory.get? (Memory.putRun u.outMem u.dec.j.toNat ys) a = _
    rw [Memory.get?_putRun, h.cursor]
    by_cases hold : a < out.length
    · rw [if_neg (by omega), h.written a hold, List.getElem?_append_left hold]
    · rw [if_pos (by omega), List.getElem?_append_right (by omega)]
  left := by
    have hleft := h.left
    rw [List.length_append] at hleft
    change d.i.toNat + _ = _
    omega
  unread := by
    obtain ⟨-, hmore⟩ := h.unread_append
    change u.inRun d.i.toNat _ = _
    rwa [hi]

/-- What the output holds below the write cursor. -/
theorem decoding.outAt (h : decoding s size out bytes u) {a : Nat} (ha : a < out.length) : u.outAt a = out[a] := by
  rw [State.outAt, outByte, h.written a ha, List.getElem?_eq_getElem ha, Option.getD_some]

theorem decoding.outRun (h : decoding s size out bytes u) {a n : Nat} (ha : a + n ≤ out.length) :
    u.outRun a n = (out.drop a).take n := by
  refine List.ext_getElem (by simp; omega) fun k hk _ => ?_
  rw [State.outRun_length] at hk
  simp [State.outRun, h.outAt (a := a + k) (by omega)]

/-! ### How it ends -/

/-- What DECODE answers for a listing of `size` bytes that stands for `r`. -/
def listingEnds (s : State) (size : Nat) (r : Option (List Byte)) (o : Host.Outcome State Fault Refusal) : Prop :=
  (∀ out, r = some out →
    ∃ t, o = .next t ∧ t.phase = .idle ∧
      t.regs = { s.regs with status := 0#8, outSize := BitVec.ofNat 32 size } ∧ t.result = out ∧ coreKept s t) ∧
  (r = none →
    ∃ t, o = .next t ∧ t.phase = .idle ∧ (t.regs.status = 5#8 ∨ t.regs.status = 6#8) ∧ t.regs.outSize = 0#32)

/-- With the whole block written DECODE ends OK, and OUT is the block (R136). -/
theorem listingEnds_decodeFinish (h : decoding s size out bytes u) (hsize : out.length = size) :
    listingEnds s size (some out) (.next (decodeFinish u)) := by
  refine ⟨fun out' hout => ?_, fun hnone => nomatch hnone⟩
  obtain rfl := Option.some.inj hout
  have hregs : (decodeFinish u).regs = { s.regs with status := 0#8, outSize := BitVec.ofNat 32 size } := by
    rw [decodeFinish_cases, h.regs, h.announced]
  have hresult : (decodeFinish u).result = out := by
    have hval : (BitVec.ofNat 32 size).toNat = size := word_toNat (h.blockFits.trans_lt s.outputSize_lt)
    rw [State.result, hregs, hval, ← hsize]
    refine List.ext_getElem (by simp) fun a ha _ => ?_
    rw [State.outRun_length] at ha
    have hstored : (Memory.get? u.outMem a).isSome = true := by simp [h.written a ha, ha]
    simp [State.outRun, outAt_decodeFinish (by rw [h.announced, ← hsize]; exact ha) hstored, h.outAt ha]
  exact ⟨_, rfl, rfl, hregs, hresult, h.core⟩

/-- An illegal back-reference ends it with ERR_OFFSET or ERR_OVERLAP. -/
theorem listingEnds_rejectStream (u : State) {c : StatusCode} (hc : c = .errOffset ∨ c = .errOverlap) :
    listingEnds s size none (.next (u.rejectStream c)) := by
  refine ⟨fun out hout => (nomatch hout), fun _ => ⟨_, rfl, rfl, ?_, rfl⟩⟩
  obtain rfl | rfl := hc
  · exact .inl rfl
  · exact .inr rfl

/-! ### A group header (R127, R128) -/

/-- The group header of some slots is fetched: each symbol's control bit and nibble are its slot's, and the first pair's
anchor is the write cursor. -/
theorem decoding.fetchGroup {slots : List (Bool × Nibble)} (h : decoding s size out (packSlots slots ++ more) u)
    (hp : u.phase = .group) :
    ∃ v, streamStep u = .next v ∧ decoding s size out more v ∧ v.phase = .symbol ∧ v.dec.k = 0 ∧
      v.dec.anchor = u.dec.j ∧ ∀ i, unpackSymbol v.dec.ctrl v.dec.sz i = slotOf slots i.val := by
  have hin : u.dec.i.toNat + 5 ≤ u.inSize := h.next_le
  have hout : u.dec.i.toNat + 5 ≤ u.outputSize := by rw [h.outputSize_eq]; exact (h.inSize_eq ▸ hin).trans h.payloadFits
  have hheader : u.inRun u.dec.i.toNat 5 = packSlots slots := h.unread_append.1
  simp only [inRun_five, packSlots, List.cons.injEq, and_true] at hheader
  obtain ⟨hc, h0, h1, h2, h3⟩ := hheader
  have hival : (word (u.dec.i.toNat + 5)).toNat = u.dec.i.toNat + 5 := word_toNat (hin.trans_lt u.regs.inSize.isLt)
  have hstep := h.store (ys := []) (d := { u.dec with
    ctrl := packCtrl slots, sz := #v[packSize slots 0, packSize slots 1, packSize slots 2, packSize slots 3],
    i := word (u.dec.i.toNat + 5), k := 0, anchor := u.dec.j }) hival rfl rfl
  rw [List.append_nil] at hstep
  refine ⟨_, ?_, hstep.withPhase .symbol, rfl, rfl, rfl, unpackSymbol_packSlots slots⟩
  simp only [streamStep, hp, execGroup, groupPresent, hc, h0, h1, h2, h3, hin, decide_true, Bool.not_true,
    Bool.false_eq_true, if_false, if_neg (Nat.not_lt.2 hout)]
  rfl

/-! ### A symbol (R128 to R134) -/

/-- What a symbol answers where the listing's output after it is `r`: DECODE goes on behind the symbol, its group and
its pair's anchor as they were, or rejects the back-reference. -/
def symbolEnds (s : State) (size : Nat) (more : List Byte) (u : State) (r : Option (List Byte))
    (o : Host.Outcome State Fault Refusal) : Prop :=
  (∀ out, r = some out →
    ∃ d, o = .next (afterSymbol d) ∧ decoding s size out more d ∧
      d.dec = { u.dec with i := d.dec.i, j := d.dec.j }) ∧
  (r = none → ∃ d c, o = .next (State.rejectStream d c) ∧ (c = .errOffset ∨ c = .errOverlap))

/-- A literal appends its bytes (R130). -/
theorem decoding.literalRun (h : decoding s size out (xs ++ more) u) (hroom : out.length + xs.length ≤ size) :
    symbolEnds s size more u (some (out ++ xs)) (literalRun xs.length u) := by
  refine ⟨fun out' hout => ?_, fun hnone => nomatch hnone⟩
  obtain rfl := Option.some.inj hout
  have hpayload : u.inSize ≤ u.outputSize := by rw [h.inSize_eq, h.outputSize_eq]; exact h.payloadFits
  have hblock : u.dec.size.toNat ≤ u.outputSize := by rw [h.announced, h.outputSize_eq]; exact h.blockFits
  have hin := h.next_le
  have hj : u.dec.j.toNat + xs.length ≤ u.dec.size.toNat := by rw [h.cursor, h.announced]; exact hroom
  obtain ⟨hunder, -⟩ | ⟨-, hover, -⟩ | ⟨-, -, hr⟩ := literalRun_cases (len := xs.length) hpayload hblock
  · omega
  · omega
  · rw [h.unread_append.1] at hr
    exact ⟨_, hr, h.store (word_toNat (hin.trans_lt u.regs.inSize.isLt))
      (word_toNat ((hj.trans hblock).trans_lt u.outputSize_lt)) rfl, rfl⟩

/-- The offset of a back-reference is read back from its two bytes (R70). -/
theorem le16_byteOf {off : Nat} (h : off ≤ 65535) : le16 (byteOf off 0) (byteOf off 1) = off := by
  simp only [le16, byteOf, BitVec.toNat_ofNat, Nat.shiftRight_eq_div_pow]
  omega

/-- The output after a back-reference of `len` bytes from `off` before the anchor (`runSym`). -/
def copyBack (anchor : Nat) (out : List Byte) (off len : Nat) : Option (List Byte) :=
  if off ≠ 0 ∧ off ≤ anchor ∧ len ≤ off then some (out ++ (out.drop (anchor - off)).take len) else none

theorem runSym_lit (anchor : Nat) (out bs : List Byte) : runSym anchor out (.lit bs) = some (out ++ bs) := rfl
theorem runSym_ref (anchor : Nat) (out : List Byte) (off len : Nat) :
    runSym anchor out (.ref off len) = copyBack anchor out off len := rfl
theorem runSym_refx (anchor : Nat) (out : List Byte) (off len : Nat) :
    runSym anchor out (.refx off len) = copyBack anchor out off len := rfl

theorem length_of_copyBack {anchor off len : Nat} {out' : List Byte} (ha : anchor ≤ out.length)
    (h : copyBack anchor out off len = some out') : out'.length = out.length + len := by
  obtain ⟨⟨-, hoff, hlen⟩, hout⟩ := Option.ite_none_right_eq_some.1 h
  obtain rfl := Option.some.inj hout
  rw [List.length_append, List.length_take, List.length_drop]
  omega

/-- A symbol's output grows by its length. -/
theorem length_of_runSym {anchor : Nat} {y : Sym} {out' : List Byte} (ha : anchor ≤ out.length)
    (h : runSym anchor out y = some out') : out'.length = out.length + y.len := by
  cases y with
  | lit bs =>
    obtain rfl := Option.some.inj h
    exact List.length_append
  | ref | refx => exact length_of_copyBack ha h

/-- A back-reference appends the bytes `off` before the anchor, or is rejected (R131). -/
theorem decoding.backReference {off len : Nat} (h : decoding s size out (putLE16 off ++ more) u) (hoff : off ≤ 65535)
    (ha : u.dec.anchor.toNat ≤ out.length) (hroom : out.length + len ≤ size) :
    symbolEnds s size more u (copyBack u.dec.anchor.toNat out off len) (backReference len u) := by
  have hpayload : u.inSize ≤ u.outputSize := by rw [h.inSize_eq, h.outputSize_eq]; exact h.payloadFits
  have hblock : u.dec.size.toNat ≤ u.outputSize := by rw [h.announced, h.outputSize_eq]; exact h.blockFits
  have hin : u.dec.i.toNat + 2 ≤ u.inSize := h.next_le
  have hj : u.dec.j.toNat + len ≤ u.dec.size.toNat := by rw [h.cursor, h.announced]; exact hroom
  have hread : u.inRun u.dec.i.toNat 2 = putLE16 off := h.unread_append.1
  simp only [State.inRun, List.range_succ, List.range_zero, List.nil_append, List.map_cons, List.map_nil,
    List.cons_append, putLE16, List.cons.injEq, and_true, Nat.add_zero] at hread
  obtain ⟨h0, h1⟩ := hread
  have hval : off = le16 (u.inAt u.dec.i.toNat) (u.inAt (u.dec.i.toNat + 1)) := by rw [h0, h1, le16_byteOf hoff]
  obtain ⟨hunder, -⟩ | ⟨-, hbad, hr⟩ | ⟨-, -, -, hbad, hr⟩ | ⟨-, -, -, -, hover, -⟩ | ⟨-, hlo, hanchor, hlen, -, hr⟩ :=
    backReference_cases (len := len) hpayload hblock (h.cursor ▸ ha) off hval _ rfl
  · omega
  · rw [copyBack, if_neg (by omega), hr]
    exact ⟨fun _ hout => (nomatch hout), fun _ => ⟨_, _, rfl, .inl rfl⟩⟩
  · rw [copyBack, if_neg (by omega), hr]
    exact ⟨fun _ hout => (nomatch hout), fun _ => ⟨_, _, rfl, .inr rfl⟩⟩
  · omega
  · rw [copyBack, if_pos (by omega), hr]
    refine ⟨fun out' hout => ?_, fun hnone => nomatch hnone⟩
    obtain rfl := Option.some.inj hout
    rw [← h.outRun (by omega)]
    exact ⟨_, rfl, h.store (word_toNat (hin.trans_lt u.regs.inSize.isLt))
      (by rw [State.outRun_length]; exact word_toNat ((hj.trans hblock).trans_lt u.outputSize_lt)) rfl, rfl⟩

/-- A listed symbol runs as the listing says. -/
theorem decoding.execSymbol {y : Sym} (h : decoding s size out (symPayload y ++ more) u) (hwf : y.wf s.extOn = true)
    (hslot : unpackSymbol u.dec.ctrl u.dec.sz u.dec.k = symSlot y) (ha : u.dec.anchor.toNat ≤ out.length)
    (hroom : out.length + y.len ≤ size) :
    symbolEnds s size more u (runSym u.dec.anchor.toNat out y) (execSymbol u) := by
  rw [execSymbol_of_slot hslot, lenOf_symSlot (h.extOn_eq ▸ hwf)]
  cases y with
  | lit bs => exact h.literalRun hroom
  | ref off n => exact h.backReference (Sym.wf_ref.1 hwf).1.2.1 ha hroom
  | refx off n => exact h.backReference (Sym.wf_refx.1 hwf).1.2.2 ha hroom

/-! ### The symbols of a listing in turn (R125, R128, R135) -/

/-- DECODE stands before symbol `y` of index `k` with `ys` after it; `anchor` is the anchor of the pair before. -/
structure beforeSymbol (s : State) (size k anchor : Nat) (out : List Byte) (y : Sym) (ys : List Sym) (u : State) :
    Prop where
  state : decoding s size out (symPayload y ++ streamBytes (k + 1) ys) u
  phase : u.phase = .symbol
  index : u.dec.k.val = k % 8
  anchor_eq : u.dec.anchor.toNat = if k % 2 = 0 then out.length else anchor
  anchor_le : u.dec.anchor.toNat ≤ out.length
  slots : ∀ (i : Fin 8) (z : Sym), k % 8 ≤ i.val → (y :: ys)[i.val - k % 8]? = some z →
    unpackSymbol u.dec.ctrl u.dec.sz i = symSlot z

/-- At the first symbol of a group the group header is fetched before it. -/
theorem decoding.beforeSymbol_of_group {k : Nat} {y : Sym} {ys : List Sym} (hk : k % 8 = 0)
    (h : decoding s size out (streamBytes k (y :: ys)) u) (hp : u.phase = .group) (anchor : Nat) :
    ∃ v, streamStep u = .next v ∧ beforeSymbol s size k anchor out y ys v := by
  rw [streamBytes_cons_of_group hk] at h
  obtain ⟨v, hv, hstate, hphase, hindex, hanchor, hslots⟩ := h.fetchGroup hp
  have hcursor : v.dec.anchor.toNat = out.length := by rw [hanchor, h.cursor]
  refine ⟨v, hv, hstate, hphase, by rw [hindex, hk]; rfl, by rw [hcursor, if_pos (by omega)], hcursor.le, ?_⟩
  intro i z _ hz
  rw [hk, Nat.sub_zero] at hz
  rw [hslots, slotOf_map symSlot (x := z)]
  rw [List.getElem?_take, if_pos i.isLt, hz]

/-- After a symbol that is not the last of its group DECODE stands before the next one; `d` is where the symbol left the
cursors. -/
theorem beforeSymbol.next {k anchor : Nat} {out' : List Byte} {y z : Sym} {zs : List Sym} {d : State}
    (h : beforeSymbol s size k anchor out y (z :: zs) u) (hk : u.dec.k ≠ 7)
    (hd : decoding s size out' (streamBytes (k + 1) (z :: zs)) d) (hkept : d.dec = { u.dec with i := d.dec.i, j := d.dec.j })
    (hgrow : out.length ≤ out'.length) :
    beforeSymbol s size (k + 1) u.dec.anchor.toNat out' z zs
      ((d.withDec { d.dec with
        k := d.dec.k + 1,
        anchor := if (d.dec.k + 1).val % 2 = 0 then d.dec.j else d.dec.anchor }).withPhase .symbol) := by
  obtain ⟨-, -, hindex, -, hle, hslots⟩ := h
  have hdk : d.dec.k = u.dec.k := by rw [hkept]
  have hda : d.dec.anchor = u.dec.anchor := by rw [hkept]
  have hdc : d.dec.ctrl = u.dec.ctrl := by rw [hkept]
  have hds : d.dec.sz = u.dec.sz := by rw [hkept]
  have hlt : k % 8 < 7 := by
    have := u.dec.k.isLt
    have hne : u.dec.k.val ≠ 7 := fun h7 => hk (Fin.ext h7)
    omega
  have hsucc : (d.dec.k + 1).val = (k + 1) % 8 := by
    rw [hdk, Fin.val_add, hindex]
    simp
  have hanchor : (if (d.dec.k + 1).val % 2 = 0 then d.dec.j else d.dec.anchor).toNat =
      if (k + 1) % 2 = 0 then out'.length else u.dec.anchor.toNat := by
    rw [hsucc, Nat.mod_mod_of_dvd (k + 1) (by decide), apply_ite BitVec.toNat, hd.cursor, hda]
  rw [streamBytes_cons_inside (by omega)] at hd
  refine ⟨⟨hd.payloadFits, hd.blockFits, hd.core, hd.regs, hd.announced, hd.cursor, hd.written, hd.left, hd.unread⟩,
    rfl, hsucc, hanchor, ?_, fun i x hi hx => ?_⟩
  · refine hanchor.trans_le ?_
    split
    · exact le_refl _
    · exact hle.trans hgrow
  · change unpackSymbol d.dec.ctrl d.dec.sz i = _
    have hpos : i.val - k % 8 = i.val - (k + 1) % 8 + 1 := by omega
    rw [hdc, hds, hslots i x (by omega) (by rw [hpos, List.getElem?_cons_succ, hx])]

theorem runStream_succ {v : State} (n : Nat) (hp : inDecode u.phase = true) (h : streamStep u = .next v) :
    runStream (n + 1) u = runStream n v := by
  rw [runStream, if_pos hp, h, andThen_next]

theorem runSyms_cons (k anchor : Nat) (out : List Byte) (y : Sym) (ys : List Sym) :
    runSyms k anchor out (y :: ys) =
      (runSym (if k % 2 = 0 then out.length else anchor) out y).bind fun o =>
        runSyms (k + 1) (if k % 2 = 0 then out.length else anchor) o ys := by
  rw [runSyms]
  cases runSym (if k % 2 = 0 then out.length else anchor) out y <;> rfl

/-- The symbol that DECODE stands before runs as the listing says. -/
theorem beforeSymbol.streamStep {k anchor : Nat} {y : Sym} {ys : List Sym}
    (h : beforeSymbol s size k anchor out y ys u) (hwf : y.wf s.extOn = true) (hroom : out.length + y.len ≤ size) :
    symbolEnds s size (streamBytes (k + 1) ys) u (runSym u.dec.anchor.toNat out y) (streamStep u) := by
  have hstep : Machine.streamStep u = Machine.execSymbol u := by simp only [Machine.streamStep, h.phase]
  have hslot : unpackSymbol u.dec.ctrl u.dec.sz u.dec.k = symSlot y :=
    h.slots u.dec.k y h.index.ge (by rw [h.index, Nat.sub_self, List.getElem?_cons_zero])
  exact hstep ▸ h.state.execSymbol hwf hslot h.anchor_le hroom

/-- DECODE from a symbol on ends as the listing says, if it does so from where a legal symbol leaves it. -/
theorem beforeSymbol.runStream_of_rest {k anchor n : Nat} {y : Sym} {ys : List Sym}
    (h : beforeSymbol s size k anchor out y ys u) (hwf : y.wf s.extOn = true) (hroom : out.length + y.len ≤ size)
    (hrest : ∀ o d, o.length = out.length + y.len → decoding s size o (streamBytes (k + 1) ys) d →
      d.dec = { u.dec with i := d.dec.i, j := d.dec.j } →
      listingEnds s size (runSyms (k + 1) u.dec.anchor.toNat o ys) (runStream n (afterSymbol d))) :
    listingEnds s size (runSyms k anchor out (y :: ys)) (runStream (n + 1) u) := by
  have hin : inDecode u.phase = true := by rw [h.phase]; rfl
  obtain ⟨hlegal, hillegal⟩ := h.streamStep hwf hroom
  rw [runSyms_cons, ← h.anchor_eq]
  cases hr : runSym u.dec.anchor.toNat out y with
  | none =>
    obtain ⟨d, c, hd, hc⟩ := hillegal hr
    rw [runStream_succ n hin hd, runStream_of_idle n rfl]
    exact listingEnds_rejectStream d hc
  | some o =>
    obtain ⟨d, hd, hstate, hkept⟩ := hlegal o hr
    rw [runStream_succ n hin hd]
    exact hrest o d (length_of_runSym h.anchor_le hr) hstate hkept

/-- DECODE from a symbol on ends as the listing says, by induction on the symbols after it. -/
theorem beforeSymbol.runStream {k anchor n : Nat} {y : Sym} {ys : List Sym}
    (h : beforeSymbol s size k anchor out y ys u) (hwf : ∀ z ∈ y :: ys, z.wf s.extOn = true)
    (hsum : out.length + ((y :: ys).map Sym.len).sum = size)
    (hfuel : (symPayload y ++ streamBytes (k + 1) ys).length < n) :
    listingEnds s size (runSyms k anchor out (y :: ys)) (runStream n u) := by
  induction ys generalizing k anchor n y out u with
  | nil =>
    obtain ⟨m, rfl⟩ : ∃ m, n = m + 1 := ⟨n - 1, by omega⟩
    rw [List.map_cons, List.sum_cons, List.map_nil, List.sum_nil, Nat.add_zero] at hsum
    refine h.runStream_of_rest (hwf y List.mem_cons_self) hsum.le fun o d ho hd _ => ?_
    have hend : afterSymbol d = decodeFinish d := if_pos (by rw [hd.decodedAll_eq, decide_eq_true_eq]; omega)
    rw [hend, runStream_of_idle m rfl]
    exact listingEnds_decodeFinish hd (ho.trans hsum)
  | cons z zs ih =>
    obtain ⟨m, rfl⟩ : ∃ m, n = m + 1 := ⟨n - 1, by omega⟩
    have hy := hwf y List.mem_cons_self
    have hwf' : ∀ x ∈ z :: zs, x.wf s.extOn = true := fun x hx => hwf x (List.mem_cons_of_mem y hx)
    have hz := Sym.len_pos (hwf' z List.mem_cons_self)
    have hbytes := symPayload_length_pos hy
    simp only [List.map_cons, List.sum_cons, List.length_append] at hsum hfuel
    refine h.runStream_of_rest hy (by omega) fun o d ho hd hkept => ?_
    have hsum' : o.length + ((z :: zs).map Sym.len).sum = size := by
      rw [ho, List.map_cons, List.sum_cons]
      omega
    have hdk : d.dec.k = u.dec.k := by rw [hkept]
    obtain ⟨hfull, -⟩ | ⟨-, hk, hr⟩ | ⟨-, hk, hr⟩ := afterSymbol_cases d
    · rw [hd.announced, hd.cursor] at hfull
      omega
    · have hgroup : (k + 1) % 8 = 0 := by
        have h7 : u.dec.k.val = 7 := congrArg Fin.val (hdk.symm.trans hk)
        have := h.index
        omega
      obtain ⟨v, hv, hbefore⟩ := (hd.withPhase .group).beforeSymbol_of_group hgroup rfl u.dec.anchor.toNat
      rw [streamBytes_cons_of_group hgroup, List.length_append, packSlots_length] at hfuel
      obtain ⟨m', rfl⟩ : ∃ m', m = m' + 1 := ⟨m - 1, by omega⟩
      rw [hr, runStream_succ m' rfl hv]
      exact ih hbefore hwf' hsum' (by omega)
    · rw [hr]
      have hinside : (k + 1) % 8 ≠ 0 := fun h0 => hk (Fin.ext (by
        have := h.index
        rw [hdk]
        change u.dec.k.val = 7
        omega))
      rw [streamBytes_cons_inside hinside] at hfuel
      exact ih (h.next (hdk ▸ hk) hd hkept (by omega)) hwf' hsum' (by omega)

/-- Behind its block header an empty listing is finished, and any other runs from its first group header on. -/
theorem decoding.runStream_of_header {syms : List Sym} {n : Nat} (h : decoding s size [] (streamBytes 0 syms) u)
    (hwf : ∀ y ∈ syms, y.wf s.extOn = true) (hsum : (syms.map Sym.len).sum = size)
    (hfuel : (streamBytes 0 syms).length < n) :
    listingEnds s size (runSyms 0 0 [] syms)
      (runStream n (if decodedAll u then decodeFinish u else u.withPhase .group)) := by
  rw [h.decodedAll_eq]
  cases syms with
  | nil =>
    obtain rfl : 0 = size := hsum
    rw [if_pos (by simp), runStream_of_idle n rfl]
    exact listingEnds_decodeFinish h rfl
  | cons y ys =>
    have hy := Sym.len_pos (hwf y List.mem_cons_self)
    have hpos : ¬ size ≤ ([] : List Byte).length := by
      rw [← hsum, List.map_cons, List.sum_cons, List.length_nil]
      omega
    obtain ⟨v, hv, hbefore⟩ := (h.withPhase .group).beforeSymbol_of_group (Nat.zero_mod 8) rfl 0
    rw [streamBytes_cons_of_group (Nat.zero_mod 8), List.length_append, packSlots_length] at hfuel
    obtain ⟨m, rfl⟩ : ∃ m, n = m + 1 := ⟨n - 1, by omega⟩
    rw [if_neg (by simpa using hpos), runStream_succ m rfl hv]
    exact hbefore.runStream hwf ((Nat.zero_add _).trans hsum) (by omega)

end

/-! ### The command (R125, R126) -/

/-- DECODE goes on from what its block header answers. -/
theorem execDecode_of_header {s u : State} (hlo : 3 ≤ s.inSize) (hhi : s.inSize ≤ s.outputSize)
    (hu : execBlkhdr (le24 (s.inAt 0) (s.inAt 1) (s.inAt 2)) (decodeStart s) = .next u) :
    execDecode s = runStream s.inSize u := by
  unfold execDecode
  rw [if_neg (Nat.not_lt.2 hhi), if_neg (Nat.not_lt.2 hlo)]
  exact runStream_succ s.inSize rfl hu

/-- The payload of a listing is its block header and its stream of groups. -/
theorem assemble_eq (l : Listing) : assemble l = putLE24 l.size ++ streamBytes 0 l.syms := by
  rw [assemble, assembleGroups_eq_streamBytes (Nat.zero_mod 8) le_rfl]

theorem Listing.wf_iff {g : Geometry} {l : Listing} :
    l.wf g = true ↔ (∀ y ∈ l.syms, y.wf l.ext = true) ∧ (l.syms.map Sym.len).sum = l.size ∧ l.size ≤ blockSize g := by
  simp [Listing.wf, and_assoc]

/-- A legal block header sets the announced length and the cursors, and its block ends there if it is empty. -/
theorem execBlkhdr_of_le {size : BitVec 24} {s : State} (h : size.toNat ≤ s.blockSize) :
    ∃ d : DecRegs, d.size = size ∧ d.i = 3#32 ∧ d.j = 0#32 ∧
      execBlkhdr size s =
        .next (if decodedAll (s.withDec d) then decodeFinish (s.withDec d) else (s.withDec d).withPhase .group) :=
  ⟨{ s.dec with size := size, i := 3#32, j := 0#32, fastEnd := word (fastEndOf size.toNat) }, rfl, rfl, rfl,
    if_neg (Nat.not_lt.2 h)⟩

/-- Behind the block header of a payload of `size` announced bytes. -/
theorem decoding_of_header {s : State} {size : Nat} {bytes : List Byte} {d : DecRegs} (hblock : size ≤ s.blockSize)
    (hfits : s.inSize ≤ s.outputSize) (hsize : s.inSize = 3 + bytes.length) (hbytes : s.inRun 3 bytes.length = bytes)
    (hds : d.size = BitVec.ofNat 24 size) (hdi : d.i = 3#32) (hdj : d.j = 0#32) :
    decoding s size [] bytes ((decodeStart s).withDec d) where
  payloadFits := hfits
  blockFits := hblock.trans s.blockSize_le_outputSize
  core := ⟨rfl, rfl, rfl, rfl⟩
  regs := rfl
  announced := by
    change d.size.toNat = size
    rw [hds, BitVec.toNat_ofNat, Nat.mod_eq_of_lt (hblock.trans_lt s.blockSize_lt)]
  cursor := congrArg BitVec.toNat hdj
  written _ ha := absurd ha (Nat.not_lt_zero _)
  left := by
    change d.i.toNat + _ = _
    rw [hdi, hsize]
    rfl
  unread := by
    change s.inRun d.i.toNat _ = _
    rw [hdi]
    exact hbytes

/-- IN holds the payload of a listing: its three header bytes announce the size, and the stream of groups follows. -/
theorem payload_of_listing {s : State} {l : Listing} (hblock : l.size ≤ s.blockSize)
    (hpayload : s.inRun 0 (assemble l).length = assemble l) :
    le24 (s.inAt 0) (s.inAt 1) (s.inAt 2) = BitVec.ofNat 24 l.size ∧
      s.inRun 3 (streamBytes 0 l.syms).length = streamBytes 0 l.syms := by
  rw [assemble_eq, List.length_append, State.inRun_add] at hpayload
  obtain ⟨hheader, hstream⟩ := List.append_inj hpayload (State.inRun_length s _ _)
  change s.inRun 0 3 = _ at hheader
  simp only [inRun_three, putLE24, List.cons.injEq, and_true] at hheader
  obtain ⟨h0, h1, h2⟩ := hheader
  refine ⟨?_, hstream⟩
  rw [h0, h1, h2, le24, putLE24_value (hblock.trans_lt s.blockSize_lt)]

/-- DECODE of the payload of a well-formed listing ends as the listing says. -/
theorem execDecode_of_listing {s : State} {l : Listing} (hwf : l.wf s.build.geometry = true)
    (hfits : s.inSize ≤ s.outputSize) (hsize : s.inSize = (assemble l).length)
    (hpayload : s.inRun 0 (assemble l).length = assemble l) (hext : s.extOn = l.ext) :
    listingEnds s l.size (listingOutput l) (execDecode s) := by
  obtain ⟨hsyms, hsum, hblock⟩ := Listing.wf_iff.1 hwf
  obtain ⟨hheader, hstream⟩ := payload_of_listing hblock hpayload
  replace hsize : s.inSize = 3 + (streamBytes 0 l.syms).length := by
    rw [hsize, assemble_eq, List.length_append]
    rfl
  have hlegal : (BitVec.ofNat 24 l.size).toNat ≤ (decodeStart s).blockSize := (Nat.mod_le _ _).trans hblock
  obtain ⟨d, hds, hdi, hdj, hexec⟩ := execBlkhdr_of_le hlegal
  rw [execDecode_of_header (by omega) hfits (hheader ▸ hexec)]
  exact (decoding_of_header hblock hfits hsize hstream hds hdi hdj).runStream_of_header (hext ▸ hsyms) hsum (by omega)

/-- Settles O48, by the simulation of the listing (`execDecode_of_listing`). -/
theorem decodeOfAssembledListing : Obligations.DecodeOfAssembledListing :=
  fun _ _ hwf hfits hsize hpayload hext =>
    execDecode_of_listing hwf (hsize.trans_le hfits) hsize hpayload hext

end Sys2Proof.Machine

/-! SUPPORT. COPY16 to COPY64 over accepted arguments and outside them, a copy as the copies it is made of, RD16LE and
WR16LE (R65 to R70). -/

namespace Sys2Proof.Machine

/-! ### The argument test of a copy (R65, R162) -/

/-- The arguments that the copy of `n` bytes accepts. -/
def copyAccepts (s : State) (n : Nat) : Prop :=
  s.regs.arg2.toNat ≤ 1 ∧ s.regs.arg0.toNat + n ≤ s.outputSize ∧ s.regs.arg1.toNat + n ≤ s.outputSize

/-- Accepted arguments: the chunks are made in OUT, STATUS is OK, the command ends. -/
theorem copyBytes_of_accepts {chunks : Nat} {s : State} (h : copyAccepts s (16 * chunks)) :
    copyBytes chunks s =
      { copyChunks chunks s (decide (s.regs.arg2.toNat = 1)) s.regs.arg0.toNat s.regs.arg1.toNat with
        phase := .idle, regs := { s.regs with status := 0#8 } } := by
  rw [copyBytes, if_pos ((copyArgsOk_iff s _).2 h), copyChunks_frame]
  rfl

/-- A rejection with ERR_ARG writes STATUS and OUT_SIZE and ends the command (R164). -/
theorem State.reject_errArg (s : State) :
    s.reject .errArg = { s with phase := .idle, regs := { s.regs with status := 9#8, outSize := 0#32 } } := rfl

/-- Any other arguments are rejected. -/
theorem copyBytes_of_bad {chunks : Nat} {s : State}
    (h : 1 < s.regs.arg2.toNat ∨ s.outputSize < s.regs.arg0.toNat + 16 * chunks ∨
      s.outputSize < s.regs.arg1.toNat + 16 * chunks) :
    copyBytes chunks s =
      { s with phase := .idle, regs := { s.regs with status := 9#8, outSize := 0#32 } } := by
  rw [← State.reject_errArg]
  exact if_neg (by rw [copyArgsOk_iff]; omega)

/-! ### The bytes of a copy (R65 to R68) -/

/-- The copy's outcome where each byte comes from the source as it was before the command, with all that it leaves
alone. -/
def bytesCopied (s t : State) (n : Nat) : Prop :=
  (∀ k < n, t.outAt (s.regs.arg0.toNat + k) =
    if s.regs.arg2 = 0#32 then s.inAt (s.regs.arg1.toNat + k) else s.outAt (s.regs.arg1.toNat + k)) ∧
  (∀ a, a < s.regs.arg0.toNat ∨ s.regs.arg0.toNat + n ≤ a → t.outAt a = s.outAt a) ∧
  t.outDraw = s.outDraw ∧ t.phase = .idle ∧ t.regs = { s.regs with status := 0#8 } ∧ t.dec = s.dec ∧ coreKept s t

/-- A range copied as it was: index by index, the source's byte inside and the old byte outside. -/
def rangeCopied (s t : State) (fromOut : Bool) (dst src n : Nat) : Prop :=
  ∀ x, t.outAt x =
    if dst ≤ x ∧ x < dst + n then (if fromOut then s.outAt (src + (x - dst)) else s.inAt (src + (x - dst)))
    else s.outAt x

/-- A copy whose chunks leave the source's old bytes, end to end. -/
theorem bytesCopied_of_rangeCopied {chunks : Nat} {s : State} (h : copyAccepts s (16 * chunks))
    (hrange : rangeCopied s
      (copyChunks chunks s (decide (s.regs.arg2.toNat = 1)) s.regs.arg0.toNat s.regs.arg1.toNat)
      (decide (s.regs.arg2.toNat = 1)) s.regs.arg0.toNat s.regs.arg1.toNat (16 * chunks)) :
    bytesCopied s (copyBytes chunks s) (16 * chunks) := by
  have hsel : decide (s.regs.arg2.toNat = 1) = !decide (s.regs.arg2 = 0#32) := by
    obtain h0 | h1 := word_eq_zero_or_one_of_toNat_le_one h.1 <;> simp [*]
  have hframe := copyChunks_frame chunks s (decide (s.regs.arg2.toNat = 1)) s.regs.arg0.toNat s.regs.arg1.toNat
  rw [copyBytes_of_accepts h]
  refine ⟨fun k hk => ?_, fun a ha => ?_, ?_⟩
  · refine (hrange _).trans ?_
    rw [if_pos (by omega), Nat.add_sub_cancel_left, hsel]
    by_cases h0 : s.regs.arg2 = 0#32 <;> simp [h0]
  · exact (hrange a).trans (if_neg (by omega))
  · rw [hframe]
    exact ⟨rfl, rfl, rfl, rfl, rfl, rfl, rfl, rfl⟩

/-- The wide copies by their number of chunks. -/
theorem exec_wideCopy {i : Instr} {n : Nat}
    (h : (i, n) ∈ [(Instr.copy32, 32), (Instr.copy48, 48), (Instr.copy64, 64)]) :
    ∃ chunks, n = 16 * chunks ∧ ∀ s, exec i s = .next (copyBytes chunks s) := by
  simp only [List.mem_cons, Prod.mk.injEq, List.not_mem_nil, or_false] at h
  obtain ⟨rfl, rfl⟩ | ⟨rfl, rfl⟩ | ⟨rfl, rfl⟩ := h
  · exact ⟨2, rfl, fun _ => rfl⟩
  · exact ⟨3, rfl, fun _ => rfl⟩
  · exact ⟨4, rfl, fun _ => rfl⟩

/-- Settles O12: COPY16 is one chunk, whose 16 bytes are read before the first is written. -/
theorem copy16MovesSixteenBytes : Obligations.Copy16MovesSixteenBytes := fun s =>
  ⟨fun hsel hdst hsrc => ⟨copyBytes 1 s, rfl,
      bytesCopied_of_rangeCopied (chunks := 1) ⟨hsel, hdst, hsrc⟩ (copyChunk_outAt s _ _ _)⟩,
    fun hbad => congrArg Host.Outcome.next (copyBytes_of_bad (chunks := 1) hbad)⟩

/-- Settles O13: where the ranges are apart no chunk reads what an earlier one wrote (`copyChunks_outAt`). -/
theorem wideCopiesMoveTheirBytes : Obligations.WideCopiesMoveTheirBytes := by
  intro s i n hi hsel hdst hsrc hapart
  obtain ⟨chunks, rfl, hexec⟩ := exec_wideCopy hi
  refine ⟨_, hexec s, bytesCopied_of_rangeCopied ⟨hsel, hdst, hsrc⟩ fun x => copyChunks_outAt _ _ _ _ _ x ?_⟩
  intro hout
  refine hapart.resolve_left fun h0 => ?_
  simp [h0] at hout

/-- Settles O15: the argument test of every wide copy is the one of `copyBytes`. -/
theorem wideCopiesRejectBadArguments : Obligations.WideCopiesRejectBadArguments := by
  intro s i n hi hbad
  obtain ⟨chunks, rfl, hexec⟩ := exec_wideCopy hi
  rw [hexec, copyBytes_of_bad hbad]

/-! ### A copy as the copies it is made of (R66) -/

/-- The destination and the source of a copy, as the host writes them. -/
def State.withCopyArgs (s : State) (dst src : Word) : State :=
  { s with regs := { s.regs with arg0 := dst, arg1 := src } }

/-- Chunks read and write the memories only: whatever the registers hold and wherever the unit stands, they leave the
same OUT. -/
theorem copyChunks_withRegs (chunks : Nat) (s : State) (r : HostRegs) (p : Phase) (fromOut : Bool) (dst src : Nat) :
    copyChunks chunks { s with regs := r, phase := p } fromOut dst src =
      { copyChunks chunks s fromOut dst src with regs := r, phase := p } := by
  induction chunks generalizing s dst src with
  | zero => rfl
  | succ n ih => exact ih (copyChunk s fromOut dst src) (dst + 16) (src + 16)

/-- A copy issued with other arguments, in numbers (R65). -/
theorem copyBytes_withCopyArgs {chunks dst src : Nat} {s : State} (hsel : s.regs.arg2.toNat ≤ 1)
    (hdst : dst + 16 * chunks ≤ s.outputSize) (hsrc : src + 16 * chunks ≤ s.outputSize) :
    copyBytes chunks (s.withCopyArgs (word dst) (word src)) =
      { copyChunks chunks s (decide (s.regs.arg2.toNat = 1)) dst src with
        phase := .idle, regs := { s.regs with arg0 := word dst, arg1 := word src, status := 0#8 } } := by
  have hsize := s.outputSize_lt
  have hd : (word dst).toNat = dst := word_toNat (by omega)
  have hs : (word src).toNat = src := word_toNat (by omega)
  have haccepts : copyAccepts (s.withCopyArgs (word dst) (word src)) (16 * chunks) :=
    ⟨hsel, hd.symm ▸ hdst, hs.symm ▸ hsrc⟩
  rw [copyBytes_of_accepts haccepts]
  simp only [State.withCopyArgs, hd, hs]
  rw [copyChunks_withRegs chunks s _ s.phase]
  rfl

/-- A copy of one chunk more is the shorter copy, and COPY16 with the arguments moved on past it. -/
theorem copyBytes_succ {n : Nat} {s : State} (h : copyAccepts s (16 * n + 16)) :
    copyBytes (n + 1) s =
      (copyBytes 1 ((copyBytes n s).withCopyArgs (word (s.regs.arg0.toNat + 16 * n))
        (word (s.regs.arg1.toNat + 16 * n)))).withCopyArgs s.regs.arg0 s.regs.arg1 := by
  obtain ⟨hsel, hdst, hsrc⟩ := h
  have hnarrow := copyBytes_of_accepts (chunks := n) (s := s) ⟨hsel, by omega, by omega⟩
  have hsize : (copyBytes n s).outputSize = s.outputSize := by rw [hnarrow, copyChunks_frame]; rfl
  rw [copyBytes_withCopyArgs (by rwa [hnarrow]) (by omega) (by omega), hnarrow, copyChunks_withRegs,
    copyBytes_of_accepts (chunks := n + 1) ⟨hsel, hdst, hsrc⟩, copyChunks_add]
  rfl

/-- Settles O14: each wide copy is one chunk more than the next narrower one (`copyBytes_succ`). -/
theorem wideCopiesAreChunksInOrder : Obligations.WideCopiesAreChunksInOrder := by
  intro s wide narrow n hi hsel hdst hsrc
  simp only [List.mem_cons, Prod.mk.injEq, List.not_mem_nil, or_false] at hi
  obtain ⟨rfl, rfl, rfl⟩ | ⟨rfl, rfl, rfl⟩ | ⟨rfl, rfl, rfl⟩ := hi
  · exact ⟨_, _, rfl, rfl, congrArg Host.Outcome.next (copyBytes_succ (n := 1) ⟨hsel, hdst, hsrc⟩)⟩
  · exact ⟨_, _, rfl, rfl, congrArg Host.Outcome.next (copyBytes_succ (n := 2) ⟨hsel, hdst, hsrc⟩)⟩
  · exact ⟨_, _, rfl, rfl, congrArg Host.Outcome.next (copyBytes_succ (n := 3) ⟨hsel, hdst, hsrc⟩)⟩

/-! ### The little-endian words (R69, R70) -/

/-- LE16 in a register, by the bytes in registers (R32). -/
theorem word_le16 (b0 b1 : Byte) : word (le16 b0 b1) = b0.setWidth 32 + 256#32 * b1.setWidth 32 := by
  simp [le16, BitVec.ofNat_add, BitVec.ofNat_mul, BitVec.ofNat_toNat]

/-- Byte `k` of a register's number is a slice of the register. -/
theorem byteOf_toNat (w : Word) (k : Nat) : byteOf w.toNat k = w.extractLsb' (8 * k) 8 := rfl

/-- RD16LE where two bytes have room: RES0 and STATUS are written, and the command ends. -/
theorem exec_rd16le_of_room {s : State} (h : s.regs.arg0.toNat + 2 ≤ s.outputSize) :
    exec .rd16le s =
      .next (s.setRes0 (le16 (s.inAt s.regs.arg0.toNat) (s.inAt (s.regs.arg0.toNat + 1)))).complete :=
  if_pos h

/-- Settles O16, by the argument test of RD16LE. -/
theorem rd16leReadsTheLittleEndianWord : Obligations.Rd16leReadsTheLittleEndianWord := by
  refine fun s => ⟨fun hroom => ?_, fun hbad => if_neg (Nat.not_le.2 hbad)⟩
  rw [exec_rd16le_of_room hroom, ← word_le16]
  rfl

/-- WR16LE where two bytes have room and the value has 16 bits: it is stored, and the command ends. -/
theorem exec_wr16le_of_room {s : State} (hroom : s.regs.arg0.toNat + 2 ≤ s.outputSize)
    (hval : s.regs.arg1.toNat ≤ 65535) :
    exec .wr16le s = .next (s.putOut s.regs.arg0.toNat (putLE16 s.regs.arg1.toNat)).complete :=
  if_pos ⟨hroom, hval⟩

/-- Settles O17, by the argument test of WR16LE and the laws of a stored run. -/
theorem wr16leStoresTheLittleEndianWord : Obligations.Wr16leStoresTheLittleEndianWord := by
  refine fun s => ⟨fun hroom hval => ?_, fun hbad => if_neg (by omega)⟩
  have hbyte (k : Nat) (hk : k < (putLE16 s.regs.arg1.toNat).length) :=
    s.outAt_putOut_inside (a := s.regs.arg0.toNat) hk
  refine ⟨_, exec_wr16le_of_room hroom hval, hbyte 0 Nat.two_pos, hbyte 1 Nat.one_lt_two, fun a h0 h1 => ?_,
    rfl, rfl, rfl, rfl, rfl, rfl, rfl, rfl⟩
  exact s.outAt_putOut_outside (by simp only [putLE16, List.length_cons, List.length_nil]; omega)

end Sys2Proof.Machine

/-! SUPPORT. The match length as its capped run, HASH4, MATCHLEN and PROBE by their argument tests, and what a probe
answers in each of its cases (R80 to R98). -/

namespace Sys2Proof.Machine

/-! ### HASH4, MATCHLEN and PROBE by their argument tests (R83, R86, R95) -/

/-- The fold of R81 in a register, by the symbol in a register. -/
theorem ofNat_foldHash (width : Nat) (v : Word) :
    BitVec.ofNat 32 (foldHash width v) = (v >>> (32 - width)) ^^^ (v &&& BitVec.ofNat 32 (2 ^ width - 1)) := by
  simp only [foldHash, ← BitVec.toNat_ushiftRight, BitVec.ofNat_xor, BitVec.ofNat_and, BitVec.ofNat_toNat,
    BitVec.setWidth_eq]

/-- Settles O18: per selector, the register form of the fold (`ofNat_foldHash`). -/
theorem hash4FoldsTheSymbol : Obligations.Hash4FoldsTheSymbol := by
  refine fun s => ⟨fun hsel hfold => ?_, fun hsel hfold => ?_, fun hsel => if_pos hsel⟩
  · rw [exec_hash4_fast hsel, hashF, hfold]
    exact congrArg _ (ofNat_foldHash _ _ ▸ rfl)
  · rw [exec_hash4_multi hsel, hashM, hfold]
    exact congrArg _ (ofNat_foldHash _ _ ▸ rfl)

/-- Settles O22, by the size test of MATCHLEN. -/
theorem matchlenReportsMatchLen : Obligations.MatchlenReportsMatchLen :=
  fun _ => ⟨fun hsize => if_neg (Nat.not_lt.2 hsize), fun hsize => if_pos hsize⟩

/-- PROBE with a legal size: the context and the results are the probe's, and the command ends. -/
theorem exec_probe_of_size {s : State} (h : s.regs.arg2.toNat ≤ s.blockSize) {r : ProbeResult} {c : Ctx}
    (hr : probeIndex s.build s.inMem s.ctx s.regs.arg0.toNat s.regs.arg1.toNat s.regs.arg2.toNat s.extOn = (r, c)) :
    exec .probe s = .next ((s.withCtx c).setProbeResult r).complete := by
  refine (if_neg (Nat.not_lt.2 h)).trans ?_
  simp only [hr]

/-- Settles O23: the size test of PROBE, then the two forms of a result; a length comes out of MatchLen. -/
theorem probeReportsItsResult : Obligations.ProbeReportsItsResult := by
  refine fun s => ⟨fun hsize => ?_, fun hsize => if_pos hsize⟩
  obtain ⟨r, c, hr⟩ : ∃ r c, probeIndex s.build s.inMem s.ctx s.regs.arg0.toNat s.regs.arg1.toNat s.regs.arg2.toNat
    s.extOn = (r, c) := ⟨_, _, rfl⟩
  obtain ⟨hdirty, hlevel, -⟩ := probeIndex_frame s.build s.inMem s.ctx s.regs.arg0.toNat s.regs.arg1.toNat
    s.regs.arg2.toNat s.extOn
  rw [hr] at hdirty hlevel
  have hexec := exec_probe_of_size hsize hr
  refine ⟨r, c, hr, hdirty, hlevel, ?_, ?_⟩
  · rintro rfl
    exact hexec
  · rintro len pos rfl
    exact ⟨(probeIndex_eq_some (congrArg Prod.fst hr)).1, hexec⟩

/-! ### The match length as its capped run (R84, R85) -/

/-- The run of equal bytes at `first` and `second`, as long as the caps of R84 let it be: `most`, the anchor, the size,
the distance. -/
def cappedRun (m : Memory) (first second anchor size most n : Nat) : Prop :=
  n ≤ most ∧ first + n ≤ anchor ∧ second + n ≤ size ∧ n ≤ second - first ∧
  (∀ k < n, inByte m (first + k) = inByte m (second + k)) ∧
  (n < most → first + n < anchor → second + n < size → n < second - first →
    inByte m (first + n) ≠ inByte m (second + n))

section
variable {m : Memory} {first second anchor size : Nat}

theorem cappedRun_commonPrefix {most : Nat} (hanchor : first < anchor) (hsize : second < size) :
    cappedRun m first second anchor size most
      (commonPrefix m first second (min (min most (anchor - first)) (min (size - second) (second - first)))) := by
  obtain ⟨hcap, hequal, hstop⟩ :=
    commonPrefix_spec m first second (min (min most (anchor - first)) (min (size - second) (second - first)))
  exact ⟨by omega, by omega, by omega, by omega, hequal, fun _ _ _ _ => hstop (by omega)⟩

/-- Where the guard holds, MatchLen is the capped run, rounded under EXT, or 0 where that is below 4. -/
theorem matchLen_eq_cappedRun (ext : Bool)
    (h : first < second ∧ first < anchor ∧ anchor ≤ second ∧ second < size) :
    ∃ n, cappedRun m first second anchor size (if ext then maxMatchExt else maxMatch) n ∧
      matchLen m first second anchor size ext =
        if minMatch ≤ (if ext then encodableLength n else n) then (if ext then encodableLength n else n) else 0 := by
  obtain ⟨-, hanchor, -, hsize⟩ := id h
  exact ⟨_, cappedRun_commonPrefix hanchor hsize, if_pos h⟩

end

/-- Settles O20, by the capped run of MatchLen. -/
theorem matchLenIsTheCappedRun : Obligations.MatchLenIsTheCappedRun := by
  refine fun m first second anchor size => ⟨fun hbad => if_neg hbad, fun hbefore hanchor hafter hsize => ?_⟩
  obtain ⟨n, ⟨hcap, hanchorCap, hsizeCap, hgap, hequal, hstop⟩, hlen⟩ :=
    matchLen_eq_cappedRun (m := m) false ⟨hbefore, hanchor, hafter, hsize⟩
  exact ⟨n, hcap, hanchorCap, hsizeCap, hgap, hequal, hstop, hlen⟩

/-- The lengths that rounding can leave of a run within the cap, or 0 below 4 (R85). -/
theorem ite_minMatch_encodableLength {n : Nat} (h : n ≤ 64) :
    (if minMatch ≤ encodableLength n then encodableLength n else 0) =
      if n = 64 then 64 else if 48 ≤ n then 48 else if 32 ≤ n then 32 else if 16 ≤ n then 16
        else if 4 ≤ n then n else 0 := by
  unfold encodableLength minMatch
  split_ifs <;> omega

/-- Settles O21, by the capped run of MatchLen and its rounding. -/
theorem matchLenRoundsToEncodableLengths : Obligations.MatchLenRoundsToEncodableLengths := by
  refine fun m first second anchor size => ⟨fun hbad => if_neg hbad, fun hbefore hanchor hafter hsize => ?_⟩
  obtain ⟨n, ⟨hcap, hanchorCap, hsizeCap, hgap, hequal, hstop⟩, hlen⟩ :=
    matchLen_eq_cappedRun (m := m) true ⟨hbefore, hanchor, hafter, hsize⟩
  exact ⟨n, hcap, hanchorCap, hsizeCap, hgap, hequal, hstop, hlen.trans (ite_minMatch_encodableLength hcap)⟩

/-! ### Where a probe goes (R80, R87) -/

section
variable {b : Build} {m : Memory} {c : Ctx} {i anchor size : Nat} {ext : Bool}

/-- Within 3 bytes of the end a probe sets DIRTY and answers None. -/
theorem probeIndex_near_end (h : size < i + 4) :
    probeIndex b m c i anchor size ext = (none, { c with dirty := true }) := if_pos h

/-- At level 0 a probe with room for a symbol is FastRef's. -/
theorem probeIndex_fast (hroom : i + 4 ≤ size) (hlevel : c.level = 0#4) :
    probeIndex b m c i anchor size ext = probeFast b m { c with dirty := true } (symAt m i) i anchor size ext :=
  (if_neg (Nat.not_lt.2 hroom)).trans (if_pos hlevel)

/-- At any other level it is MultiRef's. -/
theorem probeIndex_multi (hroom : i + 4 ≤ size) (hlevel : c.level ≠ 0#4) :
    probeIndex b m c i anchor size ext = probeMulti b m { c with dirty := true } (symAt m i) i anchor size ext :=
  (if_neg (Nat.not_lt.2 hroom)).trans (if_neg hlevel)

end

/-- Settles O24, by the first test of a probe. -/
theorem probeNearTheEndReturnsNoneAndSetsDirty : Obligations.ProbeNearTheEndReturnsNoneAndSetsDirty :=
  fun _ _ _ _ _ _ _ h => probeIndex_near_end h

/-- A written entry leaves the others of its bucket. -/
theorem entry_set_other {α : Type} (xs : Vector α 4) {e f : Fin 4} (v : α) (h : f ≠ e) : (xs.set e v)[f] = xs[f] :=
  Vector.getElem_set_ne e.isLt f.isLt fun hval => h (Fin.ext hval.symm)

/-! ### ProbeFast, case by case (R88 to R90) -/

section
variable {b : Build} {m : Memory} {c : Ctx} {sym : Word} {h i anchor size : Nat} {ext : Bool} {e : Fin 4}

/-- A hit with a match refreshes the entry's position and answers the old one (R89). -/
theorem probeFast_hit (hbucket : h = hashF b sym) (hfound : findFast (fastAt c h) sym = some e)
    (hlen : 4 ≤ matchLen m ((fastAt c h).entry[e]).pos.toNat i anchor size ext) :
    probeFast b m c sym i anchor size ext =
      (some (matchLen m ((fastAt c h).entry[e]).pos.toNat i anchor size ext, ((fastAt c h).entry[e]).pos.toNat),
      setFast c h ⟨(fastAt c h).count, (fastAt c h).entry.set e ⟨sym, word i⟩⟩) := by
  subst hbucket
  obtain ⟨⟨-, hsym⟩, -⟩ := findFast_eq_some.1 hfound
  simp only [probeFast, hfound, hsym]
  exact if_pos hlen

/-- A hit without a match leaves the context (R89). -/
theorem probeFast_hit_short (hbucket : h = hashF b sym) (hfound : findFast (fastAt c h) sym = some e)
    (hlen : matchLen m ((fastAt c h).entry[e]).pos.toNat i anchor size ext < 4) :
    probeFast b m c sym i anchor size ext = (none, c) := by
  subst hbucket
  simp only [probeFast, hfound]
  exact if_neg (Nat.not_le.2 hlen)

/-- A miss appends the symbol at the bucket's count, where it has room (R90). -/
theorem probeFast_miss (hbucket : h = hashF b sym) (hmissed : findFast (fastAt c h) sym = none)
    (hcount : (fastAt c h).count.toNat = e.val) :
    probeFast b m c sym i anchor size ext =
      (none, setFast c h ⟨(fastAt c h).count + 1#8, (fastAt c h).entry.set e ⟨sym, word i⟩⟩) := by
  subst hbucket
  simp only [probeFast, hmissed, hcount, e.isLt, dif_pos]

/-- A miss in a full bucket leaves the context (R90). -/
theorem probeFast_miss_full (hbucket : h = hashF b sym) (hmissed : findFast (fastAt c h) sym = none)
    (hfull : 4 ≤ (fastAt c h).count.toNat) : probeFast b m c sym i anchor size ext = (none, c) := by
  subst hbucket
  simp only [probeFast, hmissed]
  exact dif_neg (Nat.not_lt.2 hfull)

end

/-- One entry of a bucket written, with the bucket's count: every other entry and bucket reads as before. -/
def fastEntryWritten (c c' : Ctx) (h : Nat) (e : Fin 4) (n : Byte) (v : FastEntry) : Prop :=
  (fastAt c' h).count = n ∧ (fastAt c' h).entry[e] = v ∧
  (∀ f : Fin 4, f ≠ e → (fastAt c' h).entry[f] = (fastAt c h).entry[f]) ∧ ∀ g, g ≠ h → fastAt c' g = fastAt c g

theorem fastEntryWritten_setFast (c : Ctx) (h : Nat) (e : Fin 4) (n : Byte) (v : FastEntry) :
    fastEntryWritten c (setFast c h ⟨n, (fastAt c h).entry.set e v⟩) h e n v := by
  refine ⟨?_, ?_, fun f hf => ?_, fun g hg => ?_⟩
  · rw [fastAt_setFast, if_pos rfl]
  · rw [fastAt_setFast, if_pos rfl]
    exact Vector.getElem_set_self e.isLt
  · rw [fastAt_setFast, if_pos rfl]
    exact entry_set_other _ _ hf
  · rw [fastAt_setFast, if_neg hg]

/-- Settles O25: the scan finds the entry, and the match length decides whether it is refreshed. -/
theorem fastRefHitRefreshesTheEntry : Obligations.FastRefHitRefreshesTheEntry := by
  rintro b m c i anchor size ext h e hlevel hroom hbucket hlive hsym hfirst
  have hfound : findFast (fastAt { c with dirty := true } h) (symAt m i) = some e :=
    findFast_eq_some.2 ⟨⟨hlive, hsym⟩, fun f hf _ => hfirst f hf⟩
  rw [probeIndex_fast hroom hlevel]
  refine ⟨fun hlen => ⟨_, probeFast_hit hbucket hfound hlen, ?_⟩, probeFast_hit_short hbucket hfound⟩
  obtain ⟨hcount, hentry, hothers, hbuckets⟩ := fastEntryWritten_setFast { c with dirty := true } h e
    (fastAt c h).count ⟨symAt m i, word i⟩
  exact ⟨hcount, hentry, hothers, hbuckets, rfl, rfl, rfl, rfl, rfl⟩

/-- A count below four goes up by one. -/
theorem toNat_add_one_of_lt_four {n : Byte} {k : Fin 4} (h : n.toNat = k.val) : (n + 1#8).toNat = k.val + 1 := by
  bv_omega

/-- Settles O26: the scan finds nothing, and the bucket's count decides whether the symbol is appended. -/
theorem fastRefMissAppends : Obligations.FastRefMissAppends := by
  rintro b m c i anchor size ext h hlevel hroom hbucket hnone
  have hmissed : findFast (fastAt { c with dirty := true } h) (symAt m i) = none := findFast_eq_none.2 hnone
  rw [probeIndex_fast hroom hlevel]
  refine ⟨fun k hk => ⟨_, probeFast_miss hbucket hmissed hk, ?_⟩, probeFast_miss_full hbucket hmissed⟩
  obtain ⟨hcount, hentry, hothers, hbuckets⟩ := fastEntryWritten_setFast { c with dirty := true } h k
    ((fastAt c h).count + 1#8) ⟨symAt m i, word i⟩
  exact ⟨(congrArg _ hcount).trans (toNat_add_one_of_lt_four hk), hentry, hothers, hbuckets, rfl, rfl, rfl, rfl, rfl⟩

/-! ### ProbeMulti, case by case (R91 to R94) -/

section
variable {b : Build} {m : Memory} {c : Ctx} {sym : Word} {h i anchor size : Nat} {ext : Bool} {e : Fin 4}

/-- A hit on a symbol seen once (R91). -/
theorem probeMulti_once (hbucket : h = hashM b sym) (hfound : findMulti (multiAt c h) sym = some e)
    (hocc : ((multiAt c h).entry[e]).occ = 1#32) :
    probeMulti b m c sym i anchor size ext = probeMultiOnce b m c h e i anchor size ext := by
  subst hbucket
  simp only [probeMulti, hfound]
  exact if_pos hocc

/-- A hit on a symbol seen more often (R91). -/
theorem probeMulti_again (hbucket : h = hashM b sym) (hfound : findMulti (multiAt c h) sym = some e)
    (hocc : ((multiAt c h).entry[e]).occ ≠ 1#32) :
    probeMulti b m c sym i anchor size ext = probeMultiAgain b m c h e i anchor size ext := by
  subst hbucket
  simp only [probeMulti, hfound]
  exact if_neg hocc

/-- A miss appends the symbol, seen once, at the bucket's count, where it has room (R94). -/
theorem probeMulti_miss (hbucket : h = hashM b sym) (hmissed : findMulti (multiAt c h) sym = none)
    (hcount : (multiAt c h).count.toNat = e.val) :
    probeMulti b m c sym i anchor size ext =
      (none, setMulti c h ⟨(multiAt c h).count + 1#8, (multiAt c h).entry.set e ⟨sym, word i, 1#32⟩⟩) := by
  subst hbucket
  simp only [probeMulti, hmissed, hcount, e.isLt, dif_pos]

/-- A miss in a full bucket leaves the context (R94). -/
theorem probeMulti_miss_full (hbucket : h = hashM b sym) (hmissed : findMulti (multiAt c h) sym = none)
    (hfull : 4 ≤ (multiAt c h).count.toNat) : probeMulti b m c sym i anchor size ext = (none, c) := by
  subst hbucket
  simp only [probeMulti, hmissed]
  exact dif_neg (Nat.not_lt.2 hfull)

/-- The context with a slot taken at the pool cursor, which holds two positions (R92). -/
def takeSlot (b : Build) (c : Ctx) (orig new : Word) : Ctx :=
  setPool b (setPool b { c with poolCur := word (c.poolCur.toNat + slotWidth c.level) } c.poolCur.toNat orig)
    (c.poolCur.toNat + 1) new

/-- With a match and room in the pool the entry takes a slot (R92). -/
theorem probeMultiOnce_takes_slot (hsym : ((multiAt c h).entry[e]).sym = sym)
    (hlen : 4 ≤ matchLen m ((multiAt c h).entry[e]).pos.toNat i anchor size ext)
    (hfits : c.poolCur.toNat + slotWidth c.level ≤ b.poolEntries.toNat) :
    probeMultiOnce b m c h e i anchor size ext =
      (some (matchLen m ((multiAt c h).entry[e]).pos.toNat i anchor size ext, ((multiAt c h).entry[e]).pos.toNat),
        setMulti (takeSlot b c ((multiAt c h).entry[e]).pos (word i)) h
          ⟨(multiAt c h).count, (multiAt c h).entry.set e ⟨sym, c.poolCur, 2#32⟩⟩) := by
  subst hsym
  exact (if_neg (Nat.not_lt.2 hlen)).trans (if_neg (Nat.not_lt.2 hfits))

/-- Without a match or without room the context stays (R92). -/
theorem probeMultiOnce_none (hbad : matchLen m ((multiAt c h).entry[e]).pos.toNat i anchor size ext < 4 ∨
    b.poolEntries.toNat < c.poolCur.toNat + slotWidth c.level) :
    probeMultiOnce b m c h e i anchor size ext = (none, c) := by
  by_cases hlen : matchLen m ((multiAt c h).entry[e]).pos.toNat i anchor size ext < 4
  · exact if_pos hlen
  · exact (if_neg hlen).trans (if_pos (hbad.resolve_left hlen))

variable {base occ : Word}

/-- Without an eligible word in the slot the context stays (R93). -/
theorem probeMultiAgain_none (hentry : (multiAt c h).entry[e] = ⟨sym, base, occ⟩)
    (hbest : bestCandidate b m c base.toNat (min occ.toNat (slotWidth c.level)) i anchor size ext = none) :
    probeMultiAgain b m c h e i anchor size ext = (none, c) := by
  simp only [probeMultiAgain, hentry, hbest]

/-- With one, the position joins the ring and the entry counts it (R93). -/
theorem probeMultiAgain_some {r : Nat × Nat} (hentry : (multiAt c h).entry[e] = ⟨sym, base, occ⟩)
    (hbest : bestCandidate b m c base.toNat (min occ.toNat (slotWidth c.level)) i anchor size ext = some r) :
    probeMultiAgain b m c h e i anchor size ext =
      (some r, setMulti (setPool b c (base.toNat + occ.toNat % slotWidth c.level) (word i)) h
        ⟨(multiAt c h).count, (multiAt c h).entry.set e ⟨sym, base, oneMore occ⟩⟩) := by
  simp only [probeMultiAgain, hentry, hbest]

end

/-- One entry of a bucket written, with the bucket's count: every other entry and bucket reads as before. -/
def multiEntryWritten (c c' : Ctx) (h : Nat) (e : Fin 4) (n : Byte) (v : MultiEntry) : Prop :=
  (multiAt c' h).count = n ∧ (multiAt c' h).entry[e] = v ∧
  (∀ f : Fin 4, f ≠ e → (multiAt c' h).entry[f] = (multiAt c h).entry[f]) ∧ ∀ g, g ≠ h → multiAt c' g = multiAt c g

theorem multiEntryWritten_setMulti {c c' : Ctx} (hmulti : c'.multi = c.multi) (h : Nat) (e : Fin 4) (n : Byte)
    (v : MultiEntry) : multiEntryWritten c (setMulti c' h ⟨n, (multiAt c h).entry.set e v⟩) h e n v := by
  refine ⟨?_, ?_, fun f hf => ?_, fun g hg => ?_⟩
  · rw [multiAt_setMulti, if_pos rfl]
  · rw [multiAt_setMulti, if_pos rfl]
    exact Vector.getElem_set_self e.isLt
  · rw [multiAt_setMulti, if_pos rfl]
    exact entry_set_other _ _ hf
  · rw [multiAt_setMulti, if_neg hg, multiAt, hmulti]
    rfl

/-- Settles O29: the scan finds nothing, and the bucket's count decides whether the symbol is appended. -/
theorem multiRefMissAppends : Obligations.MultiRefMissAppends := by
  rintro b m c i anchor size ext h hlevel hroom hbucket hnone
  have hmissed : findMulti (multiAt { c with dirty := true } h) (symAt m i) = none := findMulti_eq_none.2 hnone
  rw [probeIndex_multi hroom hlevel]
  refine ⟨fun k hk => ⟨_, probeMulti_miss hbucket hmissed hk, ?_⟩, probeMulti_miss_full hbucket hmissed⟩
  obtain ⟨hcount, hentry, hothers, hbuckets⟩ := multiEntryWritten_setMulti (c := { c with dirty := true }) rfl h k
    ((multiAt c h).count + 1#8) ⟨symAt m i, word i, 1#32⟩
  exact ⟨(congrArg _ hcount).trans (toNat_add_one_of_lt_four hk), hentry, hothers, hbuckets, rfl, rfl, rfl, rfl, rfl⟩

/-! ### A symbol seen once takes a slot (R92) -/

/-- Past level 0 a slot has room for two positions (R80). -/
theorem two_le_slotWidth {level : BitVec 4} (h : level ≠ 0#4) : 2 ≤ slotWidth level := by
  have hpos : level.toNat ≠ 0 := fun h0 => h (BitVec.eq_of_toNat_eq h0)
  exact Nat.le_min.2 ⟨Nat.le_self_pow hpos 2, by decide⟩

@[simp] theorem takeSlot_fast (b : Build) (c : Ctx) (orig new : Word) : (takeSlot b c orig new).fast = c.fast := by
  simp [takeSlot]
@[simp] theorem takeSlot_multi (b : Build) (c : Ctx) (orig new : Word) : (takeSlot b c orig new).multi = c.multi := by
  simp [takeSlot]
@[simp] theorem takeSlot_level (b : Build) (c : Ctx) (orig new : Word) : (takeSlot b c orig new).level = c.level := by
  simp [takeSlot]
@[simp] theorem takeSlot_dirty (b : Build) (c : Ctx) (orig new : Word) : (takeSlot b c orig new).dirty = c.dirty := by
  simp [takeSlot]
@[simp] theorem takeSlot_poolCur (b : Build) (c : Ctx) (orig new : Word) :
    (takeSlot b c orig new).poolCur = word (c.poolCur.toNat + slotWidth c.level) := by
  simp [takeSlot]

/-- The pool after a slot of at least two words was taken: its first two hold the positions. -/
theorem poolAt_takeSlot {b : Build} {c : Ctx} (orig new : Word) (hlevel : c.level ≠ 0#4)
    (hfits : c.poolCur.toNat + slotWidth c.level ≤ b.poolEntries.toNat) (k : Nat) :
    poolAt b (takeSlot b c orig new) k =
      if k = c.poolCur.toNat + 1 then new else if k = c.poolCur.toNat then orig else poolAt b c k := by
  have hwidth := two_le_slotWidth hlevel
  have hfirst : c.poolCur.toNat < b.poolEntries.toNat := by omega
  have hsecond : c.poolCur.toNat + 1 < b.poolEntries.toNat := by omega
  simp only [takeSlot, poolAt_setPool, hfirst, hsecond, and_true]
  rfl

/-- Settles O27: the scan finds the entry, and the match length and the pool decide whether it takes a slot. -/
theorem multiRefFirstRepeatTakesASlot : Obligations.MultiRefFirstRepeatTakesASlot := by
  rintro b m c i anchor size ext h e hlevel hroom hbucket hlive hsym hfirst hocc
  have hfound : findMulti (multiAt { c with dirty := true } h) (symAt m i) = some e :=
    findMulti_eq_some.2 ⟨⟨hlive, hsym⟩, fun f hf _ => hfirst f hf⟩
  rw [probeIndex_multi hroom hlevel, probeMulti_once hbucket hfound hocc]
  refine ⟨fun hlen hfits => ⟨_, probeMultiOnce_takes_slot hsym hlen hfits, ?_⟩, fun hbad => probeMultiOnce_none hbad⟩
  have hpool := poolAt_takeSlot (c := { c with dirty := true }) ((multiAt c h).entry[e]).pos (word i) hlevel hfits
  obtain ⟨hcount, hentry, hothers, hbuckets⟩ := multiEntryWritten_setMulti (c := { c with dirty := true })
    (takeSlot_multi b _ ((multiAt c h).entry[e]).pos (word i)) h e (multiAt c h).count ⟨symAt m i, c.poolCur, 2#32⟩
  refine ⟨?_, ?_, ?_, fun k hk hk' => ?_, hcount, hentry, hothers, hbuckets, takeSlot_fast .., takeSlot_level ..,
    takeSlot_dirty ..⟩
  · exact (congrArg BitVec.toNat (takeSlot_poolCur ..)).trans (word_toNat (hfits.trans_lt b.poolEntries.isLt))
  · exact (hpool _).trans (by simp)
  · exact (hpool _).trans (by simp)
  · exact (hpool k).trans ((if_neg hk').trans (if_neg hk))

/-! ### A symbol seen again rings its position in (R93) -/

/-- An occurrence count of at least 2 is not the 1 of a symbol seen once. -/
theorem ne_one_of_two_le {occ : Word} (h : 2 ≤ occ.toNat) : occ ≠ 1#32 := by
  rintro rfl
  exact absurd h (by decide)

/-- The best candidate is an eligible slot word that no other eligible one beats, in length or in position at its
length. -/
theorem bestCandidate_eq_some {b : Build} {m : Memory} {c : Ctx} {base cnt i anchor size : Nat} {ext : Bool}
    {r : Nat × Nat} {pos : Nat → Nat} (hpos : ∀ k, pos k = (poolAt b c (base + k)).toNat)
    (h : bestCandidate b m c base cnt i anchor size ext = some r) :
    ∃ k < cnt, r = (matchLen m (pos k) i anchor size ext, pos k) ∧
      (4 ≤ matchLen m (pos k) i anchor size ext ∧ anchor - pos k < 65504) ∧
      ∀ j < cnt, 4 ≤ matchLen m (pos j) i anchor size ext → anchor - pos j < 65504 →
        matchLen m (pos j) i anchor size ext < matchLen m (pos k) i anchor size ext ∨
          (matchLen m (pos j) i anchor size ext = matchLen m (pos k) i anchor size ext ∧ pos j ≤ pos k) := by
  obtain ⟨k, hk, hr, hlen, hnear⟩ := bestCandidate_eligible h
  rw [← hpos k] at hr
  subst hr
  exact ⟨k, hk, rfl, ⟨hlen, hnear⟩, (bestCandidate_spec b m c base cnt i anchor size ext pos hpos).2 _ h⟩

/-- Settles O28: the scan finds the entry, and the best candidate of its slot is the result. -/
theorem multiRefRepeatPicksTheBest : Obligations.MultiRefRepeatPicksTheBest := by
  rintro b m c i anchor size ext h e base occ _ len pos hlevel hroom hbucket hlive hentry hfirst hocc rfl hpos hlen
  obtain rfl : len = fun k => matchLen m (pos k) i anchor size ext := funext hlen
  have hfound : findMulti (multiAt { c with dirty := true } h) (symAt m i) = some e :=
    findMulti_eq_some.2 ⟨⟨hlive, congrArg MultiEntry.sym hentry⟩, fun f hf _ => hfirst f hf⟩
  have hagain : ((multiAt c h).entry[e]).occ ≠ 1#32 := hentry ▸ ne_one_of_two_le hocc
  rw [probeIndex_multi hroom hlevel, probeMulti_again hbucket hfound hagain]
  cases hbest : bestCandidate b m { c with dirty := true } base.toNat (min occ.toNat (slotWidth c.level)) i anchor size
    ext with
  | none =>
    have hineligible := (bestCandidate_spec b m { c with dirty := true } _ _ i anchor size ext pos hpos).1 hbest
    exact ⟨fun _ => probeMultiAgain_none hentry hbest,
      fun ⟨k, hk, heligible⟩ => absurd heligible (hineligible k hk)⟩
  | some r =>
    obtain ⟨k, hk, rfl, heligible, hmax⟩ := bestCandidate_eq_some (c := { c with dirty := true }) hpos hbest
    refine ⟨fun hineligible => absurd heligible (hineligible k hk), fun _ =>
      ⟨k, _, hk, heligible.1, heligible.2, probeMultiAgain_some hentry hbest, hmax, fun hring => ?_, fun j hj => ?_, ?_⟩⟩
    · have hslot := Nat.mod_lt occ.toNat (slotWidth_pos c.level)
      exact (poolAt_setPool ..).trans (if_pos ⟨rfl, (Nat.add_lt_add_left hslot _).trans_le hring⟩)
    · exact (poolAt_setPool ..).trans (if_neg fun hwritten => hj hwritten.1)
    · obtain ⟨hcount, hwritten, hothers, hbuckets⟩ := multiEntryWritten_setMulti (c := { c with dirty := true })
        (setPool_multi b _ (base.toNat + occ.toNat % slotWidth c.level) (word i)) h e (multiAt c h).count
        ⟨symAt m i, base, oneMore occ⟩
      exact ⟨hcount, congrArg MultiEntry.sym hwritten, congrArg MultiEntry.pos hwritten,
        fun hfits => (congrArg (fun v => v.occ.toNat) hwritten).trans (oneMore_toNat hfits), hothers, hbuckets,
        setPool_fast .., setPool_poolCur .., setPool_level .., setPool_dirty ..⟩

/-! ### What a result guarantees (R98) -/

/-- A MultiRef hit on a symbol seen more often answers a position less than 65 504 before the anchor (R93). -/
theorem probeMultiAgain_distance {b : Build} {m : Memory} {c : Ctx} {h i anchor size len pos : Nat} {ext : Bool}
    {e : Fin 4} (hr : (probeMultiAgain b m c h e i anchor size ext).1 = some (len, pos)) : anchor - pos < 65504 := by
  cases hbest : bestCandidate b m c ((multiAt c h).entry[e]).pos.toNat
    (min ((multiAt c h).entry[e]).occ.toNat (slotWidth c.level)) i anchor size ext with
  | none =>
    rw [probeMultiAgain_none rfl hbest] at hr
    cases hr
  | some r =>
    rw [probeMultiAgain_some rfl hbest] at hr
    obtain rfl := Option.some.inj hr
    obtain ⟨-, -, -, -, hdistance⟩ := bestCandidate_eligible hbest
    exact hdistance

/-- A probe that answers a position has a symbol to look up. -/
theorem room_of_probeIndex_eq_some {b : Build} {m : Memory} {c : Ctx} {i anchor size : Nat} {ext : Bool} {r : Nat × Nat}
    (hr : (probeIndex b m c i anchor size ext).1 = some r) : i + 4 ≤ size := by
  by_contra hnear
  rw [probeIndex_near_end (Nat.not_le.1 hnear)] at hr
  cases hr

/-- Settles O30: the length of every result comes out of MatchLen, and R93 filters its candidates by distance. -/
theorem probeResultIsARealRun : Obligations.ProbeResultIsARealRun := by
  intro b m c c' i anchor size len pos ext hr
  have hresult := congrArg Prod.fst hr
  obtain ⟨hmin, rfl⟩ := probeIndex_eq_some hresult
  obtain ⟨hbefore, hafter, hanchor, hsize, hequal, hform⟩ := matchLen_run hmin
  refine ⟨hbefore, hafter, hanchor, hsize, hequal, hform.imp_left fun h16 => ⟨hmin, h16⟩, fun e hlevel hfound hocc => ?_⟩
  rw [probeIndex_multi (room_of_probeIndex_eq_some hresult) hlevel,
    probeMulti_again (c := { c with dirty := true }) rfl hfound (ne_one_of_two_le hocc)] at hresult
  exact probeMultiAgain_distance hresult

end Sys2Proof.Machine

/-! SUPPORT. The encoder's refusals, its empty block, its greatest payload, its accepted candidates. -/

namespace Sys2Proof.Machine

theorem exec_encode (s : State) : exec .encode s = execEncode s := rfl

/-! ### The refusals of ENCODE (R105, R163) -/

theorem execEncode_of_long {s : State} (h : s.blockSize < s.inSize) : execEncode s = .next (s.reject .errInsize) :=
  if_pos h

theorem execEncode_of_dirty {s : State} (hsize : s.inSize ≤ s.blockSize) (hdirty : s.ctx.dirty = true) :
    execEncode s = .next (s.reject .errNotReset) :=
  (if_neg (Nat.not_lt.2 hsize)).trans (if_pos hdirty)

/-- Settles O31: the two tests of ENCODE in their order, each with its rejection. -/
theorem encodeRefusesBeforeAnyEffect : Obligations.EncodeRefusesBeforeAnyEffect :=
  fun _ => ⟨execEncode_of_long, execEncode_of_dirty⟩

/-! ### The greatest payload and the empty block (R114, R117 (c)) -/

/-- Settles O33: the scan's budget bounds the cursor of the tail, and OUT_SIZE is that cursor. -/
theorem encodeOutputIsBounded : Obligations.EncodeOutputIsBounded := by
  intro s t hsize hclean ht
  obtain ⟨-, -, v, -, -, -, -, -, -, hbound, hroom, hexec⟩ := execEncode_trace hsize hclean
  obtain rfl := Host.Outcome.next.inj (hexec.symm.trans ht)
  rw [encodeFinish_regs]
  exact ⟨hbound, hroom⟩

/-- Nothing to scan and nothing held: an empty block is its header alone (R114). -/
theorem execEncode_of_empty {s : State} (hsize : s.inSize = 0) (hclean : s.ctx.dirty = false) :
    execEncode s = .next (encodeFinish (encodeStart s)) := by
  have hlegal : ¬ s.blockSize < s.inSize := hsize ▸ Nat.not_lt_zero _
  have htail : encodeTail (encodeStart s) = .next (encodeStart s) := rfl
  rw [execEncode, if_neg hlegal, if_neg (by rw [hclean]; decide), hsize, scanLoop, andThen_next, htail, andThen_next]

/-- Below OUT_SIZE, OUT reads after ENCODE as the tail left it: every byte there has been stored (R42, R115). -/
theorem outAt_encodeFinish {s v : State} (h : encodeKept (encodeStart s) v) {a : Nat} (ha : a < v.enc.o.toNat) :
    (encodeFinish v).outAt a = v.outAt a := by
  obtain ⟨-, -, -, bytes, hstores⟩ := h
  have hspecified := hstores.isSome_below fun x hx => Memory.isSome_get?_putRun (.inl ⟨Nat.zero_le x, hx⟩)
  exact (encodeFinish_out hspecified).1 a ha

theorem outAt_encodeStart (s : State) {a : Nat} (ha : a < 3) : (encodeStart s).outAt a = (putLE24 s.inSize)[a]'ha := by
  obtain ⟨-, hheader, -⟩ := storedAt_encodeStart s
  rw [← hheader a ha, Nat.zero_add]

/-- Settles O34: the run of an empty block is its header, three bytes of the length 0. -/
theorem encodeOfAnEmptyBlock : Obligations.EncodeOfAnEmptyBlock := by
  intro s hsize hclean
  have hheader : ∀ a (ha : a < 3), (encodeFinish (encodeStart s)).outAt a = (putLE24 0)[a]'ha := fun a ha =>
    (outAt_encodeFinish (encodeKept_refl rfl) ha).trans
      ((outAt_encodeStart s ha).trans (List.getElem_of_eq (congrArg putLE24 hsize) _))
  exact ⟨_, execEncode_of_empty hsize hclean, rfl, rfl, hheader 0 (by decide), hheader 1 (by decide),
    hheader 2 (by decide)⟩

/-! ### Accepted candidates (R109, R116) -/

/-- A length that a back-reference symbol can have has a nibble (R54). -/
theorem nibbleOf_of_encodable {ext : Bool} {len : Nat} (h : encodable ext len) :
    ∃ nib, nibbleOf false len ext = some nib := by
  obtain ⟨h4, h16 | ⟨hext, hlong⟩⟩ := h
  · exact ⟨_, (nibbleOf_short (by omega) ext).trans (if_pos ⟨h4, h16⟩)⟩
  · exact ⟨_, (nibbleOf_long hlong ext).trans (if_pos hext)⟩

/-- Settles O35: acceptance bounds the offset and the source's end, and the match length gives the rest. -/
theorem acceptedCandidateIsLegal : Obligations.AcceptedCandidateIsLegal := by
  intro b m c i a size len pos ext haccepted
  obtain ⟨hencodable, hend⟩ := encodable_of_accepted haccepted
  obtain ⟨hprobe, hfar, hnear, hbefore⟩ := acceptCandidate_eq_some.1 haccepted
  obtain ⟨hmin, rfl⟩ := probeIndex_eq_some hprobe
  obtain ⟨hpos, hanchor, -, -, hequal, -⟩ := matchLen_run hmin
  exact ⟨hpos.le, hfar, hnear, hbefore, hanchor, hend, nibbleOf_of_encodable hencodable, hequal⟩

end Sys2Proof.Machine

/-! SUPPORT. Two match indexes that agree on their live entries, probed over inputs that agree, answer alike. -/

namespace Sys2Proof.Machine

/-! ### Inputs that agree on a block (R84, R85, R87) -/

/-- Two memories hold the same first `size` bytes. -/
def sameInput (size : Nat) (m m' : Memory) : Prop := ∀ a < size, inByte m' a = inByte m a

section
variable {m m' : Memory} {size : Nat}

theorem commonPrefix_congr {p q cap : Nat} (h : sameInput size m m') (hp : p + cap ≤ size) (hq : q + cap ≤ size) :
    commonPrefix m' p q cap = commonPrefix m p q cap := by
  induction cap generalizing p q with
  | zero => rfl
  | succ n ih => rw [commonPrefix, commonPrefix, h p (by omega), h q (by omega), ih (by omega) (by omega)]

/-- MatchLen compares bytes of the block only: its cap keeps the later run, and with it the earlier, inside. -/
theorem matchLen_congr (h : sameInput size m m') (first second anchor : Nat) (ext : Bool) :
    matchLen m' first second anchor size ext = matchLen m first second anchor size ext := by
  unfold matchLen
  refine if_ctx_congr Iff.rfl (fun hruns => ?_) fun _ => rfl
  have hrun : ∀ most, commonPrefix m' first second (min most (min (size - second) (second - first))) =
      commonPrefix m first second (min most (min (size - second) (second - first))) :=
    fun _ => commonPrefix_congr h (by omega) (by omega)
  simp only [hrun]

theorem symAt_congr {i : Nat} (h : sameInput size m m') (hroom : i + 4 ≤ size) : symAt m' i = symAt m i := by
  rw [symAt, symAt, h i (by omega), h (i + 1) (by omega), h (i + 2) (by omega), h (i + 3) (by omega)]

end

/-! ### Live entries that agree (R17, R18) -/

/-- Two buckets have the same count and the same entries below it; the others may differ. -/
def liveAlike {α : Type} (n n' : Byte) (xs ys : Vector α 4) : Prop :=
  n' = n ∧ ∀ e : Fin 4, e.val < n.toNat → ys[e] = xs[e]

section
variable {α : Type} {n n' : Byte} {xs ys : Vector α 4}

theorem liveAlike_of_empty (hn : n = 0#8) (hn' : n' = 0#8) (xs ys : Vector α 4) : liveAlike n n' xs ys := by
  subst hn hn'
  exact ⟨rfl, fun _ he => absurd he (Nat.not_lt_zero _)⟩

/-- One entry written alike in both buckets: that entry may become live, no other. -/
theorem liveAlike.set {k : Byte} {e : Fin 4} (h : liveAlike n n' xs ys) (v : α)
    (hlive : ∀ f : Fin 4, f ≠ e → f.val < k.toNat → f.val < n.toNat) : liveAlike k k (xs.set e v) (ys.set e v) := by
  refine ⟨rfl, fun f hf => ?_⟩
  by_cases hfe : f = e
  · subst hfe
    exact (Vector.getElem_set_self f.isLt).trans (Vector.getElem_set_self f.isLt).symm
  · rw [entry_set_other xs v hfe, entry_set_other ys v hfe]
    exact h.2 f (hlive f hfe hf)

/-- A scan of live entries finds the same place in both buckets (R88, R91). -/
theorem liveAlike.find? (h : liveAlike n n' xs ys) (p : α → Bool) :
    [0, 1, 2, 3].find? (fun e : Fin 4 => decide (e.val < n'.toNat) && p ys[e]) =
      [0, 1, 2, 3].find? (fun e : Fin 4 => decide (e.val < n.toNat) && p xs[e]) := by
  obtain ⟨rfl, hentry⟩ := h
  refine congrArg (fun q => List.find? q _) (funext fun e => ?_)
  by_cases he : e.val < n'.toNat
  · rw [hentry e he]
  · simp only [he, decide_false, Bool.false_and]

/-- The entry at the count is the only one that an append makes live. -/
theorem live_of_append {e f : Fin 4} (hcount : n.toNat = e.val) (hf : f ≠ e) (hlive : f.val < (n + 1#8).toNat) :
    f.val < n.toNat := by
  rw [toNat_add_one_of_lt_four hcount] at hlive
  have hval : f.val ≠ e.val := fun hval => hf (Fin.ext hval)
  omega

end

/-! ### Indexes that agree (R97) -/

/-- The words of an entry's slot that a probe reads agree in two pools (R93). -/
def slotAlike (b : Build) (c c' : Ctx) (v : MultiEntry) : Prop :=
  v.occ ≠ 1#32 → ∀ k < min v.occ.toNat (slotWidth c.level),
    poolAt b c' (v.pos.toNat + k) = poolAt b c (v.pos.toNat + k)

/-- Two contexts agree on all that a probe reads: the level, the pool cursor, the live entries and the words of their
slots. Dead entries and the other pool words may differ. -/
structure indexAlike (b : Build) (c c' : Ctx) : Prop where
  level : c'.level = c.level
  poolCur : c'.poolCur = c.poolCur
  fast : ∀ h, liveAlike (fastAt c h).count (fastAt c' h).count (fastAt c h).entry (fastAt c' h).entry
  multi : ∀ h, liveAlike (multiAt c h).count (multiAt c' h).count (multiAt c h).entry (multiAt c' h).entry
  slots : ∀ h (e : Fin 4), e.val < (multiAt c h).count.toNat → slotAlike b c c' ((multiAt c h).entry[e])

section
variable {b : Build} {c c' : Ctx}

theorem indexAlike_of_empty (hlevel : c'.level = c.level) (hcur : c'.poolCur = c.poolCur)
    (hc : ∀ h, (fastAt c h).count = 0#8 ∧ (multiAt c h).count = 0#8)
    (hc' : ∀ h, (fastAt c' h).count = 0#8 ∧ (multiAt c' h).count = 0#8) : indexAlike b c c' where
  level := hlevel
  poolCur := hcur
  fast h := liveAlike_of_empty (hc h).1 (hc' h).1 _ _
  multi h := liveAlike_of_empty (hc h).2 (hc' h).2 _ _
  slots h e he := absurd he (by rw [(hc h).2]; exact Nat.not_lt_zero _)

theorem indexAlike.withDirty (h : indexAlike b c c') (d d' : Bool) :
    indexAlike b { c with dirty := d } { c' with dirty := d' } := ⟨h.level, h.poolCur, h.fast, h.multi, h.slots⟩

theorem indexAlike.withPoolCur (h : indexAlike b c c') (w : Word) :
    indexAlike b { c with poolCur := w } { c' with poolCur := w } := ⟨h.level, rfl, h.fast, h.multi, h.slots⟩

/-- A pool word written alike agrees, and so does every word that agreed before (R19; log 25). -/
theorem poolAt_setPool_congr {k x : Nat} {v : Word} (h : x ≠ k → poolAt b c' x = poolAt b c x) :
    poolAt b (setPool b c' k v) x = poolAt b (setPool b c k v) x := by
  rw [poolAt_setPool, poolAt_setPool]
  by_cases hx : x = k
  · subst hx
    by_cases hroom : x < b.poolEntries.toNat
    · rw [if_pos ⟨rfl, hroom⟩, if_pos ⟨rfl, hroom⟩]
    · simp only [hroom, and_false, if_false, poolAt]
  · simp only [hx, false_and, if_false, h hx]

theorem indexAlike.setPool (h : indexAlike b c c') (k : Nat) (v : Word) :
    indexAlike b (setPool b c k v) (setPool b c' k v) where
  level := by rw [setPool_level, setPool_level, h.level]
  poolCur := by rw [setPool_poolCur, setPool_poolCur, h.poolCur]
  fast g := by rw [fastAt_setPool, fastAt_setPool]; exact h.fast g
  multi g := by rw [multiAt_setPool, multiAt_setPool]; exact h.multi g
  slots g e he hocc x hx := by
    rw [multiAt_setPool] at he hocc hx ⊢
    rw [setPool_level] at hx
    exact poolAt_setPool_congr fun _ => h.slots g e he hocc x hx

theorem indexAlike.setFast {k : Nat} {e : Fin 4} {n : Byte} (h : indexAlike b c c') (v : FastEntry)
    (hlive : ∀ f : Fin 4, f ≠ e → f.val < n.toNat → f.val < (fastAt c k).count.toNat) :
    indexAlike b (setFast c k ⟨n, (fastAt c k).entry.set e v⟩) (setFast c' k ⟨n, (fastAt c' k).entry.set e v⟩) where
  level := h.level
  poolCur := h.poolCur
  fast g := by
    rw [fastAt_setFast, fastAt_setFast]
    by_cases hg : g = k
    · rw [if_pos hg, if_pos hg]
      exact (h.fast k).set v hlive
    · rw [if_neg hg, if_neg hg]
      exact h.fast g
  multi := h.multi
  slots := h.slots

theorem indexAlike.setMulti {k : Nat} {e : Fin 4} {n : Byte} {v : MultiEntry} (h : indexAlike b c c')
    (hlive : ∀ f : Fin 4, f ≠ e → f.val < n.toNat → f.val < (multiAt c k).count.toNat) (hslot : slotAlike b c c' v) :
    indexAlike b (setMulti c k ⟨n, (multiAt c k).entry.set e v⟩)
      (setMulti c' k ⟨n, (multiAt c' k).entry.set e v⟩) where
  level := h.level
  poolCur := h.poolCur
  fast := h.fast
  multi g := by
    rw [multiAt_setMulti, multiAt_setMulti]
    by_cases hg : g = k
    · rw [if_pos hg, if_pos hg]
      exact (h.multi k).set v hlive
    · rw [if_neg hg, if_neg hg]
      exact h.multi g
  slots g f hf := by
    rw [multiAt_setMulti] at hf ⊢
    by_cases hg : g = k
    · rw [if_pos hg] at hf ⊢
      by_cases hfe : f = e
      · subst hfe
        have hwritten : ((multiAt c k).entry.set f v)[f] = v := Vector.getElem_set_self f.isLt
        rw [hwritten]
        exact hslot
      · rw [entry_set_other _ v hfe]
        exact h.slots k f (hlive f hfe hf)
    · rw [if_neg hg] at hf ⊢
      exact h.slots g f hf

end

/-! ### Probes of indexes that agree (R87 to R94) -/

/-- Two probes answer the same and leave indexes that agree. -/
def probesAlike (b : Build) (p q : ProbeResult × Ctx) : Prop := q.1 = p.1 ∧ indexAlike b p.2 q.2

section
variable {b : Build} {m m' : Memory} {c c' : Ctx} {sym : Word} {h i anchor size : Nat} {ext : Bool} {e : Fin 4}

theorem indexAlike.findFast_eq (ha : indexAlike b c c') (h : Nat) (sym : Word) :
    findFast (fastAt c' h) sym = findFast (fastAt c h) sym := (ha.fast h).find? fun x => x.sym == sym

theorem indexAlike.findMulti_eq (ha : indexAlike b c c') (h : Nat) (sym : Word) :
    findMulti (multiAt c' h) sym = findMulti (multiAt c h) sym := (ha.multi h).find? fun x => x.sym == sym

theorem probesAlike_probeFast (ha : indexAlike b c c') (hm : sameInput size m m') (sym : Word) (i anchor : Nat)
    (ext : Bool) :
    probesAlike b (probeFast b m c sym i anchor size ext) (probeFast b m' c' sym i anchor size ext) := by
  obtain ⟨hcount, hentry⟩ := ha.fast (hashF b sym)
  have hfind := ha.findFast_eq (hashF b sym) sym
  cases hfound : findFast (fastAt c (hashF b sym)) sym with
  | some e =>
    rw [hfound] at hfind
    obtain ⟨⟨hlive, -⟩, -⟩ := findFast_eq_some.1 hfound
    have hlen := matchLen_congr hm ((fastAt c (hashF b sym)).entry[e]).pos.toNat i anchor ext
    by_cases hmatch : 4 ≤ matchLen m ((fastAt c (hashF b sym)).entry[e]).pos.toNat i anchor size ext
    · rw [probeFast_hit rfl hfound hmatch, probeFast_hit rfl hfind (by rw [hentry e hlive, hlen]; exact hmatch),
        hentry e hlive, hlen, hcount]
      exact ⟨rfl, ha.setFast _ fun _ _ => id⟩
    · rw [probeFast_hit_short rfl hfound (Nat.not_le.1 hmatch),
        probeFast_hit_short rfl hfind (by rw [hentry e hlive, hlen]; exact Nat.not_le.1 hmatch)]
      exact ⟨rfl, ha⟩
  | none =>
    rw [hfound] at hfind
    by_cases hroom : (fastAt c (hashF b sym)).count.toNat < 4
    · obtain ⟨e, hplace⟩ : ∃ e : Fin 4, (fastAt c (hashF b sym)).count.toNat = e.val := ⟨⟨_, hroom⟩, rfl⟩
      have hplace' : (fastAt c' (hashF b sym)).count.toNat = e.val := by rw [hcount, hplace]
      rw [probeFast_miss rfl hfound hplace, probeFast_miss rfl hfind hplace', hcount]
      exact ⟨rfl, ha.setFast _ fun _ => live_of_append hplace⟩
    · rw [probeFast_miss_full rfl hfound (Nat.not_lt.1 hroom),
        probeFast_miss_full rfl hfind (hcount ▸ Nat.not_lt.1 hroom)]
      exact ⟨rfl, ha⟩

theorem bestCandidate_congr {base cnt : Nat} (hm : sameInput size m m')
    (hpool : ∀ k < cnt, poolAt b c' (base + k) = poolAt b c (base + k)) :
    bestCandidate b m' c' base cnt i anchor size ext = bestCandidate b m c base cnt i anchor size ext := by
  unfold bestCandidate
  refine List.foldl_ext _ _ _ fun best k hk => ?_
  simp only [considerCandidate, hpool k (List.mem_range.1 hk), matchLen_congr hm]

theorem indexAlike.takeSlot (ha : indexAlike b c c') (orig new : Word) :
    indexAlike b (takeSlot b c orig new) (takeSlot b c' orig new) := by
  have hcursor : word (c'.poolCur.toNat + slotWidth c'.level) = word (c.poolCur.toNat + slotWidth c.level) := by
    rw [ha.level, ha.poolCur]
  rw [Machine.takeSlot, Machine.takeSlot, hcursor, ha.poolCur]
  exact ((ha.withPoolCur _).setPool _ _).setPool _ _

/-- The two words that a taken slot starts with are written alike (R92). -/
theorem slotAlike_takeSlot (ha : indexAlike b c c') (sym orig new : Word) :
    slotAlike b (takeSlot b c orig new) (takeSlot b c' orig new) ⟨sym, c.poolCur, 2#32⟩ := by
  intro _ k hk
  have hk2 : k < 2 := (Nat.lt_min.1 hk).1
  simp only [Machine.takeSlot, ha.poolCur]
  exact poolAt_setPool_congr fun hsecond => poolAt_setPool_congr fun hfirst => absurd hfirst (by omega)

/-- The word that joins a ring is written alike, and the ring's other words agreed before (R93; log 11). -/
theorem slotAlike_ring {occ base : Word} (hslot : slotAlike b c c' ⟨sym, base, occ⟩) (hocc : occ ≠ 1#32) (new : Word) :
    slotAlike b (setPool b c (base.toNat + occ.toNat % slotWidth c.level) new)
      (setPool b c' (base.toNat + occ.toNat % slotWidth c.level) new) ⟨sym, base, oneMore occ⟩ := by
  intro _ k hk
  rw [setPool_level] at hk
  obtain ⟨hcount, hwidth⟩ := Nat.lt_min.1 hk
  refine poolAt_setPool_congr fun hother => hslot hocc k (Nat.lt_min.2 ⟨?_, hwidth⟩)
  have hring : k ≠ occ.toNat % slotWidth c.level := fun heq => hother (congrArg (base.toNat + ·) heq)
  by_contra hge
  have hle : occ.toNat ≤ k := Nat.not_lt.1 hge
  rw [Nat.mod_eq_of_lt (hle.trans_lt hwidth)] at hring
  have hsmall : occ.toNat + 1 < 2 ^ 32 := by
    have hmost : slotWidth c.level ≤ 2 ^ 10 := Nat.min_le_right _ _
    omega
  change k < (oneMore occ).toNat at hcount
  rw [oneMore_toNat hsmall] at hcount
  omega

theorem probesAlike_probeMultiOnce (ha : indexAlike b c c') (hm : sameInput size m m')
    (hlive : e.val < (multiAt c h).count.toNat) :
    probesAlike b (probeMultiOnce b m c h e i anchor size ext) (probeMultiOnce b m' c' h e i anchor size ext) := by
  obtain ⟨hcount, hentries⟩ := ha.multi h
  have hentry := hentries e hlive
  have hlen := matchLen_congr hm ((multiAt c h).entry[e]).pos.toNat i anchor ext
  by_cases hshort : matchLen m ((multiAt c h).entry[e]).pos.toNat i anchor size ext < 4
  · rw [probeMultiOnce_none (.inl hshort), probeMultiOnce_none (.inl (by rw [hentry, hlen]; exact hshort))]
    exact ⟨rfl, ha⟩
  by_cases hfull : b.poolEntries.toNat < c.poolCur.toNat + slotWidth c.level
  · rw [probeMultiOnce_none (.inr hfull), probeMultiOnce_none (.inr (by rw [ha.poolCur, ha.level]; exact hfull))]
    exact ⟨rfl, ha⟩
  rw [probeMultiOnce_takes_slot rfl (Nat.not_lt.1 hshort) (Nat.not_lt.1 hfull),
    probeMultiOnce_takes_slot rfl (by rw [hentry, hlen]; exact Nat.not_lt.1 hshort)
      (by rw [ha.poolCur, ha.level]; exact Nat.not_lt.1 hfull), hentry, hlen, hcount, ha.poolCur]
  have hmulti : multiAt (takeSlot b c ((multiAt c h).entry[e]).pos (word i)) h = multiAt c h := by
    rw [multiAt, takeSlot_multi, multiAt]
  have hmulti' : multiAt (takeSlot b c' ((multiAt c h).entry[e]).pos (word i)) h = multiAt c' h := by
    rw [multiAt, takeSlot_multi, multiAt]
  refine ⟨rfl, ?_⟩
  have hset := (ha.takeSlot ((multiAt c h).entry[e]).pos (word i)).setMulti (k := h) (e := e)
    (n := (multiAt c h).count) (fun _ _ => by rw [hmulti]; exact id)
    (slotAlike_takeSlot ha ((multiAt c h).entry[e]).sym ((multiAt c h).entry[e]).pos (word i))
  rwa [hmulti, hmulti'] at hset

theorem probesAlike_probeMultiAgain (ha : indexAlike b c c') (hm : sameInput size m m')
    (hlive : e.val < (multiAt c h).count.toNat) (hocc : ((multiAt c h).entry[e]).occ ≠ 1#32) :
    probesAlike b (probeMultiAgain b m c h e i anchor size ext) (probeMultiAgain b m' c' h e i anchor size ext) := by
  obtain ⟨hcount, hentries⟩ := ha.multi h
  have hslot := ha.slots h e hlive
  have hentry' := hentries e hlive
  rcases hentry : (multiAt c h).entry[e] with ⟨sym, base, occ⟩
  rw [hentry] at hocc hslot hentry'
  have hbest := bestCandidate_congr (i := i) (anchor := anchor) (ext := ext) hm (hslot hocc)
  rw [← ha.level] at hbest
  cases hr : bestCandidate b m c base.toNat (min occ.toNat (slotWidth c.level)) i anchor size ext with
  | none =>
    rw [probeMultiAgain_none hentry hr, probeMultiAgain_none hentry' (by rw [hbest, ha.level]; exact hr)]
    exact ⟨rfl, ha⟩
  | some r =>
    rw [probeMultiAgain_some hentry hr, probeMultiAgain_some hentry' (by rw [hbest, ha.level]; exact hr), ha.level,
      hcount]
    have hset := (ha.setPool (base.toNat + occ.toNat % slotWidth c.level) (word i)).setMulti (k := h) (e := e)
      (n := (multiAt c h).count) (fun _ _ => by rw [multiAt_setPool]; exact id) (slotAlike_ring hslot hocc (word i))
    rw [multiAt_setPool, multiAt_setPool] at hset
    exact ⟨rfl, hset⟩

theorem probesAlike_probeMulti (ha : indexAlike b c c') (hm : sameInput size m m') (sym : Word) (i anchor : Nat)
    (ext : Bool) :
    probesAlike b (probeMulti b m c sym i anchor size ext) (probeMulti b m' c' sym i anchor size ext) := by
  obtain ⟨hcount, hentries⟩ := ha.multi (hashM b sym)
  have hfind := ha.findMulti_eq (hashM b sym) sym
  cases hfound : findMulti (multiAt c (hashM b sym)) sym with
  | some e =>
    rw [hfound] at hfind
    obtain ⟨⟨hlive, -⟩, -⟩ := findMulti_eq_some.1 hfound
    have hentry := hentries e hlive
    by_cases hocc : ((multiAt c (hashM b sym)).entry[e]).occ = 1#32
    · rw [probeMulti_once rfl hfound hocc, probeMulti_once rfl hfind (by rw [hentry]; exact hocc)]
      exact probesAlike_probeMultiOnce ha hm hlive
    · rw [probeMulti_again rfl hfound hocc, probeMulti_again rfl hfind (by rw [hentry]; exact hocc)]
      exact probesAlike_probeMultiAgain ha hm hlive hocc
  | none =>
    rw [hfound] at hfind
    by_cases hroom : (multiAt c (hashM b sym)).count.toNat < 4
    · obtain ⟨e, hplace⟩ : ∃ e : Fin 4, (multiAt c (hashM b sym)).count.toNat = e.val := ⟨⟨_, hroom⟩, rfl⟩
      have hplace' : (multiAt c' (hashM b sym)).count.toNat = e.val := by rw [hcount, hplace]
      rw [probeMulti_miss rfl hfound hplace, probeMulti_miss rfl hfind hplace', hcount]
      exact ⟨rfl, ha.setMulti (fun _ => live_of_append hplace) fun hone => absurd rfl hone⟩
    · rw [probeMulti_miss_full rfl hfound (Nat.not_lt.1 hroom),
        probeMulti_miss_full rfl hfind (hcount ▸ Nat.not_lt.1 hroom)]
      exact ⟨rfl, ha⟩

/-- A probe sees of the context its level, its cursor and its live entries, and of IN the block (R118). -/
theorem probesAlike_probeIndex (ha : indexAlike b c c') (hm : sameInput size m m') (i anchor : Nat) (ext : Bool) :
    probesAlike b (probeIndex b m c i anchor size ext) (probeIndex b m' c' i anchor size ext) := by
  have hdirty := ha.withDirty true true
  by_cases hroom : i + 4 ≤ size
  · have hsym := symAt_congr hm hroom
    by_cases hlevel : c.level = 0#4
    · rw [probeIndex_fast hroom hlevel, probeIndex_fast hroom (ha.level.trans hlevel), hsym]
      exact probesAlike_probeFast hdirty hm _ _ _ _
    · rw [probeIndex_multi hroom hlevel, probeIndex_multi hroom (by rw [ha.level]; exact hlevel), hsym]
      exact probesAlike_probeMulti hdirty hm _ _ _ _
  · rw [probeIndex_near_end (Nat.not_le.1 hroom), probeIndex_near_end (Nat.not_le.1 hroom)]
    exact ⟨rfl, hdirty⟩

end

end Sys2Proof.Machine

/-! SUPPORT. Two encoders in lockstep: what ENCODE writes is a function of the block, EXT, the level and the build. -/

namespace Sys2Proof.Machine

/-! ### The bytes of a group come from the block (R113) -/

/-- A symbol's literal bytes lie inside the block. -/
def Desc.inside (size : Nat) (d : Desc) : Prop := d.literal = true → d.srcPos.toNat + d.length.toNat ≤ size

theorem inside_refDesc (size len pos : Nat) (a : Word) : (refDesc len pos a).inside size := fun h => by cases h

theorem inside_literalDesc {size n : Nat} {e : EncRegs} (hn : n ≤ 16) (hend : e.lit.toNat + n ≤ size) :
    (literalDesc e n).inside size := fun _ => by
  rw [literalDesc_length e hn]
  exact hend

theorem payloadOf_congr {size : Nat} {s u : State} {d : Desc} (hin : sameInput size s.inMem u.inMem)
    (hd : d.inside size) : payloadOf u d = payloadOf s d := by
  unfold payloadOf
  refine if_ctx_congr Iff.rfl (fun hliteral => List.map_congr_left fun k hk => ?_) fun _ => rfl
  have hend := hd hliteral
  have hlt := List.mem_range.1 hk
  exact hin _ (by omega)

theorem groupBytes_congr {size : Nat} {s u : State} {ds : List Desc} (hext : u.extOn = s.extOn)
    (hin : sameInput size s.inMem u.inMem) (hds : ∀ d ∈ ds, d.inside size) : groupBytes u ds = groupBytes s ds := by
  have hpayload : ds.flatMap (payloadOf u) = ds.flatMap (payloadOf s) :=
    List.flatMap_congr fun d hd => payloadOf_congr hin (hds d hd)
  rw [groupBytes, groupBytes, hext, hpayload]

/-- What an iteration emits lies inside the block: the pending run ends at the cursor, and a run of 16 right after it. -/
theorem inside_scanEmitted {ext : Bool} {size : Nat} {e : EncRegs} (accepted : ProbeResult) (a : Word)
    (h : scanReady ext e) (hi : e.i.toNat < size) : ∀ d ∈ scanEmitted e accepted a, d.inside size := by
  obtain ⟨hle, hrun, -, -⟩ := h
  rcases accepted with - | ⟨len, pos⟩
  · intro d hd
    rw [scanEmitted, List.mem_ite_nil_right, List.mem_singleton] at hd
    obtain ⟨hfull, rfl⟩ := hd
    exact inside_literalDesc (le_refl 16) (by omega)
  · intro d hd
    rw [scanEmitted, List.mem_append, List.mem_ite_nil_right, List.mem_singleton, List.mem_singleton] at hd
    obtain ⟨-, rfl⟩ | rfl := hd
    · exact inside_literalDesc (by unfold pendingLiteral; omega) (by unfold pendingLiteral; omega)
    · exact inside_refDesc size len pos a

theorem inside_trailingDescs {ext : Bool} {size : Nat} {e : EncRegs} (h : scanReady ext e) (hi : e.i.toNat ≤ size) :
    ∀ d ∈ trailingDescs e, d.inside size := by
  obtain ⟨hle, hrun, -, -⟩ := h
  intro d hd
  rw [trailingDescs, List.mem_ite_nil_right, List.mem_singleton] at hd
  obtain ⟨-, rfl⟩ := hd
  exact inside_literalDesc (by omega) (by omega)

/-! ### Registers that agree (R14) -/

/-- The scan cursor, the literal's start, the count of symbols and the pair anchor agree; the group buffer's free places
may differ (log 12). -/
def sameCursors (e e' : EncRegs) : Prop := e'.i = e.i ∧ e'.lit = e.lit ∧ e'.n = e.n ∧ e'.pa = e.pa

section
variable {e e' r r' : EncRegs}

theorem sameCursors.of_images (h : sameCursors e e') (hr : sameCursors e r) (hr' : sameCursors e' r') :
    sameCursors r r' := by
  obtain ⟨hi, hlit, hn, hpa⟩ := h
  obtain ⟨hri, hrlit, hrn, hrpa⟩ := hr
  obtain ⟨hri', hrlit', hrn', hrpa'⟩ := hr'
  exact ⟨by rw [hri', hri, hi], by rw [hrlit', hrlit, hlit], by rw [hrn', hrn, hn], by rw [hrpa', hrpa, hpa]⟩

theorem sameCursors.pendingLiteral_eq (h : sameCursors e e') : pendingLiteral e' = pendingLiteral e := by
  obtain ⟨hi, hlit, -, -⟩ := h
  rw [pendingLiteral, pendingLiteral, hi, hlit]

theorem sameCursors.positionAnchor_eq (h : sameCursors e e') : positionAnchor e' = positionAnchor e := by
  obtain ⟨hi, hlit, hn, hpa⟩ := h
  simp only [Machine.positionAnchor_eq, hi, hlit, hn, hpa]

theorem sameCursors.literalDesc_eq (h : sameCursors e e') : literalDesc e' = literalDesc e := by
  obtain ⟨-, hlit, hn, hpa⟩ := h
  funext n
  rw [literalDesc, literalDesc, hlit, hn, hpa]

theorem sameCursors.scanEmitted_eq (h : sameCursors e e') (accepted : ProbeResult) (a : Word) :
    scanEmitted e' accepted a = scanEmitted e accepted a := by
  have hpending := h.pendingLiteral_eq
  have hliteral := h.literalDesc_eq
  obtain ⟨hi, hlit, -, -⟩ := h
  unfold scanEmitted
  rw [hpending, hliteral, hi, hlit]

theorem sameCursors.trailingDescs_eq (h : sameCursors e e') : trailingDescs e' = trailingDescs e := by
  have hliteral := h.literalDesc_eq
  obtain ⟨hi, hlit, -, -⟩ := h
  rw [trailingDescs, trailingDescs, hliteral, hi, hlit]

theorem sameCursors.emit (h : sameCursors e e') (d : Desc) (start : Word) :
    sameCursors (emit e d start) (emit e' d start) := by
  obtain ⟨hi, hlit, hn, hpa⟩ := h
  exact ⟨hi, hlit, by rw [emit_n, emit_n, hn], by rw [emit_pa, emit_pa, hn, hpa]⟩

theorem sameCursors.emitLiteral (h : sameCursors e e') (n : Nat) :
    sameCursors (emitLiteral e n) (emitLiteral e' n) := by
  rw [Machine.emitLiteral, Machine.emitLiteral, h.2.1]
  exact h.emit _ _

theorem sameCursors.addLiteralByte (h : sameCursors e e') : sameCursors (addLiteralByte e) (addLiteralByte e') := by
  have hnext : sameCursors { e with i := word (e.i.toNat + 1) } { e' with i := word (e'.i.toNat + 1) } :=
    ⟨by rw [h.1], h.2⟩
  simp only [Machine.addLiteralByte, hnext.pendingLiteral_eq]
  split
  · obtain ⟨hi, -, hn, hpa⟩ := hnext.emitLiteral maxLit
    exact ⟨hi, hnext.1, hn, hpa⟩
  · exact hnext

theorem sameCursors.addMatch (h : sameCursors e e') (a : Word) (len pos : Nat) :
    sameCursors (addMatch e a len pos) (addMatch e' a len pos) := by
  have hrun : sameCursors (if 0 < pendingLiteral e then Machine.emitLiteral e (pendingLiteral e) else e)
      (if 0 < pendingLiteral e' then Machine.emitLiteral e' (pendingLiteral e') else e') := by
    rw [h.pendingLiteral_eq]
    split
    · exact h.emitLiteral _
    · exact h
  obtain ⟨-, -, hn, hpa⟩ := hrun.emit (refDesc len pos a) e.i
  simp only [Machine.addMatch, h.1]
  exact ⟨rfl, rfl, hn, hpa⟩

/-- What an iteration does to the cursors does not look at the group buffer (R110, R111). -/
theorem sameCursors.scanRegs (h : sameCursors e e') (accepted : ProbeResult) (a : Word) :
    sameCursors (scanRegs e accepted a) (scanRegs e' accepted a) := by
  rcases accepted with - | ⟨len, pos⟩
  · exact h.addLiteralByte
  · exact h.addMatch a len pos

end

/-! ### Outputs that agree -/

/-- The output cursors agree, and OUT reads the same below them. -/
def outputAlike (s u : State) : Prop := u.enc.o = s.enc.o ∧ ∀ a < s.enc.o.toNat, u.outAt a = s.outAt a

section
variable {s t u v : State}

theorem outputAlike.of_kept (h : outputAlike s u) (ht : t.enc.o = s.enc.o ∧ outKept s t)
    (hv : v.enc.o = u.enc.o ∧ outKept u v) : outputAlike t v := by
  obtain ⟨ho, hout⟩ := h
  obtain ⟨hto, htm, htd⟩ := ht
  obtain ⟨hvo, hvm, hvd⟩ := hv
  refine ⟨by rw [hvo, hto, ho], fun a ha => ?_⟩
  rw [State.outAt, State.outAt, hvm, hvd, htm, htd]
  exact hout a (hto ▸ ha)

/-- The same bytes stored at both cursors. -/
theorem outputAlike.of_stored {bytes : List Byte} (h : outputAlike s u)
    (ht : t.enc.o.toNat = s.enc.o.toNat + bytes.length ∧ storedAt s t s.enc.o.toNat bytes)
    (hv : v.enc.o.toNat = u.enc.o.toNat + bytes.length ∧ storedAt u v u.enc.o.toNat bytes) : outputAlike t v := by
  obtain ⟨ho, hout⟩ := h
  obtain ⟨hto, -, htnew, htold⟩ := ht
  obtain ⟨hvo, -, hvnew, hvold⟩ := hv
  rw [ho] at hvo hvnew hvold
  refine ⟨BitVec.eq_of_toNat_eq (hvo.trans hto.symm), fun a ha => ?_⟩
  obtain hlt | hge := Nat.lt_or_ge a s.enc.o.toNat
  · rw [htold a (.inl hlt), hvold a (.inl hlt), hout a hlt]
  · obtain ⟨k, rfl⟩ := Nat.exists_eq_add_of_le hge
    have hk : k < bytes.length := by omega
    rw [htnew k hk, hvnew k hk]

/-- Both encoders emit the same symbols, of the same bytes: the same are held afterwards and the outputs agree. -/
theorem outputAlike.of_emits {ds : List Desc} (h : outputAlike s u) (hheld : u.enc.held = s.enc.held)
    (hbytes : groupBytes u ((s.enc.held ++ ds).take 8) = groupBytes s ((s.enc.held ++ ds).take 8))
    (ht : emits s t ds) (hv : emits u v ds) : v.enc.held = t.enc.held ∧ outputAlike t v := by
  obtain ⟨hkept, hflushed⟩ := ht
  obtain ⟨hkept', hflushed'⟩ := hv
  rw [hheld] at hkept' hflushed'
  obtain hlt | hge := Nat.lt_or_ge (s.enc.held ++ ds).length 8
  · obtain ⟨hholds, hout⟩ := hkept hlt
    obtain ⟨hholds', hout'⟩ := hkept' hlt
    exact ⟨hholds'.trans hholds.symm, h.of_kept hout hout'⟩
  · obtain ⟨hholds, hout⟩ := hflushed hge
    obtain ⟨hholds', hout'⟩ := hflushed' hge
    rw [hbytes] at hout'
    exact ⟨hholds'.trans hholds.symm, h.of_stored hout hout'⟩

/-- What is held after symbols were emitted was held before, or is one of them. -/
theorem subset_of_emits {ds : List Desc} (h : emits s t ds) : t.enc.held ⊆ s.enc.held ++ ds := by
  obtain ⟨hkept, hflushed⟩ := h
  obtain hlt | hge := Nat.lt_or_ge (s.enc.held ++ ds).length 8
  · rw [(hkept hlt).1]
    exact List.Subset.refl _
  · rw [(hflushed hge).1]
    exact List.drop_subset _ _

end

/-! ### One iteration (R108 to R112) -/

/-- The probe of an iteration (R108). -/
def scanProbe (size : Nat) (s : State) : ProbeResult × Ctx :=
  probeIndex s.build s.inMem s.ctx s.enc.i.toNat (positionAnchor s.enc).toNat size s.extOn

/-- The candidate that an iteration accepts (R109). -/
def scanAccepted (size : Nat) (s : State) : ProbeResult :=
  acceptCandidate (scanProbe size s).1 (positionAnchor s.enc).toNat

/-- The symbols that an iteration emits (R110, R111). -/
def scanSymbols (size : Nat) (s : State) : List Desc :=
  scanEmitted s.enc (scanAccepted size s) (positionAnchor s.enc)

/-- An iteration under the scan's invariant: its probe's context, its symbols, its cursors. -/
theorem scanStep_of_scanInv {size : Nat} {s t : State} (h : scanInv size s) (hi : s.enc.i.toNat < size)
    (ht : scanStep size s = .next t) :
    scanInv size t ∧ t.ctx = (scanProbe size s).2 ∧ scanKept s t ∧ emits s t (scanSymbols size s) ∧
      sameCursors (scanRegs s.enc (scanAccepted size s) (positionAnchor s.enc)) t.enc := by
  obtain ⟨t', ht', hinv, -⟩ := scanInv_scanStep h hi
  obtain rfl := Host.Outcome.next.inj (ht'.symm.trans ht)
  have hroom := room_of_scanInv h
  obtain ⟨hready, -, hsize, -⟩ := h
  obtain ⟨v, hv, hctx, hkept, hemits, -, hcursors⟩ :=
    scanStep_emits (r := (scanProbe size s).1) (c := (scanProbe size s).2) hready hi hsize hroom rfl rfl rfl
  obtain rfl := Host.Outcome.next.inj (hv.symm.trans ht)
  exact ⟨hinv, hctx, hkept, hemits, hcursors⟩

/-! ### The lockstep (R118) -/

/-- Two encoders in mid-scan that agree on everything that the payload depends on. -/
structure encodesAlike (size : Nat) (s u : State) : Prop where
  inv : scanInv size s
  inv' : scanInv size u
  build : u.build = s.build
  ext : u.extOn = s.extOn
  input : sameInput size s.inMem u.inMem
  index : indexAlike s.build s.ctx u.ctx
  cursors : sameCursors s.enc u.enc
  held : u.enc.held = s.enc.held
  inside : ∀ d ∈ s.enc.held, d.inside size
  output : outputAlike s u

section
variable {size : Nat} {s t u v : State}

theorem encodesAlike.scanProbe (h : encodesAlike size s u) :
    probesAlike s.build (scanProbe size s) (scanProbe size u) := by
  obtain ⟨hi, -⟩ := h.cursors
  rw [Machine.scanProbe, Machine.scanProbe, h.build, h.ext, h.cursors.positionAnchor_eq, hi]
  exact probesAlike_probeIndex h.index h.input _ _ _

theorem encodesAlike.scanAccepted_eq (h : encodesAlike size s u) : scanAccepted size u = scanAccepted size s := by
  rw [scanAccepted, scanAccepted, h.scanProbe.1, h.cursors.positionAnchor_eq]

theorem encodesAlike.scanSymbols_eq (h : encodesAlike size s u) : scanSymbols size u = scanSymbols size s := by
  rw [scanSymbols, scanSymbols, h.scanAccepted_eq, h.cursors.positionAnchor_eq, h.cursors.scanEmitted_eq]

/-- One iteration of each keeps them in step. -/
theorem encodesAlike.scanStep (h : encodesAlike size s u) (hi : s.enc.i.toNat < size)
    (ht : scanStep size s = .next t) (hv : scanStep size u = .next v) : encodesAlike size t v := by
  have hi' : u.enc.i.toNat < size := by rw [h.cursors.1]; exact hi
  obtain ⟨hinv, hctx, ⟨hbuild, -, hregs, -, hin⟩, hemits, hcursors⟩ := scanStep_of_scanInv h.inv hi ht
  obtain ⟨hinv', hctx', ⟨hbuild', -, hregs', -, hin'⟩, hemits', hcursors'⟩ := scanStep_of_scanInv h.inv' hi' hv
  rw [h.scanSymbols_eq] at hemits'
  rw [h.scanAccepted_eq, h.cursors.positionAnchor_eq] at hcursors'
  have hext : ∀ {x y : State}, y.regs = x.regs → y.extOn = x.extOn := fun hxy => by rw [State.extOn, hxy, State.extOn]
  have hinside : ∀ d ∈ s.enc.held ++ scanSymbols size s, d.inside size := fun d hd =>
    (List.mem_append.1 hd).elim (h.inside d) (inside_scanEmitted _ _ h.inv.1 hi d)
  obtain ⟨hheld, hout⟩ := h.output.of_emits h.held
    (groupBytes_congr h.ext h.input fun d hd => hinside d (List.mem_of_mem_take hd)) hemits hemits'
  exact {
    inv := hinv
    inv' := hinv'
    build := by rw [hbuild', hbuild, h.build]
    ext := by rw [hext hregs', hext hregs, h.ext]
    input := by rw [hin', hin]; exact h.input
    index := by rw [hbuild, hctx, hctx']; exact h.scanProbe.2
    cursors := (h.cursors.scanRegs _ _).of_images hcursors hcursors'
    held := hheld
    inside := fun d hd => hinside d (subset_of_emits hemits hd)
    output := hout }

/-- Two runs of the scan from encoders in step, each until its cursor reaches the end: they take the same number of
iterations and end in step. -/
theorem encodesAlike.at_end {p q : Nat → State} {k l : Nat} (h : encodesAlike size (p 0) (q 0))
    (hp : ∀ j < k, (p j).enc.i.toNat < size ∧ Machine.scanStep size (p j) = .next (p (j + 1)))
    (hq : ∀ j < l, (q j).enc.i.toNat < size ∧ Machine.scanStep size (q j) = .next (q (j + 1)))
    (hpk : (p k).enc.i.toNat = size) (hql : (q l).enc.i.toNat = size) : encodesAlike size (p k) (q l) := by
  have halong : ∀ j, j ≤ k → j ≤ l → encodesAlike size (p j) (q j) := by
    intro j
    induction j with
    | zero => exact fun _ _ => h
    | succ j ih =>
      intro hjk hjl
      obtain ⟨hlt, hstep⟩ := hp j hjk
      exact (ih (Nat.le_of_succ_le hjk) (Nat.le_of_succ_le hjl)).scanStep hlt hstep (hq j hjl).2
  obtain hlt | rfl | hlt := Nat.lt_trichotomy k l
  · obtain ⟨hi, -⟩ := (halong k (le_refl k) hlt.le).cursors
    have hearly := (hq k hlt).1
    rw [hi, hpk] at hearly
    exact absurd hearly (lt_irrefl size)
  · exact halong k (le_refl k) (le_refl k)
  · obtain ⟨hi, -⟩ := (halong l hlt.le (le_refl l)).cursors
    have hearly := (hp l hlt).1
    rw [← hi, hql] at hearly
    exact absurd hearly (lt_irrefl size)

/-- The tails of encoders in step write the same last group (R114). -/
theorem encodesAlike.encodeTail (h : encodesAlike size s u) (ht : encodeTail s = .next t)
    (hv : encodeTail u = .next v) : outputAlike t v := by
  obtain ⟨t', ht', -, hstores⟩ := encodeTail_completes h.inv.1 (room_of_scanInv h.inv)
  obtain rfl := Host.Outcome.next.inj (ht'.symm.trans ht)
  obtain ⟨v', hv', -, hstores'⟩ := encodeTail_completes h.inv'.1 (room_of_scanInv h.inv')
  obtain rfl := Host.Outcome.next.inj (hv'.symm.trans hv)
  have hinside : ∀ d ∈ s.enc.held ++ trailingDescs s.enc, d.inside size := fun d hd =>
    (List.mem_append.1 hd).elim (h.inside d) (inside_trailingDescs h.inv.1 h.inv.2.1 d)
  rw [h.held, h.cursors.trailingDescs_eq, lastGroup, groupBytes_congr h.ext h.input hinside, ← lastGroup] at hstores'
  exact h.output.of_stored ⟨hstores.2.2, hstores.storedAt⟩ ⟨hstores'.2.2, hstores'.storedAt⟩

/-- ENCODE starts in step on equal blocks, under one build, level and EXT, in contexts that agree (R105 to R107). -/
theorem encodesAlike_encodeStart (hbuild : u.build = s.build) (hext : u.extOn = s.extOn) (hsize : u.inSize = s.inSize)
    (hlegal : s.inSize ≤ s.blockSize) (hin : sameInput s.inSize s.inMem u.inMem)
    (hindex : indexAlike s.build s.ctx u.ctx) : encodesAlike s.inSize (encodeStart s) (encodeStart u) where
  inv := scanInv_encodeStart hlegal
  inv' := hsize ▸ scanInv_encodeStart (by rw [hsize, State.blockSize, hbuild]; exact hlegal)
  build := hbuild
  ext := hext
  input := hin
  index := hindex.withDirty true true
  cursors := ⟨rfl, rfl, rfl, rfl⟩
  held := rfl
  inside _ hd := absurd hd List.not_mem_nil
  output := ⟨rfl, fun a ha => by
    rw [outAt_encodeStart u ha, outAt_encodeStart s ha]
    exact List.getElem_of_eq (congrArg putLE24 hsize) _⟩

end

/-- ENCODE completes OK only on a block that is not too long. -/
theorem legal_of_execEncode_ok {s t : State} (ht : execEncode s = .next t) (hok : t.regs.status = 0#8) :
    s.inSize ≤ s.blockSize := by
  by_contra hlong
  obtain rfl := Host.Outcome.next.inj ((execEncode_of_long (Nat.not_le.1 hlong)).symm.trans ht)
  exact absurd (show statusByte .errInsize = 0#8 from hok) (by decide)

/-- Settles O36: both runs take the same iterations in step, and their tails write the same last group. -/
theorem encodeIsAFunctionOfTheInput : Obligations.EncodeIsAFunctionOfTheInput := by
  intro s u t hbuild hlevel hext hsize hin hclean hclean' hcur hcur' hempty hempty' ht hok
  have hlegal := legal_of_execEncode_ok ht hok
  have hsize' : u.inSize = s.inSize := congrArg BitVec.toNat hsize.symm
  have hlegal' : u.inSize ≤ u.blockSize := by rw [hsize', State.blockSize, ← hbuild]; exact hlegal
  obtain ⟨k, p, w, hp0, hp, hpk, hw, hkept, -, -, -, hexec⟩ := execEncode_trace hlegal hclean
  obtain ⟨l, q, z, hq0, hq, hql, hz, hkept', -, -, -, hexec'⟩ := execEncode_trace hlegal' hclean'
  obtain rfl := Host.Outcome.next.inj (hexec.symm.trans ht)
  have hstart : encodesAlike s.inSize (p 0) (q 0) := by
    rw [hp0, hq0]
    exact encodesAlike_encodeStart hbuild.symm (by rw [State.extOn, State.extOn, hext]) hsize' hlegal
      (fun a ha => (hin a ha).symm) (indexAlike_of_empty hlevel.symm (hcur'.trans hcur.symm) hempty hempty')
  rw [hsize'] at hq hql
  obtain ⟨ho, hout⟩ := (hstart.at_end hp hq hpk hql).encodeTail hw hz
  refine ⟨encodeFinish z, hexec', by rw [encodeFinish_regs], by rw [encodeFinish_regs, encodeFinish_regs, ho],
    fun a ha => ?_⟩
  rw [encodeFinish_regs] at ha
  rw [outAt_encodeFinish hkept ha, outAt_encodeFinish hkept' (by rw [ho]; exact ha), hout a ha]

end Sys2Proof.Machine

/-! SUPPORT. The symbols that ENCODE emits as a payload listing of its input: symbol by symbol, iteration by iteration,
and the tail. -/

namespace Sys2Proof.Machine

/-! ### The stream of groups, group by group (R45, R113) -/

/-- Behind whole groups the stream goes on with a new one. -/
theorem streamBytes_append {k : Nat} {xs : List Sym} (h : (k + xs.length) % 8 = 0) (ys : List Sym) :
    streamBytes k (xs ++ ys) = streamBytes k xs ++ streamBytes (k + xs.length) ys := by
  induction xs generalizing k with
  | nil => rfl
  | cons x xs ih =>
    rw [List.length_cons] at h ⊢
    have hrest := ih (k := k + 1) (by omega)
    rw [Nat.add_right_comm, Nat.add_assoc k] at hrest
    rw [List.cons_append, streamBytes, streamBytes, hrest]
    split
    · have hheader : (x :: (xs ++ ys)).take 8 = (x :: xs).take 8 :=
        List.take_append_of_le_length (l₁ := x :: xs) (by rw [List.length_cons]; omega)
      simp only [hheader, List.append_assoc]
    · simp only [List.nil_append, List.append_assoc]

/-- A stream of at most eight symbols is one group. -/
theorem streamBytes_eq_assembleGroup {k : Nat} {syms : List Sym} (hk : k % 8 = 0) (hne : syms ≠ [])
    (hlen : syms.length ≤ 8) : streamBytes k syms = assembleGroup syms := by
  obtain ⟨y, ys, rfl⟩ := List.exists_cons_of_ne_nil hne
  have hys : ys.length ≤ 7 := Nat.le_of_succ_le_succ hlen
  rw [streamBytes_cons_of_group hk, streamBytes_inside (m := 7) (by omega), List.take_of_length_le hlen,
    List.take_of_length_le hys, List.drop_eq_nil_of_le hys, streamBytes_nil, List.append_nil]
  rfl

/-! ### A descriptor as a listed symbol (R54, R61, R113) -/

/-- The listed symbol that a descriptor stands for, its literal's bytes those of IN. -/
def Desc.toSym (s : State) (d : Desc) : Sym :=
  if d.literal then .lit (s.inRun d.srcPos.toNat d.length.toNat)
  else if d.length.toNat ≤ 16 then .ref (d.anchor.toNat - d.srcPos.toNat) d.length.toNat
  else .refx (d.anchor.toNat - d.srcPos.toNat) d.length.toNat

theorem symPayload_toSym (s : State) (d : Desc) : symPayload (d.toSym s) = payloadOf s d := by
  unfold Desc.toSym payloadOf
  repeat' split
  all_goals rfl

/-- A packable descriptor is a literal of 1 to 16 bytes, or a back-reference of a length with an encoding (R54). -/
theorem Desc.packable_iff {ext : Bool} {d : Desc} :
    d.packable ext = true ↔ (d.literal = true ∧ 1 ≤ d.length.toNat ∧ d.length.toNat ≤ 16) ∨
      (d.literal = false ∧ encodable ext d.length.toNat) := by
  unfold Desc.packable encodable
  cases d.literal with
  | true => simp [nibbleOf_literal]
  | false =>
    by_cases hlong : d.length.toNat = 32 ∨ d.length.toNat = 48 ∨ d.length.toNat = 64
    · have hnot : ¬ d.length.toNat ≤ 16 := by omega
      have h4 : 4 ≤ d.length.toNat := by omega
      cases ext <;> simp [nibbleOf_long hlong, hlong, hnot, h4]
    · simp [nibbleOf_short hlong, hlong]

/-- The slot of a packable descriptor is its listed symbol's. -/
theorem symSlot_toSym {s : State} {d : Desc} {ext : Bool} (h : d.packable ext = true) :
    symSlot (d.toSym s) = d.slot ext := by
  obtain ⟨hlit, h1, h16⟩ | ⟨hlit, h4, h16 | ⟨rfl, hlong⟩⟩ := Desc.packable_iff.1 h
  · simp [Desc.toSym, Desc.slot, hlit, nibbleOf_literal, h1, h16, symSlot]
  · have hshort : ¬(d.length.toNat = 32 ∨ d.length.toNat = 48 ∨ d.length.toNat = 64) := by omega
    simp [Desc.toSym, Desc.slot, hlit, nibbleOf_short hshort, h4, h16, symSlot]
  · have hnot : ¬ d.length.toNat ≤ 16 := by omega
    simp [Desc.toSym, Desc.slot, hlit, nibbleOf_long hlong, hnot, symSlot]

/-- The bytes FlushGroup stores are the listed group's. -/
theorem groupBytes_eq_assembleGroup {s : State} {ds : List Desc} (h : ds.all (Desc.packable s.extOn) = true) :
    groupBytes s ds = assembleGroup (ds.map (Desc.toSym s)) := by
  have hslots : ds.map (Desc.slot s.extOn) = (ds.map (Desc.toSym s)).map symSlot := by
    rw [List.map_map]
    exact List.map_congr_left fun d hd => (symSlot_toSym (List.all_eq_true.1 h d hd)).symm
  have hpayloads : ds.flatMap (payloadOf s) = (ds.map (Desc.toSym s)).flatMap symPayload := by
    rw [List.flatMap_map]
    exact List.flatMap_congr fun d _ => (symPayload_toSym s d).symm
  rw [groupBytes, packHeader, hslots, hpayloads, assembleGroup]

/-! ### What the symbols emitted so far run to (R108, R128) -/

/-- Listed symbols run to the output `out`, with `anchor` the anchor of the last one's pair: whatever follows them runs
on from there. -/
def runsTo (syms : List Sym) (anchor : Nat) (out : List Byte) : Prop :=
  ∀ rest, runSyms 0 0 [] (syms ++ rest) = runSyms syms.length anchor out rest

theorem runsTo.snoc {syms : List Sym} {anchor a : Nat} {out out' : List Byte} {y : Sym} (h : runsTo syms anchor out)
    (ha : a = if syms.length % 2 = 0 then out.length else anchor) (hy : runSym a out y = some out') :
    runsTo (syms ++ [y]) a out' := by
  intro rest
  rw [List.append_assoc, List.singleton_append, h, runSyms_cons, ← ha, hy, List.length_append]
  rfl

/-- The symbols emitted so far list the first `done` bytes of IN; `n` counts them and `pa` is the last pair's anchor. -/
structure listed (s : State) (n : Word) (pa done : Nat) (syms : List Sym) : Prop where
  wf : ∀ y ∈ syms, y.wf s.extOn = true
  total : (syms.map Sym.len).sum = done
  parity : n.toNat % 2 = syms.length % 2
  runs : runsTo syms pa (s.inRun 0 done)

theorem listed_nil (s : State) : listed s 0#32 0 0 [] where
  wf _ hy := absurd hy List.not_mem_nil
  total := rfl
  parity := rfl
  runs _ := rfl

section
variable {s : State} {n : Word} {pa done : Nat} {syms : List Sym}

theorem listed.snoc {a : Nat} {y : Sym} (h : listed s n pa done syms) (ha : a = if n.toNat % 2 = 0 then done else pa)
    (hwf : y.wf s.extOn = true) (hrun : runSym a (s.inRun 0 done) y = some (s.inRun 0 (done + y.len))) :
    listed s (n + 1#32) a (done + y.len) (syms ++ [y]) where
  wf z hz := (List.mem_append.1 hz).elim (h.wf z) fun hz => List.mem_singleton.1 hz ▸ hwf
  total := by
    rw [List.map_append, List.sum_append, h.total]
    rfl
  parity := by
    have hparity := h.parity
    rw [BitVec.toNat_add, BitVec.toNat_ofNat, List.length_append, List.length_singleton]
    omega
  runs := h.runs.snoc (by rw [State.inRun_length, ← h.parity, ha]) hrun

/-- A literal of the bytes that come next lists them. -/
theorem listed.literal {e : EncRegs} {len : Nat} (h : listed s e.n e.pa.toNat e.lit.toNat syms) (h1 : 1 ≤ len)
    (h16 : len ≤ 16) :
    listed s (e.n + 1#32) (if e.n.toNat % 2 = 0 then e.lit else e.pa).toNat (e.lit.toNat + len)
      (syms ++ [(literalDesc e len).toSym s]) := by
  have hsym : (literalDesc e len).toSym s = .lit (s.inRun e.lit.toNat len) := by
    rw [Desc.toSym, literalDesc_length e h16]
    rfl
  have hlen : Sym.len (.lit (s.inRun e.lit.toNat len)) = len := State.inRun_length s _ _
  have hnext := h.snoc (y := .lit (s.inRun e.lit.toNat len)) (apply_ite BitVec.toNat _ _ _)
    (Sym.wf_lit.2 (by rw [State.inRun_length]; exact ⟨h1, h16⟩))
    (by rw [runSym_lit, hlen, State.inRun_add, Nat.zero_add])
  rwa [hlen, ← hsym] at hnext

theorem State.take_drop_inRun (s : State) {a len n : Nat} (h : a + len ≤ n) :
    ((s.inRun 0 n).drop a).take len = s.inRun a len := by
  refine List.ext_getElem (by simp; omega) fun k _ _ => ?_
  simp [State.inRun]

/-- A back-reference from position `pos` to the byte that comes next, as the encoder accepts it (R109). -/
def legalReference (s : State) (done a len pos : Nat) : Prop :=
  encodable s.extOn len ∧ 1 ≤ a - pos ∧ a - pos ≤ 65531 ∧ pos + len < a ∧ a ≤ done ∧
    ∀ k < len, s.inAt (pos + k) = s.inAt (done + k)

/-- A legal back-reference lists the bytes that it copies. -/
theorem listed.reference {a : Word} {len pos : Nat} (h : listed s n pa done syms)
    (ha : a.toNat = if n.toNat % 2 = 0 then done else pa) (hlegal : legalReference s done a.toNat len pos) :
    listed s (n + 1#32) a.toNat (done + len) (syms ++ [(refDesc len pos a).toSym s]) := by
  obtain ⟨⟨h4, hlen⟩, hfar, hnear, hbefore, hanchor, hequal⟩ := hlegal
  have hlenval : (refDesc len pos a).length.toNat = len := by
    rw [refDesc, BitVec.toNat_ofNat]
    omega
  have hposval : (refDesc len pos a).srcPos.toNat = pos := word_toNat (by omega)
  have hcopied : copyBack a.toNat (s.inRun 0 done) (a.toNat - pos) len = some (s.inRun 0 (done + len)) := by
    have hrun : s.inRun pos len = s.inRun done len := List.map_congr_left fun k hk => hequal k (List.mem_range.1 hk)
    have hsource : a.toNat - (a.toNat - pos) = pos := by omega
    rw [copyBack, if_pos (by omega), hsource, s.take_drop_inRun (by omega), hrun, State.inRun_add, Nat.zero_add]
  by_cases h16 : len ≤ 16
  · have hsym : (refDesc len pos a).toSym s = .ref (a.toNat - pos) len := by
      rw [Desc.toSym, hlenval, hposval, if_pos h16]
      rfl
    rw [hsym]
    exact h.snoc ha (Sym.wf_ref.2 (by omega)) (by rw [runSym_ref]; exact hcopied)
  · have hsym : (refDesc len pos a).toSym s = .refx (a.toNat - pos) len := by
      rw [Desc.toSym, hlenval, hposval, if_neg h16]
      rfl
    obtain ⟨hext, hlong⟩ := hlen.resolve_left h16
    rw [hsym]
    exact h.snoc ha (Sym.wf_refx.2 ⟨⟨hext, hfar, by omega⟩, hlong⟩) (by rw [runSym_refx]; exact hcopied)

end

/-! ### One iteration and the tail (R108 to R111, R114) -/

section
variable {s : State} {e : EncRegs} {syms : List Sym}

/-- With an accepted candidate the pending literal and the back-reference list the input up to the new cursor: the
anchor of R108 is the one that DECODE will measure from. -/
theorem listed.addMatch {len pos : Nat} (h : listed s e.n e.pa.toNat e.lit.toNat syms) (hready : scanReady s.extOn e)
    (hend : e.i.toNat + len < 2 ^ 32) (hlegal : legalReference s e.i.toNat (positionAnchor e).toNat len pos)
    {r : EncRegs} (hr : r = scanRegs e (some (len, pos)) (positionAnchor e)) :
    listed s r.n r.pa.toNat r.lit.toNat
      (syms ++ (scanEmitted e (some (len, pos)) (positionAnchor e)).map (Desc.toSym s)) := by
  obtain ⟨hle, hrun, hg, -⟩ := hready
  obtain ⟨hi, hlit, hpending, halone⟩ := scan_of_accepted (a := positionAnchor e) (pos := pos) hg hend
  rw [hr, hlit, hi]
  have hanchor := positionAnchor_eq e
  obtain hlt | heq := Nat.lt_or_eq_of_le hle
  · obtain ⟨hds, hn, hpa⟩ := hpending hlt
    rw [if_pos hlt, if_pos hlt] at hanchor
    have hliteral := h.literal (len := e.i.toNat - e.lit.toNat) (by omega) (by omega)
    rw [Nat.add_sub_cancel' hle] at hliteral
    have hparity : (e.n + 1#32).toNat % 2 = (e.n.toNat + 1) % 2 := by
      rw [BitVec.toNat_add, BitVec.toNat_ofNat]
      omega
    have hpa' : positionAnchor e = if e.n.toNat % 2 = 0 then e.lit else e.i := by
      rw [hanchor]
      obtain heven | hodd := Nat.mod_two_eq_zero_or_one e.n.toNat
      · rw [if_neg (by omega), if_pos heven]
      · rw [if_pos (by omega), if_neg (by omega)]
    have ha : (positionAnchor e).toNat = if (e.n + 1#32).toNat % 2 = 0 then e.i.toNat else
        (if e.n.toNat % 2 = 0 then e.lit else e.pa).toNat := by
      rw [hpa', hparity]
      obtain heven | hodd := Nat.mod_two_eq_zero_or_one e.n.toNat
      · rw [if_pos heven, if_neg (by omega), if_pos heven]
      · rw [if_neg (by omega), if_pos (by omega)]
    have hnext := hliteral.reference ha hlegal
    rw [List.append_assoc, BitVec.add_assoc] at hnext
    rw [hds, hn, hpa, ← hpa']
    exact hnext
  · obtain ⟨hds, hn, hpa⟩ := halone heq
    rw [heq, if_neg (lt_irrefl _), if_neg (lt_irrefl _), Nat.add_zero] at hanchor
    rw [heq] at h
    have hnext := h.reference (by rw [hanchor, apply_ite BitVec.toNat]) hlegal
    rw [hds, hn, hpa, ← hanchor]
    exact hnext

/-- Without one the byte joins the run, which is a listed literal when it is full. -/
theorem listed.addLiteralByte {a : Word} (h : listed s e.n e.pa.toNat e.lit.toNat syms) (hready : scanReady s.extOn e)
    (hend : e.i.toNat + 1 < 2 ^ 32) {r : EncRegs} (hr : r = scanRegs e none a) :
    listed s r.n r.pa.toNat r.lit.toNat (syms ++ (scanEmitted e none a).map (Desc.toSym s)) := by
  obtain ⟨hle, hrun, hg, -⟩ := hready
  obtain ⟨hi, hshort, hfull⟩ := scan_of_none (a := a) hle hg hend
  rw [hr]
  obtain hlt | heq := Nat.lt_or_eq_of_le (show e.i.toNat + 1 ≤ e.lit.toNat + 16 from hrun)
  · obtain ⟨hds, hlit, hn, hpa⟩ := hshort hlt
    rw [hds, hlit, hn, hpa, List.map_nil, List.append_nil]
    exact h
  · obtain ⟨hds, hlit, hn, hpa⟩ := hfull heq
    rw [hds, hlit, hi, hn, hpa, heq]
    exact h.literal (by decide) (le_refl 16)

/-- The trailing literal lists the rest of the input. -/
theorem listed.trailing (h : listed s e.n e.pa.toNat e.lit.toNat syms) (hready : scanReady s.extOn e) :
    ∃ n pa, listed s n pa e.i.toNat (syms ++ (trailingDescs e).map (Desc.toSym s)) := by
  obtain ⟨hle, hrun, -, -⟩ := hready
  obtain hlt | heq := Nat.lt_or_eq_of_le hle
  · have hliteral := h.literal (len := e.i.toNat - e.lit.toNat) (by omega) (by omega)
    rw [Nat.add_sub_cancel' hle] at hliteral
    rw [trailingDescs, if_pos hlt]
    exact ⟨_, _, hliteral⟩
  · rw [trailingDescs, if_neg heq.not_lt, List.map_nil, List.append_nil, ← heq]
    exact ⟨_, _, h⟩

end

/-! ### The scan (R107 to R112) -/

/-- ENCODE, issued in `s`, stands in `t` in mid-scan: the symbols `sent` are in OUT as whole groups, and with those held
they list the input up to the pending literal. -/
structure encoding (s : State) (sent : List Desc) (t : State) : Prop where
  inv : scanInv s.inSize t
  kept : scanKept s t
  whole : sent.length % 8 = 0
  output : t.outRun 0 t.enc.o.toNat = putLE24 s.inSize ++ streamBytes 0 (sent.map (Desc.toSym s))
  symbols : listed s t.enc.n t.enc.pa.toNat t.enc.lit.toNat ((sent ++ t.enc.held).map (Desc.toSym s))

theorem State.outRun_congr {s t : State} {a n : Nat} (h : ∀ k < n, t.outAt (a + k) = s.outAt (a + k)) :
    t.outRun a n = s.outRun a n :=
  List.map_congr_left fun k hk => h k (List.mem_range.1 hk)

theorem State.outRun_add (s : State) (a m n : Nat) : s.outRun a (m + n) = s.outRun a m ++ s.outRun (a + m) n := by
  simp [State.outRun, List.range_add, Nat.add_assoc]

/-- OUT up to the end of bytes stored at `o`. -/
theorem outRun_of_storedAt {s t : State} {o : Nat} {bytes : List Byte} (h : storedAt s t o bytes) :
    t.outRun 0 (o + bytes.length) = s.outRun 0 o ++ bytes := by
  obtain ⟨-, hinside, houtside⟩ := h
  have hbytes : t.outRun o bytes.length = bytes := by
    refine List.ext_getElem (State.outRun_length _ _ _) fun k hk hk' => ?_
    simp [State.outRun, hinside k hk']
  rw [State.outRun_add, Nat.zero_add, hbytes, State.outRun_congr fun k hk => houtside _ (by omega)]

theorem outRun_of_outKept {s t : State} (h : outKept s t) (a n : Nat) : t.outRun a n = s.outRun a n := by
  obtain ⟨hm, hd⟩ := h
  exact State.outRun_congr fun k _ => by rw [State.outAt, State.outAt, hm, hd]

section
variable {s t u : State} {sent : List Desc}

theorem groupBytes_of_scanKept (h : scanKept s t) (ds : List Desc) : groupBytes t ds = groupBytes s ds := by
  obtain ⟨-, -, hregs, -, hin⟩ := h
  have hpayload : payloadOf t = payloadOf s := by
    funext d
    simp only [payloadOf, State.inRun, State.inAt, hin]
  rw [groupBytes, groupBytes, hpayload, State.extOn, hregs, State.extOn]

theorem encoding.extOn_eq (h : encoding s sent t) : t.extOn = s.extOn := by
  obtain ⟨-, -, hregs, -⟩ := h.kept
  rw [State.extOn, hregs, State.extOn]

theorem encoding.legal (h : encoding s sent t) : s.inSize ≤ s.blockSize := by
  obtain ⟨-, -, hsize, -⟩ := h.inv
  obtain ⟨hbuild, -⟩ := h.kept
  rwa [State.blockSize, hbuild] at hsize

/-- A whole group more in OUT. -/
theorem streamBytes_sent_append (s : State) {ds : List Desc} (hsent : sent.length % 8 = 0) (hne : ds ≠ [])
    (hlen : ds.length ≤ 8) (hpack : ds.all (Desc.packable s.extOn) = true) :
    streamBytes 0 ((sent ++ ds).map (Desc.toSym s)) = streamBytes 0 (sent.map (Desc.toSym s)) ++ groupBytes s ds := by
  have hk : (0 + (sent.map (Desc.toSym s)).length) % 8 = 0 := by rw [Nat.zero_add, List.length_map, hsent]
  rw [List.map_append, streamBytes_append hk, streamBytes_eq_assembleGroup hk (by simpa using hne)
    (by rw [List.length_map]; exact hlen), groupBytes_eq_assembleGroup hpack]

/-- Symbols emitted join those held, and a full group joins those sent. -/
theorem encoding.of_emits {ds : List Desc} (h : encoding s sent u) (hinv : scanInv s.inSize t) (hkept : scanKept s t)
    (hpack : (u.enc.held ++ ds).all (Desc.packable s.extOn) = true) (hemits : emits u t ds)
    (hlisted : listed s t.enc.n t.enc.pa.toNat t.enc.lit.toNat ((sent ++ (u.enc.held ++ ds)).map (Desc.toSym s))) :
    ∃ sent', encoding s sent' t := by
  obtain ⟨hshort, hfull⟩ := hemits
  obtain hlt | hge := Nat.lt_or_ge (u.enc.held ++ ds).length 8
  · obtain ⟨hheld, ho, hout⟩ := hshort hlt
    exact ⟨sent, hinv, hkept, h.whole, by rw [ho, outRun_of_outKept hout, h.output], hheld ▸ hlisted⟩
  · obtain ⟨hheld, ho, hstored⟩ := hfull hge
    have hlen : ((u.enc.held ++ ds).take 8).length = 8 := List.length_take_of_le hge
    refine ⟨sent ++ (u.enc.held ++ ds).take 8, hinv, hkept, ?_, ?_, ?_⟩
    · rw [List.length_append, hlen, Nat.add_mod_right, h.whole]
    · have hne : (u.enc.held ++ ds).take 8 ≠ [] := List.ne_nil_of_length_pos (by rw [hlen]; decide)
      rw [ho, outRun_of_storedAt hstored, h.output, List.append_assoc, groupBytes_of_scanKept h.kept,
        streamBytes_sent_append s h.whole hne hlen.le (all_of_subset hpack (List.take_subset _ _))]
    · rw [hheld, List.append_assoc, List.take_append_drop]
      exact hlisted

/-- The candidate that an iteration accepts is a legal back-reference. -/
theorem legalReference_of_scanAccepted {size len pos : Nat} (hkept : scanKept s u)
    (h : scanAccepted size u = some (len, pos)) :
    legalReference s u.enc.i.toNat (positionAnchor u.enc).toNat len pos ∧ u.enc.i.toNat + len ≤ size := by
  obtain ⟨-, -, hregs, -, hin⟩ := hkept
  obtain ⟨hencodable, hend⟩ := encodable_of_accepted h
  obtain ⟨-, hfar, hnear, hbefore, hanchor, -, -, hequal⟩ := acceptedCandidateIsLegal _ _ _ _ _ _ _ _ _ h
  rw [State.extOn, hregs] at hencodable
  rw [hin] at hequal
  exact ⟨⟨hencodable, hfar, hnear, hbefore, hanchor, hequal⟩, hend⟩

/-- One iteration keeps the listing in step with the input. -/
theorem encoding.scanStep (h : encoding s sent u) (hi : u.enc.i.toNat < s.inSize)
    (ht : scanStep s.inSize u = .next t) : ∃ sent', encoding s sent' t := by
  obtain ⟨hinv, -, hkept, hemits, -, hlit, hn, hpa⟩ := scanStep_of_scanInv h.inv hi ht
  have hsize : s.inSize < 2 ^ 32 := s.regs.inSize.isLt
  have hready : scanReady s.extOn u.enc := h.extOn_eq ▸ h.inv.1
  have hlegal := fun len pos => legalReference_of_scanAccepted (size := s.inSize) (len := len) (pos := pos) h.kept
  have hpack : (scanSymbols s.inSize u).all (Desc.packable s.extOn) = true :=
    (scanAdvance_scanRegs (a := positionAnchor u.enc) hready hi hsize fun len pos hsome =>
      ⟨(hlegal len pos hsome).1.1, (hlegal len pos hsome).2⟩).packable
  refine h.of_emits hinv (h.kept.trans hkept) (List.all_append.trans (by rw [hready.2.2.2, hpack]; rfl)) hemits ?_
  rw [hlit, hn, hpa, ← List.append_assoc, List.map_append, scanSymbols]
  cases haccepted : scanAccepted s.inSize u with
  | some r =>
    obtain ⟨hreference, hend⟩ := hlegal r.1 r.2 haccepted
    exact h.symbols.addMatch hready (hend.trans_lt hsize) hreference rfl
  | none => exact h.symbols.addLiteralByte hready (Nat.lt_of_le_of_lt hi hsize) rfl

/-- ENCODE starts with nothing listed and its header in OUT (R106, R107). -/
theorem encoding_encodeStart (h : s.inSize ≤ s.blockSize) : encoding s [] (encodeStart s) where
  inv := scanInv_encodeStart h
  kept := ⟨rfl, rfl, rfl, rfl, rfl⟩
  whole := rfl
  output := outRun_of_storedAt (storedAt_encodeStart s)
  symbols := listed_nil s

/-- All states of the scan list the input so far. -/
theorem encoding_of_trace {p : Nat → State} {k : Nat} (h : encoding s [] (p 0))
    (hp : ∀ j < k, (p j).enc.i.toNat < s.inSize ∧ Machine.scanStep s.inSize (p j) = .next (p (j + 1))) :
    ∃ sent, encoding s sent (p k) := by
  induction k with
  | zero => exact ⟨[], h⟩
  | succ k ih =>
    obtain ⟨sent, hk⟩ := ih fun j hj => hp j (Nat.lt_succ_of_lt hj)
    obtain ⟨hi, hstep⟩ := hp k (Nat.lt_succ_self k)
    exact hk.scanStep hi hstep

/-! ### The payload of ENCODE is a listing of its input (R105, R114, R115) -/

/-- A listing of a block: it assembles to the payload and stands for the block. -/
structure listsBlock (g : Geometry) (l : Listing) (ext : Bool) (input payload : List Byte) : Prop where
  ext_eq : l.ext = ext
  wf : l.wf g = true
  assembled : assemble l = payload
  block : listingOutput l = some input

/-- The tail writes the symbols left as the last group, and all symbols list the whole input. -/
theorem encoding.encodeTail (h : encoding s sent u) (hi : u.enc.i.toNat = s.inSize)
    (ht : encodeTail u = .next t) :
    ∃ l, listsBlock s.build.geometry l s.extOn (s.inRun 0 s.inSize) (t.outRun 0 t.enc.o.toNat) := by
  obtain ⟨t', ht', -, hstores⟩ := encodeTail_completes h.inv.1 (room_of_scanInv h.inv)
  obtain rfl := Host.Outcome.next.inj (ht'.symm.trans ht)
  have hready : scanReady s.extOn u.enc := h.extOn_eq ▸ h.inv.1
  obtain ⟨n, pa, hlisted⟩ := h.symbols.trailing hready
  rw [← List.map_append, List.append_assoc, hi] at hlisted
  have hpack := packable_trailing hready
  have hlen := trailing_length hready
  generalize u.enc.held ++ trailingDescs u.enc = last at hstores hlisted hpack hlen
  refine ⟨⟨s.inSize, s.extOn, (sent ++ last).map (Desc.toSym s)⟩, rfl, Listing.wf_iff.2
    ⟨hlisted.wf, hlisted.total, h.legal⟩, ?_, ?_⟩
  · rw [assemble_eq, hstores.2.2, outRun_of_storedAt hstores.storedAt, h.output, List.append_assoc]
    by_cases hnil : last = []
    · rw [lastGroup, if_pos hnil, hnil, List.append_nil, List.append_nil]
    · rw [lastGroup, if_neg hnil, groupBytes_of_scanKept h.kept, streamBytes_sent_append s h.whole hnil hlen hpack]
  · have hruns := hlisted.runs []
    rw [List.append_nil] at hruns
    exact hruns

end

/-- ENCODE of a legal block ends OK, and its payload is a listing of the block. -/
theorem execEncode_lists {s : State} (hsize : s.inSize ≤ s.blockSize) (hclean : s.ctx.dirty = false) :
    ∃ t l, execEncode s = .next t ∧ t.regs.status = 0#8 ∧ t.result.length ≤ s.outputSize ∧
      listsBlock s.build.geometry l s.extOn (s.inRun 0 s.inSize) t.result := by
  obtain ⟨k, p, v, hp0, hp, hpk, hv, hkept, -, -, hroom, hexec⟩ := execEncode_trace hsize hclean
  obtain ⟨sent, hscan⟩ := encoding_of_trace (hp0 ▸ encoding_encodeStart hsize) hp
  obtain ⟨l, hl⟩ := hscan.encodeTail hpk hv
  have hregs := encodeFinish_regs v
  have hresult : (encodeFinish v).result = v.outRun 0 v.enc.o.toNat := by
    rw [State.result, hregs]
    exact State.outRun_congr fun a ha => outAt_encodeFinish hkept (by rwa [Nat.zero_add])
  refine ⟨encodeFinish v, l, hexec, by rw [hregs], ?_, ?_⟩ <;> rw [hresult]
  · rw [State.outRun_length]
    exact hroom
  · exact hl

end Sys2Proof.Machine

/-! SUPPORT. The calls of the facade, and the round trip: DECODE of what ENCODE made. -/

namespace Sys2Proof.Machine

/-! ### The facade's calls (R150) -/

section
variable (s : State) (code : Byte) (input : List Byte) (ext : Bool)

@[simp] theorem State.called_phase : (s.called code input ext).phase = .issued := rfl
@[simp] theorem State.called_build : (s.called code input ext).build = s.build := rfl
@[simp] theorem State.called_ctx : (s.called code input ext).ctx = s.ctx := rfl
@[simp] theorem State.called_blockSize : (s.called code input ext).blockSize = s.blockSize := rfl
@[simp] theorem State.called_outputSize : (s.called code input ext).outputSize = s.outputSize := rfl

@[simp] theorem State.called_cmd : (s.called code input ext).regs.cmd = code := by
  change BitVec.ofNat 8 code.toNat = code
  rw [BitVec.ofNat_toNat, BitVec.setWidth_eq]

@[simp] theorem State.called_extOn : (s.called code input ext).extOn = ext := by
  cases ext <;> rfl

variable {s input}

theorem State.called_inSize (h : input.length ≤ s.outputSize) : (s.called code input ext).inSize = input.length :=
  word_toNat (h.trans_lt s.outputSize_lt)

/-- An input that fits lies in IN from index 0 on. -/
theorem State.called_inRun (h : input.length ≤ s.outputSize) :
    (s.called code input ext).inRun 0 input.length = input := by
  refine List.ext_getElem (State.inRun_length _ _ _) fun k hk hk' => ?_
  have hread : Memory.get? (Memory.putRun s.inMem 0 (input.take s.outputSize)) k = some input[k] := by
    rw [List.take_of_length_le h, Memory.get?_putRun, if_pos (by omega), Nat.sub_zero, List.getElem?_eq_getElem hk']
  have hbyte : (s.called code input ext).inAt k = input[k] := by
    change (Memory.get? (Memory.putRun s.inMem 0 (input.take s.outputSize)) k).getD _ = _
    rw [hread, Option.getD_some]
  simp [State.inRun, hbyte]

end

theorem fetch_of_issued {s : State} {i : Instr} (hp : s.phase = .issued) (hi : decodeCmd s.regs.cmd = .ok i) :
    fetch s = some i := by
  simp only [fetch, hp, fetchCommand, decode, hi, decoded]

theorem step_of_fetch {s : State} {i : Instr} (h : fetch s = some i) : step s = exec i s := by
  rw [step, h]

theorem step_of_issued {s : State} {i : Instr} (hp : s.phase = .issued) (hi : decodeCmd s.regs.cmd = .ok i) :
    step s = exec i s :=
  step_of_fetch (fetch_of_issued hp hi)

theorem callEncode_eq (s : State) (input : List Byte) (ext : Bool) :
    callEncode s input ext = execEncode (s.called 0x02#8 input ext) :=
  step_of_issued (i := .encode) (State.called_phase _ _ _ _) (by rw [State.called_cmd]; rfl)

theorem callDecode_eq (s : State) (input : List Byte) (ext : Bool) :
    callDecode s input ext = execDecode (s.called 0x03#8 input ext) :=
  step_of_issued (i := .decode) (State.called_phase _ _ _ _) (by rw [State.called_cmd]; rfl)

/-- Settles O37: the payload is a listing of the input, and DECODE of a listing gives the block it stands for. -/
theorem decodeOfEncodedBlock : Obligations.DecodeOfEncodedBlock := by
  intro s u input ext hsize hclean hgeometry
  have hfits := hsize.trans s.blockSize_le_outputSize
  have hlen : (s.called 0x02#8 input ext).inSize = input.length := State.called_inSize _ _ hfits
  obtain ⟨t, l, ht, hok, hpayload, hl⟩ := execEncode_lists (s := s.called 0x02#8 input ext) (hlen.trans_le hsize) hclean
  rw [State.called_extOn, hlen, State.called_inRun _ _ hfits] at hl
  have hroom : t.result.length ≤ u.outputSize := by
    rw [State.outputSize, hgeometry]
    exact hpayload
  have hdecode := execDecode_of_listing (s := u.called 0x03#8 t.result ext) (l := l) (hgeometry ▸ hl.wf)
    ((State.called_inSize _ _ hroom).trans_le hroom)
    (by rw [State.called_inSize _ _ hroom, hl.assembled])
    (by rw [hl.assembled, State.called_inRun _ _ hroom])
    (by rw [State.called_extOn, hl.ext_eq])
  obtain ⟨v, hv, -, hregs, hresult, -⟩ := hdecode.1 input hl.block
  exact ⟨t, v, (callEncode_eq s input ext).trans ht, hok, (callDecode_eq u t.result ext).trans hv, by rw [hregs],
    hresult⟩

end Sys2Proof.Machine

/-! SUPPORT. The step by what it fetches; the refusals of DECODE, its block header and its group header. -/

namespace Sys2Proof.Machine

/-! ### The step runs what is fetched (R126, R127, R129, R145, R146) -/

theorem fetch_of_header {s : State} {i : Instr} {rest : List Byte} (hp : s.phase = .header)
    (h : decode .blkhdr [s.inAt 0, s.inAt 1, s.inAt 2] = .ok (i, rest)) : fetch s = some i := by
  have hbytes : headerBytes s = [s.inAt 0, s.inAt 1, s.inAt 2] := inRun_three s 0
  simp only [fetch, hp, fetchHeader, hbytes, h, decoded]

theorem fetch_of_group {s : State} {i : Instr} {rest : List Byte} (hp : s.phase = .group)
    (hin : s.dec.i.toNat + 5 ≤ s.inSize)
    (h : decode .group [s.inAt s.dec.i.toNat, s.inAt (s.dec.i.toNat + 1), s.inAt (s.dec.i.toNat + 2),
      s.inAt (s.dec.i.toNat + 3), s.inAt (s.dec.i.toNat + 4)] = .ok (i, rest)) : fetch s = some i := by
  have hpresent : groupPresent s = true := decide_eq_true hin
  simp only [fetch, hp, fetchGroup, hpresent, if_true, groupHeaderBytes, inRun_five, h, decoded]

/-- Where the payload ends inside a group header, the step is its rejection (R127). -/
theorem step_of_cut_group {s : State} (hp : s.phase = .group) (hcut : s.inSize < s.dec.i.toNat + 5) :
    step s = .next (s.rejectStream .errUnderrun) := by
  have habsent : groupPresent s = false := decide_eq_false (Nat.not_le.2 hcut)
  have hfetch : fetch s = none := by
    simp only [fetch, hp, fetchGroup, habsent, Bool.false_eq_true, if_false]
  simp only [step, hfetch, noInstruction, hp]

/-! ### A rejection in mid-stream (R164, R165) -/

/-- What a rejection inside the stream leaves: the command ended with its code and OUT_SIZE 0, no byte of OUT
specified, all but the decoder registers as it was. -/
def streamRejected (s t : State) (code : BitVec 8) : Prop :=
  t.phase = .idle ∧ t.regs = { s.regs with status := code, outSize := 0#32 } ∧ coreKept s t ∧
    ∀ a, Memory.get? t.outMem a = none

theorem streamRejected_rejectStream (s : State) (d : DecRegs) (c : StatusCode) :
    streamRejected s ((s.withDec d).rejectStream c) (statusByte c) :=
  ⟨rfl, rfl, ⟨rfl, rfl, rfl, rfl⟩, fun _ => by rw [State.rejectStream_outMem]; rfl⟩

/-- Settles O7: what is fetched in each phase, and the rejection of a group header cut short. -/
theorem stepRunsTheDecodedInstruction : Obligations.StepRunsTheDecodedInstruction := by
  intro s i
  refine ⟨step_of_issued, fun hp _ h => step_of_fetch (fetch_of_header hp h),
    fun hp hin _ h => step_of_fetch (fetch_of_group hp hin h), fun hp hcut => ?_, fun hp c nib hslot hi => ?_⟩
  · obtain ⟨hphase, hregs, hcore, hout⟩ := streamRejected_rejectStream s s.dec .errUnderrun
    exact ⟨_, step_of_cut_group hp hcut, hphase, hregs, rfl, hcore, hout⟩
  · have hsel : currentSel s = selOf s.extOn c nib := by rw [currentSel, hslot]
    refine step_of_fetch ?_
    simp only [fetch, hp, hsel, hi]

/-! ### The refusals and the headers (R125 to R128) -/

/-- Settles O39: the two tests of IN_SIZE, each with the rejection ERR_INSIZE. -/
theorem decodeRefusesBadInputSizes : Obligations.DecodeRefusesBadInputSizes := by
  intro s hsize
  change execDecode s = .next (s.reject .errInsize)
  unfold execDecode
  by_cases hlong : s.outputSize < s.inSize
  · rw [if_pos hlong]
  · rw [if_neg hlong, if_pos (hsize.resolve_left hlong)]

/-- Settles O42: the length against BLOCK_SIZE, and the first test of R135 after it. -/
theorem blockHeaderAnnouncesTheLength : Obligations.BlockHeaderAnnouncesTheLength := by
  refine fun s size => ⟨fun hpos hlegal => ?_, ?_,
    fun hlong => ⟨_, if_pos hlong, rfl, rfl, ⟨rfl, rfl, rfl, rfl⟩, rfl, rfl⟩⟩
  · have hfast : word (fastEndOf size.toNat) = if 512 < size.toNat then word (size.toNat - 256) else 0#32 :=
      apply_ite word _ _ _
    rw [← hfast]
    exact (if_neg (Nat.not_lt.2 hlegal)).trans (congrArg _ (if_neg (by simp [decodedAll]; omega)))
  · rintro rfl
    obtain ⟨d, hds, -, -, hr⟩ := execBlkhdr_of_le (size := 0#24) (s := s) (Nat.zero_le _)
    have hzero : (s.withDec d).dec.size.toNat = 0 := congrArg BitVec.toNat hds
    rw [if_pos (by simp [decodedAll, hds])] at hr
    refine ⟨_, hr, rfl, by rw [decodeFinish_cases, hzero]; rfl, ⟨rfl, rfl, rfl, rfl⟩, fun a => ?_⟩
    exact (State.get?_loseOut (s.withDec d) _ a).trans (if_neg (by rw [hzero]; exact Nat.not_lt_zero a))

/-- Settles O43: the test of R127, then the registers of R128. -/
theorem groupHeaderIsFetchedWhole : Obligations.GroupHeaderIsFetchedWhole := by
  refine fun s ctrl sz0 sz1 sz2 sz3 => ⟨fun hin hpayload => ?_, fun hcut => ?_⟩
  · change execGroup ctrl sz0 sz1 sz2 sz3 s = _
    unfold execGroup
    rw [if_neg (by simpa [groupPresent] using hin), if_neg (by omega)]
    rfl
  · exact ⟨_, if_pos (by simpa [groupPresent] using hcut), streamRejected_rejectStream s s.dec .errUnderrun⟩

end Sys2Proof.Machine

/-! SUPPORT. The symbols of the stream: their rejections in order, the bytes they store, where DECODE goes on. -/

namespace Sys2Proof.Machine

/-! ### The rejections of a symbol, in their order (R130, R131, R137) -/

section
variable {len : Nat} {s : State}

theorem literalRun_underrun (hin : s.inSize < s.dec.i.toNat + len) :
    literalRun len s = .next (s.rejectStream .errUnderrun) :=
  if_pos hin

theorem literalRun_overrun (hin : s.dec.i.toNat + len ≤ s.inSize) (hout : s.dec.size.toNat < s.dec.j.toNat + len) :
    literalRun len s = .next (s.rejectStream .errOverrun) :=
  (if_neg (Nat.not_lt.2 hin)).trans (if_pos hout)

/-- Settles O45: the two tests of a literal in their order. -/
theorem litRejectsInOrder : Obligations.LitRejectsInOrder := by
  rintro s nib len rfl
  exact ⟨fun hin => ⟨_, literalRun_underrun hin, streamRejected_rejectStream s s.dec .errUnderrun⟩,
    fun hin hout => ⟨_, literalRun_overrun hin hout, streamRejected_rejectStream s s.dec .errOverrun⟩⟩

theorem backReference_underrun (hin : s.inSize < s.dec.i.toNat + 2) :
    backReference len s = .next (s.rejectStream .errUnderrun) :=
  if_pos hin

/-- The offset that a back-reference reads (R131). -/
def offsetAt (s : State) : Nat := le16 (s.inAt s.dec.i.toNat) (s.inAt (s.dec.i.toNat + 1))

/-- The read cursor behind the offset. -/
def pastOffset (s : State) : State := s.withDec { s.dec with i := word (s.dec.i.toNat + 2) }

theorem backReference_badOffset (hin : s.dec.i.toNat + 2 ≤ s.inSize) (hpayload : s.inSize ≤ s.outputSize)
    (hoff : offsetAt s = 0 ∨ s.dec.anchor.toNat < offsetAt s) :
    backReference len s = .next ((pastOffset s).rejectStream .errOffset) :=
  (if_neg (Nat.not_lt.2 hin)).trans ((if_neg (Nat.not_lt.2 (hin.trans hpayload))).trans (if_pos hoff))

theorem backReference_overlap (hin : s.dec.i.toNat + 2 ≤ s.inSize) (hpayload : s.inSize ≤ s.outputSize)
    (hlo : 1 ≤ offsetAt s) (hhi : offsetAt s ≤ s.dec.anchor.toNat) (hlen : offsetAt s < len) :
    backReference len s = .next ((pastOffset s).rejectStream .errOverlap) :=
  have hlegal : ¬(offsetAt s = 0 ∨ s.dec.anchor.toNat < offsetAt s) := by omega
  have hpast : s.dec.anchor.toNat < s.dec.anchor.toNat - offsetAt s + len := by omega
  (if_neg (Nat.not_lt.2 hin)).trans ((if_neg (Nat.not_lt.2 (hin.trans hpayload))).trans
    ((if_neg hlegal).trans (if_pos hpast)))

theorem backReference_overrun (hin : s.dec.i.toNat + 2 ≤ s.inSize) (hpayload : s.inSize ≤ s.outputSize)
    (hlo : 1 ≤ offsetAt s) (hhi : offsetAt s ≤ s.dec.anchor.toNat) (hlen : len ≤ offsetAt s)
    (hout : s.dec.size.toNat < s.dec.j.toNat + len) :
    backReference len s = .next ((pastOffset s).rejectStream .errOverrun) :=
  have hlegal : ¬(offsetAt s = 0 ∨ s.dec.anchor.toNat < offsetAt s) := by omega
  have hinside : ¬ s.dec.anchor.toNat < s.dec.anchor.toNat - offsetAt s + len := by omega
  (if_neg (Nat.not_lt.2 hin)).trans ((if_neg (Nat.not_lt.2 (hin.trans hpayload))).trans
    ((if_neg hlegal).trans ((if_neg hinside).trans (if_pos hout))))

end

/-- Settles O47: the four tests of a back-reference in their order, for every form by its length. -/
theorem backReferenceRejectsInOrder : Obligations.BackReferenceRejectsInOrder := by
  rintro s i len off code hi rfl hcase
  rw [exec_of_refLength hi]
  obtain ⟨hin, rfl⟩ | ⟨hin, hpayload, ⟨hoff, rfl⟩ | ⟨hlo, hhi, hlen, rfl⟩ | ⟨hlo, hhi, hlen, hout, rfl⟩⟩ := hcase
  · exact ⟨_, backReference_underrun hin, streamRejected_rejectStream s s.dec .errUnderrun⟩
  · exact ⟨_, backReference_badOffset hin hpayload hoff, streamRejected_rejectStream s _ .errOffset⟩
  · exact ⟨_, backReference_overlap hin hpayload hlo hhi hlen, streamRejected_rejectStream s _ .errOverlap⟩
  · exact ⟨_, backReference_overrun hin hpayload hlo hhi hlen hout, streamRejected_rejectStream s _ .errOverrun⟩

/-! ### After a symbol: what OUT reads, what is kept, where DECODE stands (R125, R128, R135, R136) -/

/-- After a symbol OUT reads as it left it, of an ended block the specified bytes below `d_size`. -/
theorem outAt_afterSymbol {u : State} {x : Nat}
    (h : u.dec.j.toNat < u.dec.size.toNat ∨ (x < u.dec.size.toNat ∧ (Memory.get? u.outMem x).isSome = true)) :
    (afterSymbol u).outAt x = u.outAt x := by
  obtain ⟨hend, hr⟩ | ⟨-, -, hr⟩ | ⟨-, -, hr⟩ := afterSymbol_cases u <;> rw [hr]
  · obtain ⟨hx, hs⟩ := h.resolve_left (Nat.not_lt.2 hend)
    exact outAt_decodeFinish hx hs
  · rfl
  · rfl

theorem coreKept_afterSymbol (u : State) : coreKept u (afterSymbol u) := by
  obtain ⟨-, hr⟩ | ⟨-, -, hr⟩ | ⟨-, -, hr⟩ := afterSymbol_cases u <;> rw [hr] <;> exact ⟨rfl, rfl, rfl, rfl⟩

/-- After a symbol that moved the cursors to `i` and `j`, DECODE goes on or the block ends. -/
theorem decodeGoesOn_afterSymbol {s u : State} {i j : Nat} (hi : i < 2 ^ 32) (hj : j < 2 ^ 32)
    (hdec : u.dec = { s.dec with i := word i, j := word j }) (hregs : u.regs = s.regs) (hdraw : u.outDraw = s.outDraw) :
    decodeGoesOn s (afterSymbol u) i j := by
  have hival := word_toNat hi
  have hjval := word_toNat hj
  have hends := afterSymbol_cases u
  rw [hdec, hjval] at hends
  obtain ⟨hend, hr⟩ | ⟨hmore, hk, hr⟩ | ⟨hmore, hk, hr⟩ := hends <;> rw [hr]
  · refine ⟨?_, ?_, ?_, ?_, ?_, ?_, fun hlt => absurd hlt (Nat.not_lt.2 hend), fun _ => ⟨rfl, ?_, ?_, ?_⟩⟩ <;>
      simp [decodeFinish_cases, hdec, hregs, hival, hjval, BitVec.ofNat_toNat]
  · refine ⟨?_, ?_, ?_, ?_, ?_, ?_, fun _ => ⟨hregs, hdraw, fun _ => ⟨rfl, ?_, ?_⟩, fun hne => absurd hk hne⟩,
      fun hle => absurd hmore (Nat.not_lt.2 hle)⟩ <;> simp [hdec, hival, hjval]
  · have hparity : (s.dec.k + 1).val % 2 = 0 ↔ ¬ s.dec.k.val % 2 = 0 := by
      have hlt := s.dec.k.isLt
      have hne : s.dec.k.val ≠ 7 := fun h7 => hk (Fin.ext h7)
      rw [Fin.val_add]
      change (s.dec.k.val + 1) % 8 % 2 = 0 ↔ _
      omega
    refine ⟨rfl, rfl, rfl, rfl, hival, hjval, fun _ => ⟨hregs, hdraw, fun h7 => absurd h7 hk, fun _ => ⟨rfl, rfl, ?_⟩⟩,
      fun hle => absurd hmore (Nat.not_lt.2 hle)⟩
    change (if (s.dec.k + 1).val % 2 = 0 then word j else s.dec.anchor) = _
    by_cases heven : s.dec.k.val % 2 = 0
    · rw [if_neg (fun h => hparity.1 h heven), if_pos heven]
    · rw [if_pos (hparity.2 heven), if_neg heven]

/-! ### A symbol that stores its bytes (R130, R131) -/

/-- The state in which a symbol has stored `bytes` at the write cursor and moved the cursors on. -/
def symbolStored (s : State) (i : Nat) (bytes : List Byte) : State :=
  (s.putOut s.dec.j.toNat bytes).withDec { s.dec with i := word i, j := word (s.dec.j.toNat + bytes.length) }

section
variable {s : State} {i : Nat} {bytes : List Byte}

theorem symbolStored_j (hout : s.dec.j.toNat + bytes.length ≤ s.dec.size.toNat) :
    (symbolStored s i bytes).dec.j.toNat = s.dec.j.toNat + bytes.length :=
  word_toNat ((hout.trans_lt s.dec.size.isLt).trans (by decide))

theorem isSome_symbolStored {a : Nat} (h : (s.dec.j.toNat ≤ a ∧ a < s.dec.j.toNat + bytes.length) ∨
    (Memory.get? s.outMem a).isSome = true) : (Memory.get? (symbolStored s i bytes).outMem a).isSome = true :=
  Memory.isSome_get?_putRun h

/-- The stored bytes are read back, and every other byte reads as before, as far as the end of the block keeps it. -/
theorem outAt_afterSymbol_symbolStored (hout : s.dec.j.toNat + bytes.length ≤ s.dec.size.toNat) :
    (∀ k (h : k < bytes.length), (afterSymbol (symbolStored s i bytes)).outAt (s.dec.j.toNat + k) = bytes[k]) ∧
    ∀ a, a < s.dec.j.toNat ∨ s.dec.j.toNat + bytes.length ≤ a →
      s.dec.j.toNat + bytes.length < s.dec.size.toNat ∨
        (a < s.dec.size.toNat ∧ (Memory.get? s.outMem a).isSome = true) →
      (afterSymbol (symbolStored s i bytes)).outAt a = s.outAt a := by
  refine ⟨fun k hk => ?_, fun a ha hkept => ?_⟩
  · have hlast : s.dec.j.toNat + k < s.dec.size.toNat := by omega
    refine (outAt_afterSymbol (u := symbolStored s i bytes) (.inr ⟨hlast, ?_⟩)).trans (State.outAt_putOut_inside s hk)
    exact isSome_symbolStored (.inl (by omega))
  · refine (outAt_afterSymbol ?_).trans (State.outAt_putOut_outside s ha)
    rw [symbolStored_j hout]
    exact hkept.imp_right fun ⟨hx, hs⟩ => ⟨hx, isSome_symbolStored (.inr hs)⟩

theorem decodeGoesOn_symbolStored (hi : i < 2 ^ 32) (hout : s.dec.j.toNat + bytes.length ≤ s.dec.size.toNat) :
    decodeGoesOn s (afterSymbol (symbolStored s i bytes)) i (s.dec.j.toNat + bytes.length) :=
  decodeGoesOn_afterSymbol hi ((hout.trans_lt s.dec.size.isLt).trans (by decide)) rfl rfl rfl

end

/-- A literal that passes both tests stores its bytes. -/
theorem literalRun_stores {s : State} {len : Nat} (hin : s.dec.i.toNat + len ≤ s.inSize)
    (hpayload : s.inSize ≤ s.outputSize) (hout : s.dec.j.toNat + len ≤ s.dec.size.toNat)
    (hblock : s.dec.size.toNat ≤ s.outputSize) :
    literalRun len s = .next (afterSymbol (symbolStored s (s.dec.i.toNat + len) (s.inRun s.dec.i.toNat len))) := by
  obtain ⟨hunder, -⟩ | ⟨-, hover, -⟩ | ⟨-, -, hr⟩ := literalRun_cases (len := len) hpayload hblock
  · omega
  · omega
  · rw [hr, symbolStored, State.inRun_length]

/-- A back-reference that passes all four tests stores the bytes it copies. -/
theorem backReference_stores {s : State} {len : Nat} (hin : s.dec.i.toNat + 2 ≤ s.inSize)
    (hpayload : s.inSize ≤ s.outputSize) (hlo : 1 ≤ offsetAt s) (hhi : offsetAt s ≤ s.dec.anchor.toNat)
    (hlen : len ≤ offsetAt s) (hanchor : s.dec.anchor.toNat ≤ s.dec.j.toNat)
    (hout : s.dec.j.toNat + len ≤ s.dec.size.toNat) (hblock : s.dec.size.toNat ≤ s.outputSize) :
    backReference len s = .next (afterSymbol (symbolStored s (s.dec.i.toNat + 2)
      (s.outRun (s.dec.anchor.toNat - offsetAt s) len))) := by
  obtain ⟨hbad, -⟩ | ⟨-, hbad, -⟩ | ⟨-, -, -, hbad, -⟩ | ⟨-, -, -, -, hbad, -⟩ | ⟨-, -, -, -, -, hr⟩ :=
    backReference_cases (len := len) hpayload hblock hanchor (offsetAt s) rfl (pastOffset s) rfl
  · omega
  · omega
  · omega
  · omega
  · rw [hr, symbolStored, State.outRun_length]
    rfl

/-- Settles O44: the literal's bytes are stored at the write cursor, and DECODE goes on. -/
theorem litCopiesItsBytes : Obligations.LitCopiesItsBytes := by
  rintro s nib len rfl hin hpayload hout hblock
  have hlen := State.inRun_length s s.dec.i.toNat (nib.toNat + 1)
  obtain ⟨hbytes, hframe⟩ := outAt_afterSymbol_symbolStored (i := s.dec.i.toNat + (nib.toNat + 1)) (hlen.symm ▸ hout)
  have hgoes := decodeGoesOn_symbolStored (hin.trans_lt s.regs.inSize.isLt) (hlen.symm ▸ hout)
  rw [hlen] at hframe hgoes
  refine ⟨_, literalRun_stores hin hpayload hout (hblock.trans s.blockSize_le_outputSize), fun k hk => ?_, hframe,
    coreKept_afterSymbol _, hgoes⟩
  rw [hbytes k (hk.trans_eq hlen.symm)]
  simp [State.inRun]

/-- Settles O46: the bytes before the anchor are stored at the write cursor, and DECODE goes on. -/
theorem backReferenceCopiesFromTheAnchor : Obligations.BackReferenceCopiesFromTheAnchor := by
  rintro s i len off hi rfl hin hpayload hlo hhi hsource hanchor hout hblock
  have hlen := State.outRun_length s (s.dec.anchor.toNat - offsetAt s) len
  obtain ⟨hbytes, hframe⟩ := outAt_afterSymbol_symbolStored (i := s.dec.i.toNat + 2) (hlen.symm ▸ hout)
  have hgoes := decodeGoesOn_symbolStored (hin.trans_lt s.regs.inSize.isLt) (hlen.symm ▸ hout)
  rw [hlen] at hframe hgoes
  rw [exec_of_refLength hi]
  refine ⟨_, backReference_stores hin hpayload hlo hhi hsource hanchor hout (hblock.trans s.blockSize_le_outputSize),
    fun k hk => ?_, hframe, coreKept_afterSymbol _, hgoes⟩
  rw [hbytes k (hk.trans_eq hlen.symm)]
  simp [State.outRun, offsetAt, le16]

end Sys2Proof.Machine

/-! SUPPORT. DECODE comes to its end, whole or step by step, OK with its block or with one of its five rejections. -/

namespace Sys2Proof.Machine

/-! ### The stream comes to its end (R125, R142) -/

theorem execDecode_eq_runStream {s : State} (hlo : 3 ≤ s.inSize) (hhi : s.inSize ≤ s.outputSize) :
    execDecode s = runStream (s.inSize + 1) (decodeStart s) :=
  (if_neg (Nat.not_lt.2 hhi)).trans (if_neg (Nat.not_lt.2 hlo))

/-- From the block header on the stream ends within the fuel that DECODE gives it. -/
theorem runStream_decodeStart {s : State} (hlo : 3 ≤ s.inSize) (hhi : s.inSize ≤ s.outputSize) :
    ∃ t, runStream (s.inSize + 1) (decodeStart s) = .next t ∧ t.phase = .idle := by
  obtain ⟨u, hu⟩ := execBlkhdr_completes (le24 (s.inAt 0) (s.inAt 1) (s.inAt 2)) (decodeStart s)
  rw [runStream_succ (u := decodeStart s) s.inSize rfl hu]
  obtain ⟨d, rfl⟩ | ⟨d, hsize, hds, hdi, -, ⟨-, rfl⟩ | ⟨-, rfl⟩⟩ := execBlkhdr_eq_next hu
  · exact ⟨_, runStream_of_idle _ rfl, rfl⟩
  · exact ⟨_, runStream_of_idle _ rfl, rfl⟩
  · have hival : d.i.toNat = 3 := congrArg BitVec.toNat hdi
    have hblock : d.size.toNat ≤ s.outputSize := hds ▸ hsize.trans s.blockSize_le_outputSize
    obtain ⟨t, ht, hidle, -⟩ := runStream_ends (n := s.inSize) (s := ((decodeStart s).withDec d).withPhase .group)
      ⟨.inl rfl, hhi, hblock, hival.trans_le hlo, fun hp => nomatch hp⟩
      (by change s.inSize < s.inSize + d.i.toNat; omega)
    exact ⟨t, ht, hidle⟩

/-! ### The machine's steps are the stream's (R145, R190) -/

theorem run_succ_of_step {s t : State} (k : Nat) (h : step s = .next t) :
    Host.Core.run Sys2Proof.core (k + 1) s = Host.Core.run Sys2Proof.core k t := by
  have hstep : Sys2Proof.core.step s = .next t := h
  simp only [Host.Core.run, hstep]

/-- With nothing issued the machine holds its state. -/
theorem run_of_idle {s : State} (h : s.phase = .idle) (k : Nat) : Host.Core.run Sys2Proof.core k s = .next s := by
  induction k with
  | zero => rfl
  | succ k ih => rw [run_succ_of_step k (step_of_idle h), ih]

/-- A stream that has ended within its fuel is what the machine's steps come to, and stays there. -/
theorem run_of_runStream {n k : Nat} {s t : State} (h : runStream n s = .next t) (ht : t.phase = .idle) (hk : n ≤ k) :
    Host.Core.run Sys2Proof.core k s = .next t := by
  induction n generalizing k s with
  | zero =>
    obtain rfl := Host.Outcome.next.inj h
    exact run_of_idle ht k
  | succ n ih =>
    obtain ⟨k, rfl⟩ : ∃ m, k = m + 1 := ⟨k - 1, by omega⟩
    rw [runStream] at h
    split at h
    · rename_i hin
      obtain ⟨u, hu, hrest⟩ := andThen_eq_next.1 h
      have hissued : s.phase ≠ .issued := fun hp => by rw [hp] at hin; cases hin
      rw [run_succ_of_step k ((streamStep_eq_step hissued).symm.trans hu), ih hrest (Nat.le_of_succ_le_succ hk)]
    · obtain rfl := Host.Outcome.next.inj h
      exact run_of_idle ht _

/-- Settles O41: the stream ends within IN_SIZE + 1 steps, each the machine's own. -/
theorem decodeIsItsSymbolsInTurn : Obligations.DecodeIsItsSymbolsInTurn := by
  intro s k hlo hhi hk
  obtain ⟨t, ht, hidle⟩ := runStream_decodeStart hlo hhi
  exact (run_of_runStream ht hidle hk).trans ((execDecode_eq_runStream hlo hhi).trans ht).symm

/-! ### What DECODE comes to (R125, R126, R136, R164, R165) -/

/-- The length that the block header announces (R46). -/
def announcedSize (s : State) : BitVec 24 := le24 (s.inAt 0) (s.inAt 1) (s.inAt 2)

theorem announcedSize_toNat (s : State) :
    (announcedSize s).toNat = (s.inAt 0).toNat + 256 * (s.inAt 1).toNat + 65536 * (s.inAt 2).toNat := by
  rw [announcedSize, le24, BitVec.toNat_ofNat]
  omega

/-- DECODE, issued in `s`, is under way in `t`: OUT untouched up to the block header, its length announced behind it. -/
structure decodeRunning (s t : State) : Prop where
  inside : inDecode t.phase = true
  regs : t.regs = s.regs
  inv : decodeInv t
  untouched : t.phase = .header → outKept s t
  announced : t.phase ≠ .header → t.dec.size = announcedSize s

/-- DECODE, issued in `s`, has ended in `t`: OK with the block, or rejected. -/
structure decodeEnded (s t : State) : Prop where
  idle : t.phase = .idle
  regs : t.regs = { s.regs with status := t.regs.status, outSize := t.regs.outSize }
  answer :
    (t.regs.status = 0#8 ∧ t.regs.outSize.toNat ≤ s.blockSize ∧ t.regs.outSize.toNat = (announcedSize s).toNat ∧
      ∀ a, (Memory.get? t.outMem a).isSome = true ↔ a < t.regs.outSize.toNat) ∨
    (t.regs.outSize = 0#32 ∧ (t.regs.status = 2#8 ∧ outKept s t ∨
      (∃ c ∈ streamCodes, t.regs.status = statusByte c) ∧ ∀ a, Memory.get? t.outMem a = none))

/-- DECODE, issued in `s`, has come to `t`. -/
def decodeReaches (s t : State) : Prop := coreKept s t ∧ (decodeRunning s t ∨ decodeEnded s t)

theorem coreKept.trans {s t u : State} (h : coreKept s t) (h' : coreKept t u) : coreKept s u := by
  obtain ⟨hbuild, henc, hctx, hin⟩ := h
  obtain ⟨hbuild', henc', hctx', hin'⟩ := h'
  exact ⟨hbuild'.trans hbuild, henc'.trans henc, hctx'.trans hctx, hin'.trans hin⟩

section
variable {s t u : State}

theorem decodeReaches_rejectStream {c : StatusCode} (d : DecRegs) (hcore : coreKept s u) (hregs : u.regs = s.regs)
    (hc : c ∈ streamCodes) : decodeReaches s ((u.withDec d).rejectStream c) := by
  obtain ⟨hidle, hregs', hcore', hout⟩ := streamRejected_rejectStream u d c
  refine ⟨hcore.trans hcore', .inr ⟨hidle, by rw [hregs', hregs], .inr ⟨by rw [hregs'], .inr ⟨⟨c, hc, ?_⟩, hout⟩⟩⟩⟩
  rw [hregs']

/-- A block that ends has every byte below its announced length specified. -/
theorem decodeReaches_decodeFinish (hcore : coreKept s u) (hregs : u.regs = s.regs)
    (hsize : u.dec.size = announcedSize s) (hlegal : u.dec.size.toNat ≤ s.blockSize)
    (hbytes : ∀ a < u.dec.size.toNat, (Memory.get? u.outMem a).isSome = true) : decodeReaches s (decodeFinish u) := by
  have hval : (decodeFinish u).regs.outSize.toNat = u.dec.size.toNat :=
    word_toNat (u.dec.size.isLt.trans (by decide))
  refine ⟨hcore.trans ⟨rfl, rfl, rfl, rfl⟩, .inr ⟨rfl, by rw [decodeFinish_cases, hregs], .inl ⟨rfl, ?_⟩⟩⟩
  rw [hval]
  refine ⟨hlegal, by rw [hsize], fun a => ?_⟩
  change (Memory.get? (u.loseOut u.dec.size.toNat).outMem a).isSome = true ↔ _
  rw [State.get?_loseOut]
  by_cases ha : a < u.dec.size.toNat
  · simp [ha, hbytes a ha]
  · simp [ha]

/-- After a symbol the block ends, or DECODE goes on. -/
theorem decodeReaches_afterSymbol (hcore : coreKept s u) (hregs : u.regs = s.regs)
    (hsize : u.dec.size = announcedSize s) (h : streamInv u) : decodeReaches s (afterSymbol u) := by
  obtain ⟨hin, hlegal, hi, hj, hbytes, hanchor⟩ := h
  obtain ⟨hend, hr⟩ | ⟨hmore, -, hr⟩ | ⟨hmore, -, hr⟩ := afterSymbol_cases u <;> rw [hr]
  · refine decodeReaches_decodeFinish hcore hregs hsize ?_ fun a ha => hbytes a (by omega)
    rwa [State.blockSize, ← hcore.1]
  · exact ⟨hcore, .inl ⟨rfl, hregs, ⟨fun _ => hin, fun _ => ⟨hlegal, hi, hmore, hbytes⟩, nofun⟩, nofun, fun _ => hsize⟩⟩
  · refine ⟨hcore, .inl ⟨rfl, hregs, ⟨fun _ => hin, fun _ => ⟨hlegal, hi, hmore, hbytes⟩, fun _ => ?_⟩, nofun,
      fun _ => hsize⟩⟩
    simp only [State.withPhase_dec, State.withDec_dec]
    split
    · exact le_refl _
    · exact hanchor

/-- What a symbol answers: a rejection with one of the codes of the stream, or its bytes stored. -/
def symbolAnswers (s t : State) : Prop :=
  (∃ d, ∃ c ∈ streamCodes, t = (s.withDec d).rejectStream c) ∨
  ∃ (i : Nat) (bytes : List Byte), i ≤ s.inSize ∧ s.dec.j.toNat + bytes.length ≤ s.dec.size.toNat ∧
    t = afterSymbol (symbolStored s i bytes)

theorem literalRun_answers {len : Nat} (h : streamReady s) : ∃ t, literalRun len s = .next t ∧ symbolAnswers s t := by
  obtain ⟨-, hpayload, hblock, -, -⟩ := h
  by_cases hin : s.dec.i.toNat + len ≤ s.inSize
  · by_cases hout : s.dec.j.toNat + len ≤ s.dec.size.toNat
    · exact ⟨_, literalRun_stores hin hpayload hout hblock,
        .inr ⟨_, _, hin, by rwa [State.inRun_length], rfl⟩⟩
    · exact ⟨_, literalRun_overrun hin (Nat.lt_of_not_le hout), .inl ⟨s.dec, _, by decide, rfl⟩⟩
  · exact ⟨_, literalRun_underrun (Nat.lt_of_not_le hin), .inl ⟨s.dec, _, by decide, rfl⟩⟩

theorem backReference_answers {len : Nat} (h : streamReady s) (hp : s.phase = .symbol) :
    ∃ t, backReference len s = .next t ∧ symbolAnswers s t := by
  obtain ⟨-, hpayload, hblock, -, hanchor⟩ := h
  by_cases hin : s.dec.i.toNat + 2 ≤ s.inSize
  case neg => exact ⟨_, backReference_underrun (Nat.lt_of_not_le hin), .inl ⟨s.dec, _, by decide, rfl⟩⟩
  by_cases hoff : offsetAt s = 0 ∨ s.dec.anchor.toNat < offsetAt s
  case pos => exact ⟨_, backReference_badOffset hin hpayload hoff, .inl ⟨_, _, by decide, rfl⟩⟩
  obtain ⟨hlo, hhi⟩ : 1 ≤ offsetAt s ∧ offsetAt s ≤ s.dec.anchor.toNat := by omega
  by_cases hlen : len ≤ offsetAt s
  case neg =>
    exact ⟨_, backReference_overlap hin hpayload hlo hhi (Nat.lt_of_not_le hlen), .inl ⟨_, _, by decide, rfl⟩⟩
  by_cases hout : s.dec.j.toNat + len ≤ s.dec.size.toNat
  case neg =>
    exact ⟨_, backReference_overrun hin hpayload hlo hhi hlen (Nat.lt_of_not_le hout), .inl ⟨_, _, by decide, rfl⟩⟩
  exact ⟨_, backReference_stores hin hpayload hlo hhi hlen (hanchor hp) hout hblock,
    .inr ⟨_, _, hin, by rwa [State.outRun_length], rfl⟩⟩

theorem exec_symbol_answers {i : Instr} (hi : (symSel i).isSome = true) (h : streamReady s) (hp : s.phase = .symbol) :
    ∃ t, exec i s = .next t ∧ symbolAnswers s t := by
  cases i with
  | lit nib => exact literalRun_answers h
  | ref | refx32 | refx48 | refx64 | refExt4 | refExt5to8 | refExt9to16 => exact backReference_answers h hp
  | _ => exact absurd hi (by simp [symSel])

/-- Stored bytes extend the specified part of the block. -/
theorem streamInv_symbolStored {i : Nat} {bytes : List Byte} (h : decodeInv s) (hp : s.phase = .symbol)
    (hi : i ≤ s.inSize) (hout : s.dec.j.toNat + bytes.length ≤ s.dec.size.toNat) :
    streamInv (symbolStored s i bytes) := by
  obtain ⟨hdecode, hcursors, hanchor⟩ := h
  obtain ⟨hlegal, -, -, hbytes⟩ := hcursors (.inr hp)
  have hival : (symbolStored s i bytes).dec.i.toNat = i := word_toNat (hi.trans_lt s.regs.inSize.isLt)
  have hjval := symbolStored_j (i := i) hout
  refine ⟨hdecode (by rw [hp]; rfl), hlegal, hival.trans_le hi, hjval.trans_le hout, fun a ha => ?_, ?_⟩
  · rw [hjval] at ha
    obtain hold | hnew := Nat.lt_or_ge a s.dec.j.toNat
    · exact isSome_symbolStored (.inr (hbytes a hold))
    · exact isSome_symbolStored (.inl ⟨hnew, ha⟩)
  · rw [hjval]
    exact (hanchor hp).trans (Nat.le_add_right _ _)

/-! ### One step of the stream -/

theorem decodeReaches_execBlkhdr (hcore : coreKept s u) (h : decodeRunning s u) (hp : u.phase = .header)
    (ht : execBlkhdr (announcedSize s) u = .next t) : decodeReaches s t := by
  obtain ⟨hmin, hmax⟩ := h.inv.1 h.inside
  obtain ⟨d, rfl⟩ | ⟨d, hlegal, hds, hdi, hdj, ⟨hempty, rfl⟩ | ⟨hpos, rfl⟩⟩ := execBlkhdr_eq_next ht
  · refine ⟨hcore.trans ⟨rfl, rfl, rfl, rfl⟩, .inr ⟨rfl, ?_, .inr ⟨rfl, .inl ⟨rfl, h.untouched hp⟩⟩⟩⟩
    rw [← h.regs]
    rfl
  · have hzero : (u.withDec d).dec.size.toNat = 0 := congrArg BitVec.toNat (hds.trans hempty)
    refine decodeReaches_decodeFinish (u := u.withDec d) hcore h.regs hds (by omega) fun a ha => ?_
    omega
  · refine ⟨hcore, .inl ⟨rfl, h.regs, ⟨fun _ => ⟨hmin, hmax⟩, fun _ => ?_, nofun⟩, nofun, fun _ => hds⟩⟩
    simp only [State.withPhase_dec, State.withDec_dec, hds, hdi, hdj]
    exact ⟨hlegal, hmin, hpos, fun a ha => absurd ha (Nat.not_lt_zero a)⟩

theorem decodeReaches_execGroup {c b0 b1 b2 b3 : Byte} (hcore : coreKept s u) (h : decodeRunning s u)
    (hp : u.phase = .group) (ht : execGroup c b0 b1 b2 b3 u = .next t) : decodeReaches s t := by
  obtain ⟨hlegal, -, hj, hbytes⟩ := h.inv.2.1 (.inl hp)
  obtain rfl | ⟨d, rfl, hpresent, hdi, hdj, hds, hda⟩ := execGroup_eq_next ht
  · exact decodeReaches_rejectStream u.dec hcore h.regs (by decide)
  · have hival := word_toNat (hpresent.trans_lt u.regs.inSize.isLt)
    have hsize : d.size = announcedSize s := hds.trans (h.announced (by rw [hp]; decide))
    refine ⟨hcore, .inl ⟨rfl, h.regs, ⟨fun _ => h.inv.1 h.inside, fun _ => ?_, fun _ => ?_⟩, nofun, fun _ => hsize⟩⟩ <;>
      simp only [State.withPhase_dec, State.withDec_dec, hdi, hdj, hds, hda]
    · exact ⟨hlegal, hival.trans_le hpresent, hj, hbytes⟩
    · exact le_refl _

theorem decodeReaches_execSymbol (hcore : coreKept s u) (h : decodeRunning s u) (hp : u.phase = .symbol)
    (ht : execSymbol u = .next t) : decodeReaches s t := by
  have hsize : u.dec.size = announcedSize s := h.announced (by rw [hp]; decide)
  obtain ⟨t', ht', hanswer⟩ :=
    exec_symbol_answers (symSel_decodeSym_isSome (currentSel u)) (streamReady_of_decodeInv h.inv (.inr hp)) hp
  rw [execSymbol_eq_exec] at ht
  obtain rfl := Host.Outcome.next.inj (ht.symm.trans ht')
  obtain ⟨d, c, hc, rfl⟩ | ⟨i, bytes, hi, hout, rfl⟩ := hanswer
  · exact decodeReaches_rejectStream d hcore h.regs hc
  · exact decodeReaches_afterSymbol hcore h.regs hsize (streamInv_symbolStored h.inv hp hi hout)

theorem decodeReaches_streamStep (h : decodeReaches s u) (hin : inDecode u.phase = true)
    (ht : streamStep u = .next t) : decodeReaches s t := by
  obtain ⟨hcore, hrunning | hended⟩ := h
  · have hbytes : u.inAt = s.inAt := by
      obtain ⟨-, -, -, hmem⟩ := hcore
      funext a
      rw [State.inAt, hmem, State.inAt]
    unfold streamStep at ht
    split at ht
    · rw [hbytes] at ht
      exact decodeReaches_execBlkhdr hcore hrunning ‹_› ht
    · exact decodeReaches_execGroup hcore hrunning ‹_› ht
    · exact decodeReaches_execSymbol hcore hrunning ‹_› ht
    · rename_i hp
      rw [hp] at hin
      cases hin
    · rename_i hp
      rw [hp] at hin
      cases hin
  · rw [hended.idle] at hin
    cases hin

theorem decodeReaches_decodeStart (hlo : 3 ≤ s.inSize) (hhi : s.inSize ≤ s.outputSize) :
    decodeReaches s (decodeStart s) :=
  ⟨⟨rfl, rfl, rfl, rfl⟩, .inl ⟨rfl, rfl, ⟨fun _ => ⟨hlo, hhi⟩, fun hp => hp.elim nofun nofun, nofun⟩,
    fun _ => ⟨rfl, rfl⟩, fun hp => absurd rfl hp⟩⟩

end

/-- DECODE of a payload of legal size ends OK with its block, or with one of its five rejections. -/
theorem execDecode_decodeEnded {s : State} (hlo : 3 ≤ s.inSize) (hhi : s.inSize ≤ s.outputSize) :
    ∃ t, execDecode s = .next t ∧ coreKept s t ∧ decodeEnded s t := by
  obtain ⟨t, ht, hidle⟩ := runStream_decodeStart hlo hhi
  obtain ⟨hcore, hrunning | hended⟩ := runStream_induction (P := decodeReaches s)
    (fun _ _ hu hin hv => decodeReaches_streamStep hu hin hv) (decodeReaches_decodeStart hlo hhi) ht
  · have hinside := hrunning.inside
    rw [hidle] at hinside
    cases hinside
  · exact ⟨t, (execDecode_eq_runStream hlo hhi).trans ht, hcore, hended⟩

/-- The status of a rejection of the stream is one of four, none of them OK or ERR_SIZE (R160). -/
theorem statusByte_of_streamCodes {c : StatusCode} (h : c ∈ streamCodes) :
    statusByte c = 4#8 ∨ statusByte c = 5#8 ∨ statusByte c = 6#8 ∨ statusByte c = 7#8 := by
  simp only [streamCodes, List.mem_cons, List.not_mem_nil, or_false] at h
  obtain rfl | rfl | rfl | rfl := h <;> decide

/-- Settles O40: the answers of `decodeEnded`, the rejections by their codes. -/
theorem decodeAlwaysEnds : Obligations.DecodeAlwaysEnds := by
  intro s hlo hhi
  obtain ⟨t, ht, hcore, hidle, hregs, hanswer⟩ := execDecode_decodeEnded hlo hhi
  refine ⟨t, ht, hidle, hregs, hcore, ?_⟩
  obtain ⟨hok, hlegal, hsize, hout⟩ | ⟨hzero, ⟨hcode, hkept⟩ | ⟨⟨c, hc, hcode⟩, hnone⟩⟩ := hanswer
  · exact .inl ⟨hok, hlegal, hsize.trans (announcedSize_toNat s), hout⟩
  · exact .inr ⟨hzero, .inl hcode, fun _ => hkept, fun hne => absurd hcode hne⟩
  · have hnot : statusByte c ≠ 2#8 := (statusByte_streamCodes hc).1
    exact .inr ⟨hzero, .inr (hcode ▸ statusByte_of_streamCodes hc), fun h2 => absurd (hcode.symm.trans h2) hnot,
      fun _ => hnone⟩

end Sys2Proof.Machine

/-! SUPPORT. NOP, CTX_RESET and the reserved codes, and how every command ends: its phase, STATUS and OUT_SIZE. -/

namespace Sys2Proof.Machine

/-! ### NOP (R147) -/

theorem exec_nop (s : State) : exec .nop s = .next s.complete := rfl

/-- The normal end of a command writes STATUS, and nothing more is fetched (R145). -/
theorem State.complete_eq (s : State) :
    s.complete = { s with phase := .idle, regs := { s.regs with status := 0#8 } } := rfl

/-- Settles O10: NOP is the normal end of a command and no more. -/
theorem nopWritesStatusOnly : Obligations.NopWritesStatusOnly := fun s => by
  rw [exec_nop, State.complete_eq]

/-! ### CTX_RESET (R96, R148) -/

/-- The context that CTX_RESET leaves: the index reset, LEVEL sampled, DIRTY cleared (R148). -/
def resetCtx (s : State) : Ctx := { indexReset s.ctx with level := s.regs.level, dirty := false }

theorem exec_ctxReset (s : State) : exec .ctxReset s = .next (s.withCtx (resetCtx s)).complete := rfl

/-- A FastRef bucket after CTX_RESET has count 0 and the entries it had. -/
theorem fastAt_resetCtx {s : State} (hr : keysRising s.ctx.fast) (h : Nat) :
    fastAt (resetCtx s) h = { fastAt s.ctx h with count := 0#8 } :=
  getKey_clearFast hr h

/-- A MultiRef bucket after CTX_RESET has count 0 and the entries it had. -/
theorem multiAt_resetCtx {s : State} (hr : keysRising s.ctx.multi) (h : Nat) :
    multiAt (resetCtx s) h = { multiAt s.ctx h with count := 0#8 } :=
  getKey_clearMulti hr h

/-- Settles O11: the buckets by the reset of either table, the other fields as CTX_RESET writes them. -/
theorem ctxResetClearsTheContext : Obligations.CtxResetClearsTheContext := by
  intro s hfast hmulti
  have hfastBuckets : ∀ h, (fastAt (resetCtx s) h).count = 0#8 ∧
      (fastAt (resetCtx s) h).entry = (fastAt s.ctx h).entry := fun h => by
    rw [fastAt_resetCtx hfast]
    exact ⟨rfl, rfl⟩
  have hmultiBuckets : ∀ h, (multiAt (resetCtx s) h).count = 0#8 ∧
      (multiAt (resetCtx s) h).entry = (multiAt s.ctx h).entry := fun h => by
    rw [multiAt_resetCtx hmulti]
    exact ⟨rfl, rfl⟩
  exact ⟨_, exec_ctxReset s, rfl, rfl, rfl, rfl, hfastBuckets, hmultiBuckets, rfl, rfl, rfl, rfl, rfl, rfl, rfl, rfl⟩

/-! ### A reserved command code (R60, R149) -/

/-- The reserved command codes: those between and above the codes of R59. -/
def reservedCode (n : Nat) : Prop :=
  (0x04 ≤ n ∧ n ≤ 0x0F) ∨ (0x14 ≤ n ∧ n ≤ 0x17) ∨ (0x1A ≤ n ∧ n ≤ 0x1F) ∨ (0x23 ≤ n ∧ n ≤ 0xFF)

/-- No code of the table is a reserved one. -/
theorem decodeCmd_of_reservedCode {code : Byte} (h : reservedCode code.toNat) :
    decodeCmd code = .error (.reservedCommand code) := by
  unfold reservedCode at h
  refine (commandCodesAreTheTable code).trans ?_
  split
  case h_14 => rfl
  all_goals omega

/-- An issued code that is no command's is rejected with ERR_CMD. -/
theorem step_of_undecoded {s : State} {e : DecodeError} (hp : s.phase = .issued)
    (he : decodeCmd s.regs.cmd = .error e) : step s = .next (s.reject .errCmd) := by
  have hfetch : fetch s = none := by simp only [fetch, hp, fetchCommand, decode, he, decoded]
  simp only [step, hfetch, noInstruction, hp]

/-- Settles O8: the code decodes to no command, and the step is the rejection. -/
theorem reservedCommandRejected : Obligations.ReservedCommandRejected := fun _ hp hcode =>
  step_of_undecoded hp (decodeCmd_of_reservedCode hcode)

/-! ### How a command ends (R145, R151, R160, R164) -/

/-- A command has ended in `t`: nothing is left to fetch, STATUS holds a code of R160, and OUT_SIZE is 0 unless that
code is OK. -/
def commandEnded (t : State) : Prop :=
  t.phase = .idle ∧ t.regs.status.toNat ≤ 9 ∧ (t.regs.status ≠ 0#8 → t.regs.outSize = 0#32)

theorem commandEnded_complete (s : State) : commandEnded s.complete :=
  ⟨rfl, Nat.zero_le _, fun h => absurd rfl h⟩

theorem commandEnded_reject (s : State) (c : StatusCode) : commandEnded (s.reject c) :=
  ⟨rfl, statusByte_le c, fun _ => rfl⟩

/-- A command that writes no OUT_SIZE of its own: it is rejected with ERR_ARG, or ends OK with OUT_SIZE as it was. -/
def argOutcome (s t : State) : Prop :=
  t = s.reject .errArg ∨ ∃ u : State, u.regs.outSize = s.regs.outSize ∧ t = u.complete

theorem argOutcome.commandEnded {s t : State} (h : argOutcome s t) : commandEnded t := by
  obtain rfl | ⟨u, -, rfl⟩ := h
  · exact commandEnded_reject s _
  · exact commandEnded_complete u

theorem argOutcome.outSize_of_ok {s t : State} (h : argOutcome s t) (hok : t.regs.status = 0#8) :
    t.regs.outSize = s.regs.outSize := by
  obtain rfl | ⟨u, hu, rfl⟩ := h
  · have herr : statusByte .errArg ≠ 0#8 := by decide
    exact absurd hok herr
  · exact hu

theorem leafOutcome.argOutcome {s t : State} (h : leafOutcome s t) : argOutcome s t := by
  obtain rfl | ⟨v, rfl⟩ | ⟨m, -, rfl⟩ := h
  · exact .inl rfl
  · exact .inr ⟨s.setRes0 v, rfl, rfl⟩
  · exact .inr ⟨{ s with outMem := m }, rfl, rfl⟩

theorem argOutcome_execProbe {s t : State} (h : execProbe s = .next t) : argOutcome s t := by
  obtain rfl | ⟨r, -, rfl⟩ := execProbe_eq_next h
  · exact .inl rfl
  · exact .inr ⟨_, by rw [State.setProbeResult_frame]; rfl, rfl⟩

theorem argOutcome_execCtxReset {s t : State} (h : execCtxReset s = .next t) : argOutcome s t :=
  .inr ⟨s.withCtx (resetCtx s), rfl, (Host.Outcome.next.inj h).symm⟩

theorem commandEnded_execEncode {s t : State} (h : execEncode s = .next t) : commandEnded t := by
  obtain ⟨c, rfl⟩ | ⟨-, v, -, -, rfl⟩ := execEncode_eq_next h
  · exact commandEnded_reject s c
  · exact commandEnded_complete _

/-- DECODE past its tests of IN_SIZE ends with OK, ERR_SIZE or a rejection of the stream. -/
theorem decodeEnded.commandEnded {s t : State} (h : decodeEnded s t) : commandEnded t := by
  refine ⟨h.idle, ?_, fun hrejected => ?_⟩
  · obtain ⟨hok, -⟩ | ⟨-, ⟨hcode, -⟩ | ⟨⟨c, -, hcode⟩, -⟩⟩ := h.answer
    · exact hok ▸ statusByte_le .ok
    · exact hcode ▸ statusByte_le .errSize
    · exact hcode ▸ statusByte_le c
  · obtain ⟨hok, -⟩ | ⟨hzero, -⟩ := h.answer
    · exact absurd hok hrejected
    · exact hzero

theorem commandEnded_execDecode {s t : State} (h : execDecode s = .next t) : commandEnded t := by
  obtain rfl | ⟨hlo, hhi, -⟩ := execDecode_eq_next h
  · exact commandEnded_reject s _
  · obtain ⟨t', ht', -, hended⟩ := execDecode_decodeEnded hlo hhi
    obtain rfl := Host.Outcome.next.inj (ht'.symm.trans h)
    exact hended.commandEnded

/-- A command is ENCODE or DECODE, or leaves OUT_SIZE to its rejection (R59, R151). -/
theorem argOutcome_execCommand {code : Byte} {i : Instr} {s t : State} (hi : decodeCmd code = .ok i)
    (ht : exec i s = .next t) (hencode : i ≠ .encode) (hdecode : i ≠ .decode) : argOutcome s t := by
  obtain hleaf | rfl | rfl | rfl | rfl := decodeCmd_eq_ok hi
  · exact (leafOutcome_exec hleaf ht).argOutcome
  · exact argOutcome_execCtxReset ht
  · exact absurd rfl hencode
  · exact absurd rfl hdecode
  · exact argOutcome_execProbe ht

theorem commandEnded_execCommand {code : Byte} {i : Instr} {s t : State} (hi : decodeCmd code = .ok i)
    (ht : exec i s = .next t) : commandEnded t := by
  by_cases hencode : i = .encode
  · subst hencode
    exact commandEnded_execEncode ht
  by_cases hdecode : i = .decode
  · subst hdecode
    exact commandEnded_execDecode ht
  · exact (argOutcome_execCommand hi ht hencode hdecode).commandEnded

/-- Settles O58: every command has ended, and those but ENCODE and DECODE write OUT_SIZE by their rejection alone. -/
theorem commandsEndWithTheirStatus : Obligations.CommandsEndWithTheirStatus := by
  intro code i s t hi ht
  obtain ⟨hidle, hstatus, hzero⟩ := commandEnded_execCommand hi ht
  exact ⟨hidle, hstatus, hzero, fun hok hencode hdecode =>
    (argOutcome_execCommand hi ht hencode hdecode).outSize_of_ok hok⟩

end Sys2Proof.Machine

/-! SUPPORT. The numbers of the status codes, and what a rejection writes. -/

namespace Sys2Proof.Machine

/-! ### The rejection (R160, R164) -/

/-- Settles O49: each code by its equation of `statusByte`. -/
theorem statusCodesAreNumbered : Obligations.StatusCodesAreNumbered :=
  ⟨rfl, rfl, rfl, rfl, rfl, rfl, rfl, rfl, rfl, rfl⟩

/-- Settles O50: `setOutSize` writes OUT_SIZE, and `endWith` then writes STATUS and the phase. -/
theorem rejectionWritesStatusAndOutSize : Obligations.RejectionWritesStatusAndOutSize := fun s c =>
  calc s.reject c
    _ = (s.setOutSize 0).endWith c := rfl
    _ = { s with phase := .idle, regs := { s.regs with status := statusByte c, outSize := 0#32 } } := rfl

end Sys2Proof.Machine

/-! SUPPORT. The run of ENCODE with EXT as it stands, read as a run with EXT set: every symbol it emits is one under the
extensions too, with the same bytes (R54, R184). -/

namespace Sys2Proof.Machine

/-! ### What EXT adds: encodings, and no other bytes for those there were (R54, R85) -/

theorem encodable.extended {ext : Bool} {len : Nat} (h : encodable ext len) : encodable true len := by
  obtain ⟨h4, hshort | ⟨-, hlong⟩⟩ := h
  · exact ⟨h4, .inl hshort⟩
  · exact ⟨h4, .inr ⟨rfl, hlong⟩⟩

theorem Desc.packable_extended {ext : Bool} {d : Desc} (h : d.packable ext = true) : d.packable true = true := by
  obtain hliteral | ⟨href, hlen⟩ := Desc.packable_iff.1 h
  · exact Desc.packable_iff.2 (.inl hliteral)
  · exact Desc.packable_iff.2 (.inr ⟨href, hlen.extended⟩)

theorem all_packable_extended {ext : Bool} {ds : List Desc} (h : ds.all (Desc.packable ext) = true) :
    ds.all (Desc.packable true) = true :=
  List.all_eq_true.2 fun d hd => Desc.packable_extended (List.all_eq_true.1 h d hd)

theorem scanReady.extended {ext : Bool} {e : EncRegs} (h : scanReady ext e) : scanReady true e := by
  obtain ⟨hle, hrun, hg, hpack⟩ := h
  exact ⟨hle, hrun, hg, all_packable_extended hpack⟩

/-! ### The same unit with EXT set -/

/-- The state with EXT set and all else as it is. -/
def State.withExtSet (s : State) : State := { s with regs := { s.regs with ext := 1#1 } }

@[simp] theorem State.withExtSet_extOn (s : State) : s.withExtSet.extOn = true := rfl

section
variable {s t u : State} {ds : List Desc}

theorem scanInv.withExtSet {size : Nat} (h : scanInv size s) : scanInv size s.withExtSet := by
  obtain ⟨hready, hi, hsize, hbudget⟩ := h
  exact ⟨hready.extended, hi, hsize, hbudget⟩

theorem scanKept.withExtSet (h : scanKept s t) : scanKept s.withExtSet t.withExtSet := by
  obtain ⟨hbuild, hphase, hregs, hdec, hin⟩ := h
  exact ⟨hbuild, hphase, congrArg (fun r : HostRegs => { r with ext := 1#1 }) hregs, hdec, hin⟩

theorem legalReference.withExtSet {done a len pos : Nat} (h : legalReference s done a len pos) :
    legalReference s.withExtSet done a len pos := by
  obtain ⟨hlen, hbytes⟩ := h
  exact ⟨hlen.extended, hbytes⟩

/-- A group is the same listed group under both settings. -/
theorem groupBytes_withExtSet (h : ds.all (Desc.packable s.extOn) = true) :
    groupBytes s.withExtSet ds = groupBytes s ds :=
  calc groupBytes s.withExtSet ds
    _ = assembleGroup (ds.map (Desc.toSym s.withExtSet)) := groupBytes_eq_assembleGroup (all_packable_extended h)
    _ = assembleGroup (ds.map (Desc.toSym s)) := rfl
    _ = groupBytes s ds := (groupBytes_eq_assembleGroup h).symm

theorem emits.withExtSet (h : emits u t ds) (hpack : (u.enc.held ++ ds).all (Desc.packable u.extOn) = true) :
    emits u.withExtSet t.withExtSet ds := by
  obtain ⟨hshort, hfull⟩ := h
  refine ⟨hshort, fun hge => ?_⟩
  have hgroup : groupBytes u.withExtSet ((u.enc.held ++ ds).take 8) = groupBytes u ((u.enc.held ++ ds).take 8) :=
    groupBytes_withExtSet (all_of_subset hpack (List.take_subset _ _))
  have hflushed := hfull hge
  rw [← hgroup] at hflushed
  exact hflushed

/-! ### The run of ENCODE, its symbols listed under the extensions (R107 to R114) -/

variable {sent sentExt : List Desc}

/-- An iteration keeps the listing under the extensions in step with the input too. -/
theorem encoding.scanStep_withExtSet (h : encoding s sent u) (hx : encoding s.withExtSet sentExt u.withExtSet)
    (hi : u.enc.i.toNat < s.inSize) (ht : Machine.scanStep s.inSize u = .next t) :
    ∃ sent', encoding s.withExtSet sent' t.withExtSet := by
  obtain ⟨hinv, -, hkept, hemits, -, hlit, hn, hpa⟩ := scanStep_of_scanInv h.inv hi ht
  have hsize : s.inSize < 2 ^ 32 := s.regs.inSize.isLt
  obtain ⟨hready, -⟩ := h.inv
  have ⟨_, _, _, hheld⟩ := hready
  have hlegal := fun len pos => legalReference_of_scanAccepted (size := s.inSize) (len := len) (pos := pos) h.kept
  have hpack : (u.enc.held ++ scanSymbols s.inSize u).all (Desc.packable u.extOn) = true := by
    have hadvance := scanAdvance_scanRegs (a := positionAnchor u.enc) hready hi hsize fun len pos hsome => by
      obtain ⟨⟨hlen, -⟩, hend⟩ := hlegal len pos hsome
      exact ⟨h.extOn_eq ▸ hlen, hend⟩
    rw [List.all_append, hheld, Bool.true_and]
    exact hadvance.packable
  refine hx.of_emits hinv.withExtSet (h.kept.trans hkept).withExtSet (all_packable_extended hpack)
    (hemits.withExtSet hpack) ?_
  change listed _ t.enc.n t.enc.pa.toNat t.enc.lit.toNat ((sentExt ++ (u.enc.held ++ _)).map _)
  rw [hlit, hn, hpa, ← List.append_assoc, List.map_append, scanSymbols]
  cases haccepted : scanAccepted s.inSize u with
  | some r =>
    obtain ⟨hreference, hend⟩ := hlegal r.1 r.2 haccepted
    exact hx.symbols.addMatch hready.extended (hend.trans_lt hsize) hreference.withExtSet rfl
  | none => exact hx.symbols.addLiteralByte hready.extended (Nat.lt_of_le_of_lt hi hsize) rfl

/-- All states of the scan list the input so far under the extensions too. -/
theorem encoding_withExtSet_of_trace {p : Nat → State} {k : Nat} (hp0 : p 0 = encodeStart s)
    (hsize : s.inSize ≤ s.blockSize)
    (hp : ∀ j < k, (p j).enc.i.toNat < s.inSize ∧ Machine.scanStep s.inSize (p j) = .next (p (j + 1))) :
    ∃ sent, encoding s.withExtSet sent (p k).withExtSet := by
  induction k with
  | zero =>
    rw [hp0]
    exact ⟨[], encoding_encodeStart (s := s.withExtSet) hsize⟩
  | succ k ih =>
    have hbefore := fun j (hj : j < k) => hp j (Nat.lt_succ_of_lt hj)
    obtain ⟨sent, hk⟩ := encoding_of_trace (hp0 ▸ encoding_encodeStart hsize) hbefore
    obtain ⟨sentExt, hkx⟩ := ih hbefore
    obtain ⟨hi, hstep⟩ := hp k (Nat.lt_succ_self k)
    exact hk.scanStep_withExtSet hkx hi hstep

/-- With EXT set the tail writes the same bytes. -/
theorem encodeTail_withExtSet {size : Nat} (h : scanInv size u) (ht : encodeTail u = .next t) :
    ∃ v, encodeTail u.withExtSet = .next v ∧ v.outRun 0 v.enc.o.toNat = t.outRun 0 t.enc.o.toNat := by
  obtain ⟨t', ht', -, hmem, hdraw, ho⟩ := encodeTail_completes h.1 (room_of_scanInv h)
  obtain rfl := Host.Outcome.next.inj (ht'.symm.trans ht)
  obtain ⟨v, hv, -, hmem', hdraw', ho'⟩ := encodeTail_completes h.withExtSet.1 (room_of_scanInv h.withExtSet)
  have hlast : lastGroup u.withExtSet (u.enc.held ++ trailingDescs u.enc) =
      lastGroup u (u.enc.held ++ trailingDescs u.enc) := by
    rw [lastGroup, lastGroup, groupBytes_withExtSet (packable_trailing h.1)]
  have hcursor : v.enc.o.toNat = t'.enc.o.toNat := (hlast ▸ ho').trans ho.symm
  have hkept : outKept t' v := ⟨(hlast ▸ hmem').trans hmem.symm, hdraw'.trans hdraw.symm⟩
  exact ⟨v, hv, by rw [hcursor, outRun_of_outKept hkept]⟩

end

/-- The payload of ENCODE is a listing of the block under the extensions, whatever EXT it was made with. -/
theorem execEncode_lists_withExtSet {s t : State} (hsize : s.inSize ≤ s.blockSize) (hclean : s.ctx.dirty = false)
    (ht : execEncode s = .next t) :
    ∃ l, listsBlock s.build.geometry l true (s.inRun 0 s.inSize) t.result := by
  obtain ⟨k, p, v, hp0, hp, hpk, hv, hkept, -, -, -, hexec⟩ := execEncode_trace hsize hclean
  obtain rfl := Host.Outcome.next.inj (hexec.symm.trans ht)
  obtain ⟨sent, hscan⟩ := encoding_of_trace (hp0 ▸ encoding_encodeStart hsize) hp
  obtain ⟨sentExt, hscanExt⟩ := encoding_withExtSet_of_trace hp0 hsize hp
  obtain ⟨w, hw, hout⟩ := encodeTail_withExtSet hscan.inv hv
  obtain ⟨l, hl⟩ := hscanExt.encodeTail hpk hw
  have hresult : (encodeFinish v).result = v.outRun 0 v.enc.o.toNat := by
    rw [State.result, encodeFinish_regs]
    exact State.outRun_congr fun a ha => outAt_encodeFinish hkept (by rwa [Nat.zero_add])
  rw [hresult, ← hout]
  exact ⟨l, hl⟩

/-! ### The round trip from EXT = 0 to EXT = 1 (R184) -/

/-- The facade's DECODE of a payload that lists a block gives the block. -/
theorem callDecode_of_listsBlock {u : State} {l : Listing} {ext : Bool} {input payload : List Byte}
    (hl : listsBlock u.build.geometry l ext input payload) (hroom : payload.length ≤ u.outputSize) :
    ∃ v, callDecode u payload ext = .next v ∧ v.regs.status = 0#8 ∧ v.result = input := by
  have hlen := State.called_inSize 0x03#8 ext hroom
  have hdecode := execDecode_of_listing (s := u.called 0x03#8 payload ext) hl.wf (hlen.trans_le hroom)
    (by rw [hlen, hl.assembled])
    (by rw [hl.assembled, State.called_inRun _ _ hroom])
    (by rw [State.called_extOn, hl.ext_eq])
  obtain ⟨v, hv, -, hregs, hresult, -⟩ := hdecode.1 input hl.block
  exact ⟨v, (callDecode_eq u payload ext).trans hv, by rw [hregs], hresult⟩

/-- Settles O38: the symbols ENCODE emits with EXT = 0 list the input under the extensions as well, and DECODE with
EXT = 1 gives the block that this listing stands for. -/
theorem plainPayloadDecodesUnderExtensions : Obligations.PlainPayloadDecodesUnderExtensions := by
  intro s u input hsize hclean hgeometry
  have hfits := hsize.trans s.blockSize_le_outputSize
  have hlen : (s.called 0x02#8 input false).inSize = input.length := State.called_inSize _ _ hfits
  obtain ⟨t, -, ht, hok, hpayload, -⟩ :=
    execEncode_lists (s := s.called 0x02#8 input false) (hlen.trans_le hsize) hclean
  obtain ⟨l, hl⟩ := execEncode_lists_withExtSet (hlen.trans_le hsize) hclean ht
  rw [hlen, State.called_inRun _ _ hfits, State.called_build, ← hgeometry] at hl
  have hroom : t.result.length ≤ u.outputSize := by
    rw [State.outputSize, hgeometry]
    exact hpayload
  obtain ⟨v, hv, hdecoded, hresult⟩ := callDecode_of_listsBlock hl hroom
  exact ⟨t, v, (callEncode_eq s input false).trans ht, hok, hv, hdecoded, hresult⟩

end Sys2Proof.Machine
